-- ==== Sys2Proof/Word.lean ====
section
/-! DEFINITION. The word types of RLINK (spec/00_scope.md R10): a byte, a 32-bit register word and a
byte offset of the 8 KiB host register space (spec/20_memory.md R80). -/

namespace Sys2Proof

/-- An 8-bit byte, unsigned (R10). -/
abbrev Byte := BitVec 8

/-- A 32-bit host register word (R10). -/
abbrev Word := BitVec 32

/-- A byte offset from `BASE`, 0x0000..0x1FFF (R80). -/
abbrev Offset := BitVec 13

end Sys2Proof
end

