-- ==== Sys2Proof/Config.lean ====
section
/-! DEFINITION. What an implementation of RLINK fixes (spec/00_scope.md R7, R8, R9) and the values the
spec leaves free (spec/70_reset_and_hazards.md R352).

The parameters are a record, held in the machine's state as a field that no step changes: every
statement about every state is then a statement about every configuration. -/

namespace Sys2Proof

/-- The implementation parameters of R7. `PARAM0` and `PARAM1` show five of them to the host
(10_state.md R53, R54). -/
structure Params where
  /-- `SYNC_BYTE`, the marker that starts every frame. -/
  syncByte : Byte
  /-- `CTS_BYTE`, the clear-to-send sentinel. -/
  ctsByte : Byte
  /-- `MAX_LENGTH`, the largest LENGTH the transmit buffer holds, 1..255. -/
  maxLength : Nat
  /-- `RXBUF_SIZE`, the ring size `N`, 4..1024. -/
  rxbufSize : Nat
  /-- `T_WAIT`, the bound of every handshake wait in TB events, 1..65535. -/
  tWait : Nat
  /-- `BASE`, the host address of the register block, 8 KiB aligned. R7 gives it no width: 32 bits is a DESIGN
  CHOICE (log 18). -/
  base : Word
deriving DecidableEq, Repr

/-- `TXBUF_SIZE = MAX_LENGTH + 3` (R7). -/
def Params.txbufSize (p : Params) : Nat := p.maxLength + 3

/-- A legal configuration: every parameter in its range (R7) and `CTS_BYTE != SYNC_BYTE` (R8). -/
def Params.legal (p : Params) : Bool :=
  p.ctsByte != p.syncByte
    && decide (1 ≤ p.maxLength) && decide (p.maxLength ≤ 255)
    && decide (4 ≤ p.rxbufSize) && decide (p.rxbufSize ≤ 1024)
    && decide (1 ≤ p.tWait) && decide (p.tWait ≤ 65535)
    && (p.base.setWidth 13 == 0#13)

/-- The test configuration TC of R9. DESIGN CHOICE (log 1), unsafe: `State.reset` is the machine of
this configuration; R9 says no rule depends on its values. -/
def Config.tc : Params :=
  { syncByte := 0xA4#8, ctsByte := 0xA5#8, maxLength := 16, rxbufSize := 32, tWait := 4, base := 0#32 }

/-- FREE VALUE (log 6): the byte that cell `i` of TXB holds after the RESET numbered `epoch`, until it is
written (R352: "A model draws each byte as an arbitrary value"). -/
opaque Config.txbUnspecified (epoch i : Nat) : Byte

/-- FREE VALUE (log 6): the byte that cell `i` of RXB holds after the RESET numbered `epoch`, until it is
written (R352). -/
opaque Config.rxbUnspecified (epoch i : Nat) : Byte

end Sys2Proof
end

