-- ==== Sys2Proof/Syntax.lean ====
section
/-! DEFINITION. The instructions of RLINK: one constructor of `Instr` for each row of
spec/opcode_table.json, their operands, the input events that carry them (spec/00_scope.md R14), and the
points of control a received byte is classified by (spec/10_state.md R40, R41). -/

namespace Sys2Proof

/-- The registers of the map (10_state.md R32, R55). -/
inductive Reg where
  | ctrl | cmd | status | seq | lasterr | txlen | txidx | txres
  | rxwr | rxparse | rxrd | rxunread | rxcnt | tocnt | txout | param0 | param1
  | cntRxOk | cntRxFail | cntUnexp | cntTimeout | cntCollision | cntTxOk | cntStray | cntResync
deriving DecidableEq, Repr

/-- What a word offset of the host register space selects (20_memory.md R81). -/
inductive HostLoc where
  /-- a control or status register or a counter -/
  | reg (r : Reg)
  /-- word `i` of the TXB window (R82) -/
  | txb (i : Nat)
  /-- word `i` of the RXB window (R83) -/
  | rxb (i : Nat)
  /-- an unmapped offset (R86) -/
  | unmapped (off : Offset)
deriving DecidableEq, Repr

/-- The width of a host access. Only 32-bit accesses have an outcome (20_memory.md R84). -/
inductive AccessWidth where
  | byte | half | word
deriving DecidableEq, Repr

/-- The input events (00_scope.md R14). The access width is not in R14, whose accesses are all 32-bit:
it is there so that the refusal of R84 can be said (log 9). -/
inductive Event where
  /-- HOST_WRITE(off, v) -/
  | hostWrite (width : AccessWidth) (off : Offset) (v : Word)
  /-- HOST_READ(off) -/
  | hostRead (width : AccessWidth) (off : Offset)
  /-- DEN(v) -/
  | den (v : Bool)
  /-- BYTE_DONE(b), `b` the wire byte -/
  | byteDone (b : Byte)
  /-- TB -/
  | tb
  /-- RESET -/
  | reset
deriving DecidableEq, Repr

/-- The sub-phases of RECEIVING (10_state.md R41). -/
inductive RxPhase where
  | rxFirst | rxBody | rxDrain
deriving DecidableEq, Repr

/-- The sub-phases of TRANSMITTING (10_state.md R41). -/
inductive TxPhase where
  | txWaitDen | txWaitCts | txData | txWaitDenLow
deriving DecidableEq, Repr

/-- The pair (`SEQ.STATE`, `SEQ.PHASE`): "No other (STATE, PHASE) pair is ever taken" (10_state.md R40,
R41), so no other is a value (log 15). -/
inductive SeqState where
  | idle
  | receiving (p : RxPhase)
  | transmitting (p : TxPhase)
  | aborting
  | noResponse
deriving DecidableEq, Repr

/-- The instructions: the rows of spec/opcode_table.json in the table's order. -/
inductive Instr where
  -- command words, HOST_WRITE(0x004, v)
  | nop
  | tick
  | encode
  | txSubmit
  | rxRelease
  | clrFlags
  | park
  /-- reserved opcode 0x7 -/
  | reserved7
  /-- reserved opcodes 0x8..0xF: `low` is OP[2:0] -/
  | reservedHigh (low : BitVec 3)
  -- host register writes, HOST_WRITE(off, v)
  | wCtrl (v : Word)
  | wTxlen (v : Word)
  | wTxb (i : Nat) (v : Word)
  | wReadonly (r : Reg) (v : Word)
  | wRxb (i : Nat) (v : Word)
  | wUnmapped (off : Offset) (v : Word)
  -- HOST_READ(off)
  | read (loc : HostLoc)
  -- device, time-base and reset events
  | den (v : Bool)
  | byteDone (b : Byte)
  | tb
  | reset
  -- classes of the logical byte of a BYTE_DONE
  | rxSync (x : Byte)
  | rxUnexpected (x : Byte)
  | rxBodyByte (x : Byte)
  | rxDrainByte (x : Byte)
  | txGrant (x : Byte)
  | txCollision (x : Byte)
  | txUnexpected (x : Byte)
  | txDataByte (x : Byte)
  | stray (x : Byte)
  | norespByte (x : Byte)
deriving DecidableEq, Repr

/-- The classes of a BYTE_DONE (30_encoding.md R118, R119; 41_receive.md R180, R181; 43_protocol_tick.md
R267): the last ten rows of the table without their byte. -/
inductive ByteClass where
  | rxSync | rxUnexpected | rxBody | rxDrain
  | txGrant | txCollision | txUnexpected | txData
  | stray | noresp
deriving DecidableEq, Repr

/-- The table row of a byte class, for the logical byte `x`. -/
def ByteClass.instr (x : Byte) : ByteClass → Instr
  | .rxSync => .rxSync x
  | .rxUnexpected => .rxUnexpected x
  | .rxBody => .rxBodyByte x
  | .rxDrain => .rxDrainByte x
  | .txGrant => .txGrant x
  | .txCollision => .txCollision x
  | .txUnexpected => .txUnexpected x
  | .txData => .txDataByte x
  | .stray => .stray x
  | .noresp => .norespByte x

/-- Why the decoder rejects an event (20_memory.md R84). -/
inductive DecodeError where
  /-- a byte or halfword access -/
  | narrowAccess
  /-- an access at an offset that is not a multiple of 4 -/
  | misalignedAccess
deriving DecidableEq, Repr

/-- What the decoder reads from an event: an instruction, or a rejection by name. -/
inductive Decoded where
  | ok (i : Instr)
  | rejected (e : DecodeError)
deriving DecidableEq, Repr

end Sys2Proof
end

