-- ==== Sys2Proof/WellFormed.lean ====
section
/-! DEFINITION. Which terms of `Instr` are instructions of a machine with given parameters: the operand
ranges of spec/opcode_table.json, spec/20_memory.md R81 and spec/30_encoding.md R118, R119. -/

namespace Sys2Proof

/-- The registers a host write changes or acts through: CTRL, CMD and TXLEN (10_state.md R32). -/
def Reg.writable : Reg → Bool
  | .ctrl | .cmd | .txlen => true
  | _ => false

/-- The unmapped ranges of 20_memory.md R81. -/
def unmappedOffset (p : Params) (off : Offset) : Bool :=
  let n := off.toNat
  (decide (0x44 ≤ n) && decide (n < 0x80))
    || (decide (0xA0 ≤ n) && decide (n < 0x400))
    || (decide (0x400 + 4 * p.txbufSize ≤ n) && decide (n < 0x1000))
    || decide (0x1000 + 4 * p.rxbufSize ≤ n)

/-- An offset that is a multiple of 4 (20_memory.md R84). -/
def alignedOffset (off : Offset) : Bool := off.toNat % 4 == 0

/-- The host locations of a machine with parameters `p` (20_memory.md R81). -/
def HostLoc.wf (p : Params) : HostLoc → Bool
  | .reg _ => true
  | .txb i => decide (i < p.txbufSize)
  | .rxb i => decide (i < p.rxbufSize)
  | .unmapped off => alignedOffset off && unmappedOffset p off

/-- A well-formed instruction of a machine with parameters `p`. -/
def Instr.wf (p : Params) : Instr → Bool
  | .wTxb i _ => decide (i < p.txbufSize)
  | .wReadonly r _ => !r.writable
  | .wRxb i _ => decide (i < p.rxbufSize)
  | .wUnmapped off _ => alignedOffset off && unmappedOffset p off
  | .read loc => loc.wf p
  | .rxSync x => x == p.syncByte
  | .rxUnexpected x => x != p.syncByte
  | .txGrant x => x == p.ctsByte
  | .txCollision x => x == p.syncByte
  | .txUnexpected x => x != p.syncByte && x != p.ctsByte
  | .nop | .tick | .encode | .txSubmit | .rxRelease | .clrFlags | .park | .reserved7
  | .reservedHigh _ | .wCtrl _ | .wTxlen _ | .den _ | .byteDone _ | .tb | .reset
  | .rxBodyByte _ | .rxDrainByte _ | .txDataByte _ | .stray _ | .norespByte _ => true

end Sys2Proof
end

