-- ==== Sys2Proof/Decode.lean ====
section
/-! DEFINITION. The decoder of RLINK, total on every event, and the encoder after it.

First level: an event is an instruction by its kind, a host access by its offset (spec/20_memory.md R81),
a command word by OP = v[3:0] (spec/30_encoding.md R125, R126). Second level: the byte of a BYTE_DONE is
classified by the point of control (spec/30_encoding.md R118, R119; spec/41_receive.md R180). -/

namespace Sys2Proof

/-- The byte offset of a register (10_state.md R32, R55). -/
def Reg.offset : Reg → Offset
  | .ctrl => 0x000#13
  | .cmd => 0x004#13
  | .status => 0x008#13
  | .seq => 0x00C#13
  | .lasterr => 0x010#13
  | .txlen => 0x014#13
  | .txidx => 0x018#13
  | .txres => 0x01C#13
  | .rxwr => 0x020#13
  | .rxparse => 0x024#13
  | .rxrd => 0x028#13
  | .rxunread => 0x02C#13
  | .rxcnt => 0x030#13
  | .tocnt => 0x034#13
  | .txout => 0x038#13
  | .param0 => 0x03C#13
  | .param1 => 0x040#13
  | .cntRxOk => 0x080#13
  | .cntRxFail => 0x084#13
  | .cntUnexp => 0x088#13
  | .cntTimeout => 0x08C#13
  | .cntCollision => 0x090#13
  | .cntTxOk => 0x094#13
  | .cntStray => 0x098#13
  | .cntResync => 0x09C#13

/-- Every register, in the order of the map (10_state.md R32, R55). -/
def Reg.all : List Reg :=
  [.ctrl, .cmd, .status, .seq, .lasterr, .txlen, .txidx, .txres,
   .rxwr, .rxparse, .rxrd, .rxunread, .rxcnt, .tocnt, .txout, .param0, .param1,
   .cntRxOk, .cntRxFail, .cntUnexp, .cntTimeout, .cntCollision, .cntTxOk, .cntStray, .cntResync]

/-- The first byte offset of the TXB window (20_memory.md R82). -/
def txbWindow : Nat := 0x400

/-- The first byte offset of the RXB window (20_memory.md R83). -/
def rxbWindow : Nat := 0x1000

/-- What an aligned offset selects: the layout of 20_memory.md R81. -/
def locate (p : Params) (off : Offset) : HostLoc :=
  match Reg.all.find? (fun r => r.offset == off) with
  | some r => .reg r
  | none =>
    let n := off.toNat
    if txbWindow ≤ n ∧ n < txbWindow + 4 * p.txbufSize then .txb ((n - txbWindow) / 4)
    else if rxbWindow ≤ n ∧ n < rxbWindow + 4 * p.rxbufSize then .rxb ((n - rxbWindow) / 4)
    else .unmapped off

/-- The opcode field OP = v[3:0] of a command word (30_encoding.md R125). -/
def opField (v : Word) : BitVec 4 := v.extractLsb' 0 4

/-- The opcode map (30_encoding.md R126, R127). Bits 31:4 are ignored. -/
def decodeCommand (v : Word) : Instr :=
  match (opField v).toNat with
  | 0x0 => .nop
  | 0x1 => .tick
  | 0x2 => .encode
  | 0x3 => .txSubmit
  | 0x4 => .rxRelease
  | 0x5 => .clrFlags
  | 0x6 => .park
  | 0x7 => .reserved7
  | _ => .reservedHigh (v.extractLsb' 0 3)

/-- A 32-bit host write, by what its offset selects (30_encoding.md R129). -/
def decodeWrite (p : Params) (off : Offset) (v : Word) : Instr :=
  match locate p off with
  | .reg .cmd => decodeCommand v
  | .reg .ctrl => .wCtrl v
  | .reg .txlen => .wTxlen v
  | .reg r => .wReadonly r v
  | .txb i => .wTxb i v
  | .rxb i => .wRxb i v
  | .unmapped o => .wUnmapped o v

/-- Whether a host access has an outcome (20_memory.md R84); if not, why. -/
def accessError (width : AccessWidth) (off : Offset) : Option DecodeError :=
  match width with
  | .byte | .half => some .narrowAccess
  | .word => if alignedOffset off then none else some .misalignedAccess

/-- The decoder: an event of R129 to its instruction. -/
def decode (p : Params) : Event → Decoded
  | .hostWrite width off v =>
    match accessError width off with
    | some e => .rejected e
    | none => .ok (decodeWrite p off v)
  | .hostRead width off =>
    match accessError width off with
    | some e => .rejected e
    | none => .ok (.read (locate p off))
  | .den v => .ok (.den v)
  | .byteDone b => .ok (.byteDone b)
  | .tb => .ok .tb
  | .reset => .ok .reset

/-- `rev8(b)`: bit `i` of the result is bit `7 - i` of `b` (00_scope.md R11). -/
def rev8 (b : Byte) : Byte :=
  BitVec.ofBool (b.getLsbD 0) ++ BitVec.ofBool (b.getLsbD 1) ++ BitVec.ofBool (b.getLsbD 2)
    ++ BitVec.ofBool (b.getLsbD 3) ++ BitVec.ofBool (b.getLsbD 4) ++ BitVec.ofBool (b.getLsbD 5)
    ++ BitVec.ofBool (b.getLsbD 6) ++ BitVec.ofBool (b.getLsbD 7)

/-- `wire(b)`, the bit order at the byte port (20_memory.md R89). -/
def wireByte (lsbFirst : Bool) (b : Byte) : Byte := if lsbFirst then rev8 b else b

/-- The class of the logical byte `x` of a BYTE_DONE in state `q` (30_encoding.md R118, R119; 41_receive.md
R180, R181; 42_transmit_collision.md R226; 43_protocol_tick.md R267). `none` are the combinations marked
"—" in R270: REQ_OUT = 1 in a phase that requests no byte. -/
def classifyByte (p : Params) (q : SeqState) (reqOut : Bool) (x : Byte) : Option ByteClass :=
  match q, reqOut with
  | .noResponse, _ => some .noresp
  | _, false => some .stray
  | .receiving .rxFirst, true => some (if x = p.syncByte then .rxSync else .rxUnexpected)
  | .receiving .rxBody, true => some .rxBody
  | .receiving .rxDrain, true => some .rxDrain
  | .transmitting .txWaitCts, true =>
    some (if x = p.ctsByte then .txGrant else if x = p.syncByte then .txCollision else .txUnexpected)
  | .transmitting .txData, true => some .txData
  | .transmitting .txWaitDen, true => none
  | .transmitting .txWaitDenLow, true => none
  | .idle, true => none
  | .aborting, true => none

/-- A host bus address inside the block selects an offset (20_memory.md R80: BASE is 8 KiB aligned). The spec gives
a host bus address no width: 32 bits, so that bits 31:13 select the block, is a DESIGN CHOICE (log 18). -/
def busOffset (p : Params) (addr : Word) : Option Offset :=
  if addr.extractLsb' 13 19 = p.base.extractLsb' 13 19 then some (addr.setWidth 13) else none

/-! ## The encoder -/

/-- The command word of an opcode, ignored bits 31:4 zero (30_encoding.md R125). -/
def commandWord (op : BitVec 4) : Event := .hostWrite .word Reg.cmd.offset (op.setWidth 32)

/-- The byte offset of a host location (20_memory.md R81, R82, R83). -/
def HostLoc.offset : HostLoc → Offset
  | .reg r => r.offset
  | .txb i => BitVec.ofNat 13 (txbWindow + 4 * i)
  | .rxb i => BitVec.ofNat 13 (rxbWindow + 4 * i)
  | .unmapped off => off

/-- The event that carries an instruction. The byte classes are carried by a BYTE_DONE of their logical
byte (bit order MSB first, 20_memory.md R89). -/
def encode : Instr → Event
  | .nop => commandWord 0x0#4
  | .tick => commandWord 0x1#4
  | .encode => commandWord 0x2#4
  | .txSubmit => commandWord 0x3#4
  | .rxRelease => commandWord 0x4#4
  | .clrFlags => commandWord 0x5#4
  | .park => commandWord 0x6#4
  | .reserved7 => commandWord 0x7#4
  | .reservedHigh low => commandWord (1#1 ++ low)
  | .wCtrl v => .hostWrite .word Reg.ctrl.offset v
  | .wTxlen v => .hostWrite .word Reg.txlen.offset v
  | .wTxb i v => .hostWrite .word (HostLoc.txb i).offset v
  | .wReadonly r v => .hostWrite .word r.offset v
  | .wRxb i v => .hostWrite .word (HostLoc.rxb i).offset v
  | .wUnmapped off v => .hostWrite .word off v
  | .read loc => .hostRead .word loc.offset
  | .den v => .den v
  | .byteDone b => .byteDone b
  | .tb => .tb
  | .reset => .reset
  | .rxSync x | .rxUnexpected x | .rxBodyByte x | .rxDrainByte x | .txGrant x | .txCollision x
  | .txUnexpected x | .txDataByte x | .stray x | .norespByte x => .byteDone x

/-- The point of control and REQ_OUT at which a byte-class row of the table applies ("applies_to" of
spec/opcode_table.json); for STRAY one of its states. `none` for every other row. -/
def byteContext : Instr → Option (SeqState × Bool)
  | .rxSync _ | .rxUnexpected _ => some (.receiving .rxFirst, true)
  | .rxBodyByte _ => some (.receiving .rxBody, true)
  | .rxDrainByte _ => some (.receiving .rxDrain, true)
  | .txGrant _ | .txCollision _ | .txUnexpected _ => some (.transmitting .txWaitCts, true)
  | .txDataByte _ => some (.transmitting .txData, true)
  | .stray _ => some (.idle, false)
  | .norespByte _ => some (.noResponse, false)
  | .nop | .tick | .encode | .txSubmit | .rxRelease | .clrFlags | .park | .reserved7
  | .reservedHigh _ | .wCtrl _ | .wTxlen _ | .wTxb _ _ | .wReadonly _ _ | .wRxb _ _
  | .wUnmapped _ _ | .read _ | .den _ | .byteDone _ | .tb | .reset => none

/-! ## The table's words -/

/-- Whether an opcode-table word is a command word (log 13): 32 bits, or 8 bits of which only OP may be set,
the bits the instruction has above them being 0. -/
def tableCommand (nbits w : Nat) : Bool := nbits == 32 || (nbits == 8 && decide (w < 16))

/-- The event an opcode-table word of `nbits` bits stands for (log 13): a command word, the word written to
CMD; 16 bits, the byte offset of a HOST_WRITE of 0 (the table's match and mask 0x1FFF apply to the offset);
any other 8 bits, the byte of a BYTE_DONE. No other row has bits in the table. -/
def tableEvent (nbits w : Nat) : Option Event :=
  if tableCommand nbits w then some (.hostWrite .word Reg.cmd.offset (BitVec.ofNat 32 w))
  else if nbits = 16 then some (.hostWrite .word (BitVec.ofNat 13 w) 0#32)
  else if nbits = 8 then some (.byteDone (BitVec.ofNat 8 w))
  else none

/-- The point of control a BYTE_DONE of the table applies at: the one row of a byte whose bits the table
gives is NORESP_BYTE, "BYTE_DONE in NO_RESPONSE" (log 13). -/
def tableState : SeqState := .noResponse

/-- The instruction the decoder reads from an opcode-table word: the first level, and for a BYTE_DONE
the second. -/
def decodeTableWord (nbits w : Nat) : Option Instr :=
  match tableEvent nbits w with
  | none => none
  | some (.byteDone b) =>
    match classifyByte Config.tc tableState false b with
    | some c => some (c.instr b)
    | none => none
  | some e =>
    match decode Config.tc e with
    | .ok i => some i
    | .rejected _ => none

end Sys2Proof
end

