-- ==== Sys2Proof/Machine/State.lean ====
section
/-! DEFINITION. The state of RLINK as plain data (spec/10_state.md), its value after reset
(spec/70_reset_and_hazards.md R350 to R353), and the reasons a step can stop. -/

namespace Sys2Proof.Machine

/-- The wire-level error codes of LASTERR (60_exceptions.md R310); codes 9..15 are never written. -/
inductive ErrCode where
  | none | unexpectedByte | lengthMismatch | checksumMismatch | rxOverflow
  | rxTimeout | txTimeout | txUnexpected | txLinkDrop
deriving DecidableEq, Repr

/-- The values of TXRES (10_state.md R45); 7 is never taken. -/
inductive TxRes where
  | none | pending | busy | complete | retry | timeout | error
deriving DecidableEq, Repr

/-- The transient bits STATUS[10:2] (10_state.md R35, R36). -/
structure Flags where
  txdone : Bool
  lenerr : Bool
  ckerr : Bool
  unexp : Bool
  tmo : Bool
  coll : Bool
  rxovf : Bool
  cmderr : Bool
  linkdrop : Bool
deriving DecidableEq, Repr

/-- The eight diagnostic counters (10_state.md R55). -/
structure Counters where
  rxOk : BitVec 32
  rxFail : BitVec 32
  unexp : BitVec 32
  timeout : BitVec 32
  collision : BitVec 32
  txOk : BitVec 32
  stray : BitVec 32
  resync : BitVec 32
deriving DecidableEq, Repr

/-- The wire events of the output trace (10_state.md R57). -/
inductive WireEvent where
  /-- the HRDY level changes to `v` -/
  | hrdy (v : Bool)
  /-- one DRDY pulse -/
  | pulse
  /-- a byte transfer: the wire value shifted out and the wire value shifted in -/
  | xfer (out inn : Byte)
  /-- the lines are floated -/
  | float
deriving DecidableEq, Repr

/-- A buffer's cells written since RESET, as (index, byte) pairs, indices strictly rising. An index that
is not listed holds the byte drawn at the last RESET (R352, log 6). -/
abbrev Memory := List Host.Cell

/-- The state of RLINK. -/
structure State where
  /-- the parameters; PARAM0 and PARAM1 read them (R53, R54); no step changes them -/
  cfg : Params
  /-- CTRL.LSBFIRST (R33) -/
  lsbFirst : Bool
  /-- STATUS[10:2] (R35) -/
  flags : Flags
  /-- STATUS.TXREQ (R38) -/
  txreq : Bool
  /-- SEQ.STATE and SEQ.PHASE (R39 to R41) -/
  seq : SeqState
  /-- SEQ.REQ_OUT (R58) -/
  reqOut : Bool
  /-- SEQ.LINES_FLOAT (R56) -/
  linesFloat : Bool
  /-- SEQ.DEN, the level of the device-enable input (R39, R351) -/
  den : Bool
  /-- SEQ.HRDY, the level of the host-ready output (R39, R56) -/
  hrdy : Bool
  /-- SEQ.OVF_CUR (R39) -/
  ovfCur : Bool
  /-- LASTERR.CODE (R42) -/
  lasterr : ErrCode
  /-- TXLEN (R43) -/
  txlen : BitVec 9
  /-- TXIDX (R44) -/
  txidx : BitVec 9
  /-- TXRES (R45) -/
  txres : TxRes
  /-- RXWR, the next-write cursor (R46) -/
  rxwr : BitVec 10
  /-- RXPARSE, the current-parse cursor (R47) -/
  rxparse : BitVec 10
  /-- RXRD, the next-unread cursor (R48) -/
  rxrd : BitVec 10
  /-- RXUNREAD (R49) -/
  rxunread : BitVec 10
  /-- RXCNT (R50) -/
  rxcnt : BitVec 16
  /-- TOCNT (R51) -/
  tocnt : BitVec 16
  /-- TXOUT (R52) -/
  txout : Byte
  /-- the diagnostic counters (R55) -/
  cnt : Counters
  /-- TXB (R59) -/
  txb : Memory
  /-- RXB (R59) -/
  rxb : Memory
  /-- the output trace, oldest event first (R57) -/
  trace : List WireEvent
  /-- THE MODEL'S OWN (log 3): the agents' pending events, oldest first (R13, R14) -/
  inbox : List Event
  /-- THE MODEL'S OWN (log 5): the value the last HOST_READ returned (R85) -/
  rdata : Word
  /-- THE MODEL'S OWN (log 6): the number of RESETs handled, which the free bytes are applied to -/
  epoch : Nat
deriving DecidableEq, Repr

/-- The faults of RLINK: none. "Every input event, in every state, has exactly one outcome given by a rule,
and no event is refused by the block" (00_scope.md R15, log 20). Nothing raises a fault, which is safe. -/
inductive Fault where
deriving DecidableEq, Repr

/-- The refusals of a step. -/
inductive Refusal where
  /-- raised by `exec` for an instruction without a meaning yet; safe. No arm raises it. -/
  | notModelled (mnemonic : String)
  /-- raised by `step` for a byte or halfword access (20_memory.md R84: "A model refuses it"); safe -/
  | narrowAccess
  /-- raised by `step` for an access at an offset that is not a multiple of 4 (R84); safe -/
  | misalignedAccess
  /-- raised by `step` on a configuration outside R7's ranges or with `CTS_BYTE = SYNC_BYTE`
  (00_scope.md R8: "A configuration that violates it is refused"); safe -/
  | illegalConfig
deriving DecidableEq, Repr

/-- What a meaning answers. -/
abbrev Outcome := Host.Outcome State Fault Refusal

/-- No transient flag set. -/
def Flags.clear : Flags :=
  { txdone := false, lenerr := false, ckerr := false, unexp := false, tmo := false, coll := false,
    rxovf := false, cmderr := false, linkdrop := false }

/-- Every counter 0. -/
def Counters.zero : Counters :=
  { rxOk := 0#32, rxFail := 0#32, unexp := 0#32, timeout := 0#32, collision := 0#32, txOk := 0#32,
    stray := 0#32, resync := 0#32 }

/-- The machine after power-on with parameters `p` and the device-enable level `denInit`
(70_reset_and_hazards.md R350, R351, R353). -/
def State.powerOn (p : Params) (denInit : Bool) : State :=
  { cfg := p
    lsbFirst := false
    flags := Flags.clear
    txreq := false
    seq := .idle
    reqOut := false
    linesFloat := false
    den := denInit
    hrdy := false
    ovfCur := false
    lasterr := .none
    txlen := 0#9
    txidx := 0#9
    txres := .none
    rxwr := 0#10
    rxparse := 0#10
    rxrd := 0#10
    rxunread := 0#10
    rxcnt := 0#16
    tocnt := 0#16
    txout := 0#8
    cnt := Counters.zero
    txb := []
    rxb := []
    trace := []
    inbox := []
    rdata := 0#32
    epoch := 0 }

/-- The machine right after reset: R350's values, DEN low (R32: SEQ reads 0x00000000; log 2), in the test
configuration (R9; log 1). -/
def State.reset : State := State.powerOn Config.tc false

end Sys2Proof.Machine
end

