-- ==== Sys2Proof/Machine/Memory.lean ====
section
/-! DEFINITION. The byte arrays TXB and RXB (spec/10_state.md R59): cells by index, in one canonical form,
and the bytes the spec leaves unspecified (spec/70_reset_and_hazards.md R352). -/

namespace Sys2Proof.Machine

/-- The byte listed for index `i`, if a write since RESET left one. -/
def Memory.get (m : Memory) (i : Nat) : Option Byte :=
  match m with
  | [] => none
  | (j, b) :: rest => if j = i then some b else Memory.get rest i

/-- Write cell `i`, keeping the indices strictly rising. -/
def Memory.put (m : Memory) (i : Nat) (b : Byte) : Memory :=
  match m with
  | [] => [(i, b)]
  | (j, c) :: rest =>
    if i < j then (i, b) :: (j, c) :: rest
    else if i = j then (i, b) :: rest
    else (j, c) :: Memory.put rest i b

/-- The canonical form: indices strictly rising. An unlisted index lists no byte, so no entry can equal
what an unlisted index reads as (log 6). -/
def Memory.wf (m : Memory) : Bool :=
  match m with
  | [] => true
  | [_] => true
  | (i, _) :: (j, c) :: rest => decide (i < j) && Memory.wf ((j, c) :: rest)

/-- `TXB[i]`: the byte last written, or the byte drawn at the last RESET (R59, R352). -/
def State.txbByte (s : State) (i : Nat) : Byte :=
  (Memory.get s.txb i).getD (Config.txbUnspecified s.epoch i)

/-- `RXB[i]`: the byte last written, or the byte drawn at the last RESET (R59, R352). -/
def State.rxbByte (s : State) (i : Nat) : Byte :=
  (Memory.get s.rxb i).getD (Config.rxbUnspecified s.epoch i)

/-- `TXB[i] <- b`. -/
def State.setTxb (i : Nat) (b : Byte) (s : State) : State := { s with txb := Memory.put s.txb i b }

/-- `RXB[i] <- b`. -/
def State.setRxb (i : Nat) (b : Byte) (s : State) : State := { s with rxb := Memory.put s.rxb i b }

end Sys2Proof.Machine
end

