-- ==== Sys2Proof/Machine/Flags.lean ====
section
/-! DEFINITION. Flags, codes and counters: STATUS and SEQ as words (spec/10_state.md R35 to R41), LASTERR and
TXRES codes (spec/60_exceptions.md R310; spec/10_state.md R45), `set_flag` (spec/00_scope.md R11). -/

namespace Sys2Proof.Machine

/-- The transient bits of STATUS by name (10_state.md R35). -/
inductive Flag where
  | txdone | lenerr | ckerr | unexp | tmo | coll | rxovf | cmderr | linkdrop
deriving DecidableEq, Repr

/-- The bit `F` of the transient flags. -/
def Flags.test (fl : Flags) : Flag → Bool
  | .txdone => fl.txdone
  | .lenerr => fl.lenerr
  | .ckerr => fl.ckerr
  | .unexp => fl.unexp
  | .tmo => fl.tmo
  | .coll => fl.coll
  | .rxovf => fl.rxovf
  | .cmderr => fl.cmderr
  | .linkdrop => fl.linkdrop

/-- Set the bit `F` if `b`, else leave it. -/
def Flags.raiseIf (b : Bool) (f : Flag) (fl : Flags) : Flags :=
  match f with
  | .txdone => { fl with txdone := fl.txdone || b }
  | .lenerr => { fl with lenerr := fl.lenerr || b }
  | .ckerr => { fl with ckerr := fl.ckerr || b }
  | .unexp => { fl with unexp := fl.unexp || b }
  | .tmo => { fl with tmo := fl.tmo || b }
  | .coll => { fl with coll := fl.coll || b }
  | .rxovf => { fl with rxovf := fl.rxovf || b }
  | .cmderr => { fl with cmderr := fl.cmderr || b }
  | .linkdrop => { fl with linkdrop := fl.linkdrop || b }

/-- `set_flag(F)` where a rule does so under the condition `b` (00_scope.md R11). -/
def State.setFlagIf (b : Bool) (f : Flag) (s : State) : State :=
  { s with flags := s.flags.raiseIf b f }

/-- `set_flag(F)`: set STATUS bit `F` to 1 (00_scope.md R11). -/
def State.setFlag (f : Flag) (s : State) : State := s.setFlagIf true f

/-- One bit of a register word. -/
def bitAt (b : Bool) (k : Nat) : Word := (BitVec.ofBool b).setWidth 32 <<< k

/-- STATUS (10_state.md R35). RXV is not stored: it reads 1 exactly when RXUNREAD is not 0 (R37). -/
def State.statusWord (s : State) : Word :=
  bitAt (s.rxunread != 0#10) 0 ||| bitAt s.txreq 1 ||| bitAt s.flags.txdone 2
    ||| bitAt s.flags.lenerr 3 ||| bitAt s.flags.ckerr 4 ||| bitAt s.flags.unexp 5
    ||| bitAt s.flags.tmo 6 ||| bitAt s.flags.coll 7 ||| bitAt s.flags.rxovf 8
    ||| bitAt s.flags.cmderr 9 ||| bitAt s.flags.linkdrop 10

end Sys2Proof.Machine

namespace Sys2Proof

/-- `SEQ.STATE` (10_state.md R40). -/
def SeqState.stateCode : SeqState → BitVec 3
  | .idle => 0#3
  | .receiving _ => 1#3
  | .transmitting _ => 2#3
  | .aborting => 3#3
  | .noResponse => 4#3

/-- `SEQ.PHASE` (10_state.md R41). -/
def SeqState.phaseCode : SeqState → BitVec 3
  | .receiving .rxFirst => 0#3
  | .receiving .rxBody => 1#3
  | .receiving .rxDrain => 2#3
  | .transmitting .txWaitDen => 0#3
  | .transmitting .txWaitCts => 1#3
  | .transmitting .txData => 2#3
  | .transmitting .txWaitDenLow => 3#3
  | .idle => 0#3
  | .aborting => 0#3
  | .noResponse => 0#3

/-- `SEQ.STATE = RECEIVING`. -/
def SeqState.isReceiving : SeqState → Bool
  | .receiving _ => true
  | .idle | .transmitting _ | .aborting | .noResponse => false

/-- `SEQ.STATE = TRANSMITTING`. -/
def SeqState.isTransmitting : SeqState → Bool
  | .transmitting _ => true
  | .idle | .receiving _ | .aborting | .noResponse => false

end Sys2Proof

namespace Sys2Proof.Machine

/-- SEQ (10_state.md R39). HRDY reads as 0 while the lines are floated (R56). -/
def State.seqWord (s : State) : Word :=
  s.seq.stateCode.setWidth 32 ||| (s.seq.phaseCode.setWidth 32 <<< 4) ||| bitAt s.reqOut 8
    ||| bitAt s.linesFloat 9 ||| bitAt s.den 10 ||| bitAt (s.hrdy && !s.linesFloat) 11
    ||| bitAt s.ovfCur 12

/-- `LASTERR.CODE` (60_exceptions.md R310). -/
def ErrCode.code : ErrCode → BitVec 4
  | .none => 0#4
  | .unexpectedByte => 1#4
  | .lengthMismatch => 2#4
  | .checksumMismatch => 3#4
  | .rxOverflow => 4#4
  | .rxTimeout => 5#4
  | .txTimeout => 6#4
  | .txUnexpected => 7#4
  | .txLinkDrop => 8#4

/-- `TXRES.RES` (10_state.md R45). -/
def TxRes.code : TxRes → BitVec 3
  | .none => 0#3
  | .pending => 1#3
  | .busy => 2#3
  | .complete => 3#3
  | .retry => 4#3
  | .timeout => 5#3
  | .error => 6#3

/-- A transmit is pending or in progress: TXRES in PENDING, BUSY (10_state.md R38). -/
def TxRes.isOpen : TxRes → Bool
  | .pending | .busy => true
  | .none | .complete | .retry | .timeout | .error => false

end Sys2Proof.Machine
end

