-- ==== Sys2Proof/Machine/Codec.lean ====
section
/-! DEFINITION. The frame codec's pure functions (spec/40_codec.md R150 to R153) and the ring arithmetic they
read frames by (spec/20_memory.md R91, R93). -/

namespace Sys2Proof.Machine

/-- `(a + k) mod N` on a ring index (20_memory.md R91). -/
def ringAdd (n a k : Nat) : Nat := (a + k) % n

/-- `(a - b) mod N` on ring indices (20_memory.md R91). -/
def ringDist (n b a : Nat) : Nat := (a + (n - b % n)) % n

/-- The cursor `(c + k) mod N`. -/
def State.advance (s : State) (c : BitVec 10) (k : Nat) : BitVec 10 :=
  BitVec.ofNat 10 (ringAdd s.cfg.rxbufSize c.toNat k)

/-- `occ = (RXWR - RXRD) mod N`, the bytes held (R91). -/
def State.occ (s : State) : Nat := ringDist s.cfg.rxbufSize s.rxrd.toNat s.rxwr.toNat

/-- The ring is full when `occ = N - 1` (R91). -/
def State.ringFull (s : State) : Bool := s.occ == s.cfg.rxbufSize - 1

/-- `FB(k, i) = RXB[(k + i) mod N]` (R93). -/
def State.frameByte (s : State) (k i : Nat) : Byte := s.rxbByte (ringAdd s.cfg.rxbufSize k i)

/-- The bytes `FB(k, 0), ..., FB(k, n-1)`. -/
def State.frameBytes (s : State) (k n : Nat) : List Byte := (List.range n).map (s.frameByte k)

/-- `CKSUM`, the XOR fold from 0x00 (40_codec.md R150). -/
def cksum (bs : List Byte) : Byte := bs.foldl (fun acc x => acc ^^^ x) 0#8

/-- The verdicts of VALIDATE (40_codec.md R152). -/
inductive Verdict where
  | ok | errOverflow | errLength | errChecksum
deriving DecidableEq, Repr

/-- What VALIDATE returns: a verdict and two flags (40_codec.md R152). -/
structure Judgement where
  verdict : Verdict
  lenBad : Bool
  ckBad : Bool
deriving DecidableEq, Repr

/-- The expected frame size `L + 3`, without wrap, `L` the byte at index 1 (30_encoding.md R111, R130). -/
def State.frameSize (s : State) (k : Nat) : Nat := (s.frameByte k 1).toNat + 3

/-- `VALIDATE(k, n, ovf)` (40_codec.md R152, R153). -/
def State.validate (s : State) (k n : Nat) (ovf : Bool) : Judgement :=
  if ovf then { verdict := .errOverflow, lenBad := false, ckBad := false }
  else if n < 2 then { verdict := .errLength, lenBad := true, ckBad := false }
  else
    let lenBad := n != s.frameSize k
    let ckBad := cksum (s.frameBytes k (n - 1)) != s.frameByte k (n - 1)
    { verdict := if lenBad then .errLength else if ckBad then .errChecksum else .ok
      lenBad := lenBad
      ckBad := ckBad }

/-- The LASTERR code of a verdict (60_exceptions.md R310). -/
def Verdict.errCode : Verdict → ErrCode
  | .ok => .none
  | .errOverflow => .rxOverflow
  | .errLength => .lengthMismatch
  | .errChecksum => .checksumMismatch

end Sys2Proof.Machine
end

