-- ==== Sys2Proof/Machine/Ops.lean ====
section
/-! DEFINITION. The named operations the rules share (spec/00_scope.md R11): the link port (spec/10_state.md R56
to R58), the ring (spec/20_memory.md R92), ABORT and RESYNC with the return from an abort
(spec/60_exceptions.md R320 to R324), and the ends of a transfer. Each is one record update. -/

namespace Sys2Proof.Machine

/-! ## The link port -/

/-- `emit(e)`: append to the output trace (10_state.md R57). -/
def State.emit (e : WireEvent) (s : State) : State := { s with trace := s.trace ++ [e] }

/-- `HRDY <- v`; a change of the level emits `HRDY(v)` (10_state.md R57). -/
def State.setHrdy (v : Bool) (s : State) : State :=
  { s with hrdy := v, trace := if s.hrdy = v then s.trace else s.trace ++ [.hrdy v] }

/-- `pulse_DRDY()`: one PULSE on the trace, none while the lines are floated (10_state.md R56). -/
def State.pulseDrdy (s : State) : State :=
  { s with trace := if s.linesFloat then s.trace else s.trace ++ [.pulse] }

/-- `pulse_DRDY(); REQ_OUT <- 1`: request one byte transfer (10_state.md R58). -/
def State.requestByte (s : State) : State := { s.pulseDrdy with reqOut := true }

/-- `goto S/P` (00_scope.md R11). -/
def State.goto (q : SeqState) (s : State) : State := { s with seq := q }

/-- `wire(b)` under the current bit order (20_memory.md R89). -/
def State.wire (s : State) (b : Byte) : Byte := wireByte s.lsbFirst b

/-! ## Counters -/

/-- `sat16(v + 1)` (00_scope.md R11; 10_state.md R50). -/
def sat16Succ (v : BitVec 16) : BitVec 16 := if v = 0xFFFF#16 then v else v + 1#16

/-- `RXCNT <- sat16(RXCNT + 1)`. -/
def State.countRxByte (s : State) : State := { s with rxcnt := sat16Succ s.rxcnt }

/-! ## The ring -/

/-- `RING_PUT(x)` (20_memory.md R92): a full ring drops the byte, which is still counted. -/
def State.ringPut (x : Byte) (s : State) : State :=
  { s with
    ovfCur := s.ovfCur || s.ringFull
    flags := s.flags.raiseIf s.ringFull .rxovf
    rxb := if s.ringFull then s.rxb else Memory.put s.rxb s.rxwr.toNat x
    rxwr := if s.ringFull then s.rxwr else s.advance s.rxwr 1
    rxcnt := sat16Succ s.rxcnt }

/-- `RESYNC()` (60_exceptions.md R322). -/
def State.resync (s : State) : State :=
  { s with
    rxparse := s.rxwr
    rxrd := s.rxwr
    rxunread := 0#10
    cnt := { s.cnt with resync := s.cnt.resync + 1#32 } }

/-! ## The end of a transmit -/

/-- `TXREQ <- 0; TXRES <- r; set_flag(TXDONE)` (10_state.md R35, R38). -/
def State.endTransmit (r : TxRes) (s : State) : State :=
  { s with txreq := false, txres := r, flags := s.flags.raiseIf true .txdone }

/-! ## Taking an abort, and the return from it -/

/-- The causes of an abort (60_exceptions.md R320). -/
inductive Cause where
  | rxTimeout | txTimeout | txLinkDrop
deriving DecidableEq, Repr

/-- The STATUS flag of a cause (60_exceptions.md R321). -/
def Cause.flag : Cause → Flag
  | .rxTimeout => .tmo
  | .txTimeout => .tmo
  | .txLinkDrop => .linkdrop

/-- The LASTERR code of a cause (60_exceptions.md R321). -/
def Cause.errCode : Cause → ErrCode
  | .rxTimeout => .rxTimeout
  | .txTimeout => .txTimeout
  | .txLinkDrop => .txLinkDrop

/-- The counters of a cause (60_exceptions.md R321). -/
def Cause.count (c : Cause) (n : Counters) : Counters :=
  match c with
  | .rxTimeout => { n with timeout := n.timeout + 1#32, rxFail := n.rxFail + 1#32 }
  | .txTimeout => { n with timeout := n.timeout + 1#32 }
  | .txLinkDrop => n

/-- The result an abort gives to a transmit in progress (60_exceptions.md R320). -/
def Cause.txResult : Cause → TxRes
  | .txTimeout => .timeout
  | .rxTimeout => .error
  | .txLinkDrop => .error

/-- `HRDY <- 0; REQ_OUT <- 0; TXOUT <- 0x00; TOCNT <- 0`: "clears in-flight flags" (R320; R266). -/
def State.clearInFlight (s : State) : State :=
  { s.setHrdy false with reqOut := false, txout := 0#8, tocnt := 0#16 }

/-- The part of ABORT that ends a transmit in progress, that is while TXRES = BUSY (R320). -/
def State.abortTransmit (c : Cause) (s : State) : State :=
  { s with
    txreq := s.txreq && s.txres != .busy
    txres := if s.txres = .busy then c.txResult else s.txres
    flags := s.flags.raiseIf (s.txres == .busy) .txdone }

/-- `CAUSE_EFFECTS(cause)` (60_exceptions.md R321). -/
def State.causeEffects (c : Cause) (s : State) : State :=
  { s with flags := s.flags.raiseIf true c.flag, lasterr := c.errCode, cnt := c.count s.cnt }

/-- `ABORT(cause)`, the trap entry (60_exceptions.md R320). -/
def State.abort (c : Cause) (s : State) : State :=
  ((((s.clearInFlight).abortTransmit c).causeEffects c).resync).goto .aborting

/-- The return from an abort: the TICK in ABORTING goes to IDLE, and nothing saved is restored
(60_exceptions.md R324; 43_protocol_tick.md R264). -/
def State.abortReturn (s : State) : State := s.goto .idle

/-! ## Starting a transfer -/

/-- `RXCNT <- 0; OVF_CUR <- 0; TOCNT <- 0`: a new reception starts (43_protocol_tick.md R261). -/
def State.beginReception (s : State) : State :=
  { s with rxcnt := 0#16, ovfCur := false, tocnt := 0#16 }

/-- `START_RX()` (43_protocol_tick.md R261). -/
def State.startRx (s : State) : State :=
  ((s.goto (.receiving .rxFirst)).beginReception).requestByte

/-- `START_TX()` (43_protocol_tick.md R262). -/
def State.startTx (s : State) : State :=
  { (s.goto (.transmitting .txWaitDen)).setHrdy true with
    txres := .busy, txidx := 0#9, txout := 0#8, tocnt := 0#16 }

/-! ## The end of a reception -/

/-- `ACCEPT_FRAME()` (41_receive.md R190). -/
def State.acceptFrame (s : State) : State :=
  { s with
    rxunread := s.rxunread + 1#10
    rxparse := s.rxwr
    cnt := { s.cnt with rxOk := s.cnt.rxOk + 1#32 } }

/-- `REJECT_FRAME(verdict, lenBad, ckBad)` (41_receive.md R191). -/
def State.rejectFrame (j : Judgement) (s : State) : State :=
  State.resync
    { s with
      flags := (s.flags.raiseIf j.lenBad .lenerr).raiseIf j.ckBad .ckerr
      lasterr := j.verdict.errCode
      cnt := { s.cnt with rxFail := s.cnt.rxFail + 1#32 } }

/-- The verdict on the reception in progress: `VALIDATE(RXPARSE, RXCNT, OVF_CUR)` (41_receive.md R189). -/
def State.judge (s : State) : Judgement := s.validate s.rxparse.toNat s.rxcnt.toNat s.ovfCur

/-- `FINISH_RX()` (41_receive.md R189). -/
def State.finishRx (s : State) : State :=
  State.goto .idle
    (if s.judge.verdict = .ok
      then State.acceptFrame { s with reqOut := false, tocnt := 0#16 }
      else State.rejectFrame s.judge { s with reqOut := false, tocnt := 0#16 })

/-- `FINISH_DRAIN()` (41_receive.md R192). -/
def State.finishDrain (s : State) : State :=
  State.goto .idle
    (State.resync
      { s with
        reqOut := false
        tocnt := 0#16
        cnt := { s.cnt with rxFail := s.cnt.rxFail + 1#32 } })

end Sys2Proof.Machine
end

