-- ==== Sys2Proof/Machine/Operands.lean ====
section
/-! DEFINITION. Operand forms: what a host read of each location returns (spec/10_state.md R32 to R55;
spec/20_memory.md R82, R83, R85, R86), and the quantities RLINK assembles (spec/30_encoding.md R130). -/

namespace Sys2Proof.Machine

/-- PARAM0: SYNC_BYTE, CTS_BYTE, MAX_LENGTH (10_state.md R53). -/
def param0Word (p : Params) : Word :=
  p.syncByte.setWidth 32 ||| (p.ctsByte.setWidth 32 <<< 8)
    ||| ((BitVec.ofNat 8 p.maxLength).setWidth 32 <<< 16)

/-- PARAM1: RXBUF_SIZE, T_WAIT (10_state.md R54). -/
def param1Word (p : Params) : Word :=
  (BitVec.ofNat 16 p.rxbufSize).setWidth 32 ||| ((BitVec.ofNat 16 p.tWait).setWidth 32 <<< 16)

/-- The value of a register on a host read; reserved bits read 0 (10_state.md R32). -/
def State.regWord (s : State) : Reg → Word
  | .ctrl => bitAt s.lsbFirst 0
  | .cmd => 0#32
  | .status => s.statusWord
  | .seq => s.seqWord
  | .lasterr => s.lasterr.code.setWidth 32
  | .txlen => s.txlen.setWidth 32
  | .txidx => s.txidx.setWidth 32
  | .txres => s.txres.code.setWidth 32
  | .rxwr => s.rxwr.setWidth 32
  | .rxparse => s.rxparse.setWidth 32
  | .rxrd => s.rxrd.setWidth 32
  | .rxunread => s.rxunread.setWidth 32
  | .rxcnt => s.rxcnt.setWidth 32
  | .tocnt => s.tocnt.setWidth 32
  | .txout => s.txout.setWidth 32
  | .param0 => param0Word s.cfg
  | .param1 => param1Word s.cfg
  | .cntRxOk => s.cnt.rxOk
  | .cntRxFail => s.cnt.rxFail
  | .cntUnexp => s.cnt.unexp
  | .cntTimeout => s.cnt.timeout
  | .cntCollision => s.cnt.collision
  | .cntTxOk => s.cnt.txOk
  | .cntStray => s.cnt.stray
  | .cntResync => s.cnt.resync

/-- The value of a host location on a host read (20_memory.md R82, R83, R86). -/
def State.locWord (s : State) : HostLoc → Word
  | .reg r => s.regWord r
  | .txb i => (s.txbByte i).setWidth 32
  | .rxb i => (s.rxbByte i).setWidth 32
  | .unmapped _ => 0#32

/-- The byte `v[7:0]` of a TXB write (20_memory.md R82). -/
def byteField (v : Word) : Byte := v.extractLsb' 0 8

/-- The field `v[8:0]` of a TXLEN write (44_host_commands.md R290). -/
def lenField (v : Word) : BitVec 9 := v.extractLsb' 0 9

/-- The bit `v[0]` of a CTRL write (44_host_commands.md R291). -/
def lsbField (v : Word) : Bool := v.getLsbD 0

/-- `L = TXB[1]`, the LENGTH operand of ENCODE (40_codec.md R160). -/
def State.encodeLen (s : State) : Nat := (s.txbByte 1).toNat

/-- The release step `RXB[(RXRD + 1) mod N] + 3` of RX_RELEASE (44_host_commands.md R282). -/
def State.releaseStep (s : State) : Nat := s.frameSize s.rxrd.toNat

end Sys2Proof.Machine
end

