-- ==== Sys2Proof/Machine/Command.lean ====
section
/-! DEFINITION. The commands: spec/44_host_commands.md R280 to R287, spec/43_protocol_tick.md R260 to R267,
spec/40_codec.md R160. -/

namespace Sys2Proof.Machine

/-- NOP (R284). -/
def execNop (s : State) : Outcome := .next s

/-- TICK (R260 to R264): run one state of the protocol state machine. -/
def execTick (s : State) : Outcome :=
  .next <|
    match s.seq with
    | .idle => if s.den then s.startRx else if s.txreq then s.startTx else s
    | .receiving _ => s
    | .transmitting _ => s
    | .aborting => s.abortReturn
    | .noResponse => s

/-- `TXB[0] <- SYNC_BYTE; TXB[L+2] <- CKSUM([TXB[0], ..., TXB[L+1]]); TXLEN <- L + 3`, the checksum over
the new `TXB[0]` (R160). -/
def State.buildFrame (len : Nat) (s : State) : State :=
  let s1 := s.setTxb 0 s.cfg.syncByte
  { s1.setTxb (len + 2) (cksum ((List.range (len + 2)).map s1.txbByte)) with
    txlen := BitVec.ofNat 9 (len + 3) }

/-- ENCODE (R160). -/
def execEncode (s : State) : Outcome :=
  .next <|
    if s.txreq || s.seq == .noResponse then s.setFlag .cmderr
    else if s.cfg.maxLength < s.encodeLen then s.setFlag .cmderr
    else s.buildFrame s.encodeLen

/-- TX_SUBMIT (R280). -/
def execTxSubmit (s : State) : Outcome :=
  .next <|
    if s.seq == .noResponse || s.txreq || decide (s.txlen.toNat < 3) then s.setFlag .cmderr
    else { s with txreq := true, txres := .pending, flags := { s.flags with txdone := false } }

/-- RX_RELEASE (R282): cursor advance and count decrement, one atomic step. -/
def execRxRelease (s : State) : Outcome :=
  .next <|
    if s.rxunread = 0#10 then s.setFlag .cmderr
    else { s with rxrd := s.advance s.rxrd s.releaseStep, rxunread := s.rxunread - 1#10 }

/-- CLR_FLAGS (R285). -/
def execClrFlags (s : State) : Outcome := .next { s with flags := Flags.clear, lasterr := .none }

/-- `if TXRES in {PENDING, BUSY} then TXRES <- ERROR; set_flag(TXDONE)` (R266). -/
def State.parkTransmit (s : State) : State :=
  { s with
    txres := if s.txres.isOpen then .error else s.txres
    flags := s.flags.raiseIf s.txres.isOpen .txdone
    txreq := false }

/-- `if SEQ.STATE = RECEIVING then RXWR <- RXPARSE`: discard the partial frame only (R266). -/
def State.parkReception (s : State) : State :=
  { s with rxwr := if s.seq.isReceiving then s.rxparse else s.rxwr }

/-- `LINES_FLOAT <- 1; emit(FLOAT)` (R266). -/
def State.floatLines (s : State) : State := { s.emit .float with linesFloat := true }

/-- PARK (R266). -/
def execPark (s : State) : Outcome :=
  .next <|
    if s.seq = .noResponse then s.setFlag .cmderr
    else ((s.parkTransmit.parkReception.clearInFlight).floatLines).goto .noResponse

/-- RESERVED, opcode 0x7 (R287). -/
def execReserved7 (s : State) : Outcome := .next (s.setFlag .cmderr)

/-- RESERVED, opcodes 0x8..0xF (R287). -/
def execReservedHigh (_low : BitVec 3) (s : State) : Outcome := .next (s.setFlag .cmderr)

end Sys2Proof.Machine
end

