-- ==== Sys2Proof/Machine/HostAccess.lean ====
section
/-! DEFINITION. Host register writes and host reads: spec/44_host_commands.md R290 to R292, spec/20_memory.md
R82 to R87. -/

namespace Sys2Proof.Machine

/-- W_CTRL (R291): accepted only in IDLE; bits 31:1 ignored. -/
def execWCtrl (v : Word) (s : State) : Outcome :=
  .next <| if s.seq = .idle then { s with lsbFirst := lsbField v } else s.setFlag .cmderr

/-- W_TXLEN (R290): the whole word is compared with TXBUF_SIZE. -/
def execWTxlen (v : Word) (s : State) : Outcome :=
  .next <|
    if !s.txreq && decide (v.toNat ≤ s.cfg.txbufSize) then { s with txlen := lenField v }
    else s.setFlag .cmderr

/-- W_TXB (R82): refused while the buffer is owned by an in-flight transmit. -/
def execWTxb (i : Nat) (v : Word) (s : State) : Outcome :=
  .next <| if s.txreq then s.setFlag .cmderr else s.setTxb i (byteField v)

/-- W_READONLY (R86, R292). -/
def execWReadonly (_r : Reg) (_v : Word) (s : State) : Outcome := .next (s.setFlag .cmderr)

/-- W_RXB (R83): the ring is read-only to the host. -/
def execWRxb (_i : Nat) (_v : Word) (s : State) : Outcome := .next (s.setFlag .cmderr)

/-- W_UNMAPPED (R86): ignored, CMDERR not set. -/
def execWUnmapped (_off : Offset) (_v : Word) (s : State) : Outcome := .next s

/-- READ (R82, R83, R85, R86): the value goes to the host, here the model's field `rdata` (log 5); no
state of RLINK changes. -/
def execRead (loc : HostLoc) (s : State) : Outcome := .next { s with rdata := s.locWord loc }

end Sys2Proof.Machine
end

