-- ==== Sys2Proof/Machine/Wire.lean ====
section
/-! DEFINITION. The rules of a received byte by its class: spec/41_receive.md R181 to R187,
spec/42_transmit_collision.md R225 to R231. Each is the rule's own pseudocode; what R180 does before it (the
XFER trace event, REQ_OUT <- 0) is in `execByteDone` (log 11). -/

namespace Sys2Proof.Machine

/-- RX_SYNC (R183). -/
def execRxSync (x : Byte) (s : State) : Outcome :=
  .next ((s.ringPut x).goto (.receiving .rxBody)).requestByte

/-- `set_flag(UNEXP); LASTERR <- e; CNT_UNEXP <- CNT_UNEXP + 1` (R184, R228). -/
def State.unexpectedFirst (e : ErrCode) (s : State) : State :=
  { s with
    flags := s.flags.raiseIf true .unexp
    lasterr := e
    cnt := { s.cnt with unexp := s.cnt.unexp + 1#32 } }

/-- RX_UNEXPECTED (R184): counted, not stored, then drained. -/
def execRxUnexpected (_x : Byte) (s : State) : Outcome :=
  .next (((s.unexpectedFirst .unexpectedByte).countRxByte).goto (.receiving .rxDrain)).requestByte

/-- RX_BODY_BYTE (R186). -/
def execRxBodyByte (x : Byte) (s : State) : Outcome := .next (s.ringPut x).requestByte

/-- RX_DRAIN_BYTE (R185): counted, discarded. -/
def execRxDrainByte (_x : Byte) (s : State) : Outcome := .next s.countRxByte.requestByte

/-- TX_GRANT (R225): the clear-to-send byte is not stored. -/
def execTxGrant (_x : Byte) (s : State) : Outcome :=
  .next <| State.requestByte <|
    State.goto (.transmitting .txData)
      { s.setHrdy false with txidx := 0#9, txout := s.txbByte 0, tocnt := 0#16 }

/-- `set_flag(COLL); CNT_COLLISION <- CNT_COLLISION + 1` (R227). -/
def State.noteCollision (s : State) : State :=
  { s with
    flags := s.flags.raiseIf true .coll
    cnt := { s.cnt with collision := s.cnt.collision + 1#32 } }

/-- TX_COLLISION (R227): the transmit ends with RETRY and the reception goes on with the byte stored. -/
def execTxCollision (x : Byte) (s : State) : Outcome :=
  .next <| State.requestByte <| State.goto (.receiving .rxBody) <|
    State.ringPut x <| State.beginReception <| State.noteCollision <|
      State.endTransmit .retry (s.setHrdy false)

/-- TX_UNEXPECTED (R228): the byte is counted, not stored, and the reception drains. -/
def execTxUnexpected (_x : Byte) (s : State) : Outcome :=
  .next <| State.requestByte <| State.goto (.receiving .rxDrain) <|
    State.countRxByte <| State.beginReception <| State.unexpectedFirst .txUnexpected <|
      State.endTransmit .error (s.setHrdy false)

/-- `LAST_BYTE_DONE()` (R231): the last pulse is an acknowledgment and requests nothing. -/
def State.lastByteDone (s : State) : State :=
  State.goto (.transmitting .txWaitDenLow) <|
    { State.endTransmit .complete (State.pulseDrdy { s with txout := 0#8 }) with
      cnt := { s.cnt with txOk := s.cnt.txOk + 1#32 }
      tocnt := 0#16 }

/-- TX_DATA_BYTE (R230): the device's byte is ignored (R235). -/
def execTxDataByte (_x : Byte) (s : State) : Outcome :=
  .next <|
    if s.txidx + 1#9 < s.txlen
    then State.requestByte
      { s with txidx := s.txidx + 1#9, txout := s.txbByte (s.txidx + 1#9).toNat }
    else State.lastByteDone { s with txidx := s.txidx + 1#9 }

/-- STRAY (R181). -/
def execStray (_x : Byte) (s : State) : Outcome :=
  .next { s with cnt := { s.cnt with stray := s.cnt.stray + 1#32 } }

/-- NORESP_BYTE (R267): ignored entirely. -/
def execNorespByte (_x : Byte) (s : State) : Outcome := .next s

end Sys2Proof.Machine
end

