-- ==== Sys2Proof/Machine/Link.lean ====
section
/-! DEFINITION. The device, time-base and reset events: spec/43_protocol_tick.md R270, R271 (DEN, with
spec/41_receive.md R188 and spec/42_transmit_collision.md R222, R224, R232, R233), spec/41_receive.md R180
(BYTE_DONE), spec/60_exceptions.md R335 (TB), spec/70_reset_and_hazards.md R350 (RESET). -/

namespace Sys2Proof.Machine

/-- `DEN <- v`. -/
def State.setDen (v : Bool) (s : State) : State := { s with den := v }

/-- The rise of DEN (R222, R267, R271). A rise in RECEIVING or in another phase of TRANSMITTING is a
combination no reachable state has: no change (R270, log 8). -/
def State.denRise (s : State) : State :=
  match s.seq with
  | .idle => s.setDen true
  | .receiving _ => s
  | .transmitting .txWaitDen =>
    State.requestByte { (s.setDen true).goto (.transmitting .txWaitCts) with tocnt := 0#16 }
  | .transmitting .txWaitCts => s
  | .transmitting .txData => s
  | .transmitting .txWaitDenLow => s
  | .aborting => s.setDen true
  | .noResponse => s.setDen true

/-- The fall of DEN (R188, R224, R232, R233, R267, R271). A fall in TX_WAIT_DEN is a combination no
reachable state has: no change (R270, log 8). -/
def State.denFall (s : State) : State :=
  match s.seq with
  | .idle => s.setDen false
  | .receiving .rxFirst => (s.setDen false).finishRx
  | .receiving .rxBody => (s.setDen false).finishRx
  | .receiving .rxDrain => (s.setDen false).finishDrain
  | .transmitting .txWaitDen => s
  | .transmitting .txWaitCts => (s.setDen false).abort .txLinkDrop
  | .transmitting .txData => (s.setDen false).abort .txLinkDrop
  | .transmitting .txWaitDenLow => State.goto .idle { s.setDen false with tocnt := 0#16 }
  | .aborting => s.setDen false
  | .noResponse => s.setDen false

/-- DEN(v) (R270): a `v` equal to the current level is no edge and changes nothing in any state. -/
def execDen (v : Bool) (s : State) : Outcome :=
  .next <| if v = s.den then s else if v then s.denRise else s.denFall

/-- `emit(XFER(wire(TXOUT), b))`: the value shifted out, the value shifted in (R180). -/
def State.emitXfer (b : Byte) (s : State) : State := s.emit (.xfer (s.wire s.txout) b)

/-- The state a requested byte is handled in: XFER traced, REQ_OUT <- 0 (R180). -/
def State.takeByte (b : Byte) (s : State) : State := { s.emitXfer b with reqOut := false }

/-- BYTE_DONE(b) (R180): dispatch on the class of the logical byte. The combinations of R270 that no
reachable state has change nothing (log 8). -/
def execByteDone (b : Byte) (s : State) : Outcome :=
  match classifyByte s.cfg s.seq s.reqOut (s.wire b) with
  | some .noresp => execNorespByte (s.wire b) s
  | some .stray => execStray (s.wire b) (s.emitXfer b)
  | some .rxSync => execRxSync (s.wire b) (s.takeByte b)
  | some .rxUnexpected => execRxUnexpected (s.wire b) (s.takeByte b)
  | some .rxBody => execRxBodyByte (s.wire b) (s.takeByte b)
  | some .rxDrain => execRxDrainByte (s.wire b) (s.takeByte b)
  | some .txGrant => execTxGrant (s.wire b) (s.takeByte b)
  | some .txCollision => execTxCollision (s.wire b) (s.takeByte b)
  | some .txUnexpected => execTxUnexpected (s.wire b) (s.takeByte b)
  | some .txData => execTxDataByte (s.wire b) (s.takeByte b)
  | none => .next s

/-- `TOCNT <- TOCNT + 1`. -/
def State.countTb (s : State) : State := { s with tocnt := s.tocnt + 1#16 }

/-- TB (R335): count, and abort when the bound is reached. -/
def execTb (s : State) : Outcome :=
  .next <|
    match s.seq with
    | .idle => s
    | .receiving _ =>
      if s.countTb.tocnt.toNat = s.cfg.tWait then s.countTb.abort .rxTimeout else s.countTb
    | .transmitting _ =>
      if s.countTb.tocnt.toNat = s.cfg.tWait then s.countTb.abort .txTimeout else s.countTb
    | .aborting => s
    | .noResponse => s

/-- RESET (R350 to R352): every register to its reset value; DEN and the parameters stay; no wire event;
the buffers hold newly drawn bytes. The trace, the pending events and the last read value are no
registers and stay (log 3, 5, 16). -/
def execReset (s : State) : Outcome :=
  .next
    { State.powerOn s.cfg s.den with
      trace := s.trace
      inbox := s.inbox
      rdata := s.rdata
      epoch := s.epoch + 1 }

end Sys2Proof.Machine
end

