-- ==== Sys2Proof/Machine/Dispatch.lean ====
section
/-! DEFINITION. One arm per row of spec/opcode_table.json, each one call of its meaning. -/

namespace Sys2Proof.Machine

def exec (i : Instr) (s : State) : Host.Outcome State Fault Refusal :=
  match i with
  -- command words
  | .nop => Sys2Proof.Machine.execNop s
  | .tick => Sys2Proof.Machine.execTick s
  | .encode => Sys2Proof.Machine.execEncode s
  | .txSubmit => Sys2Proof.Machine.execTxSubmit s
  | .rxRelease => Sys2Proof.Machine.execRxRelease s
  | .clrFlags => Sys2Proof.Machine.execClrFlags s
  | .park => Sys2Proof.Machine.execPark s
  | .reserved7 => Sys2Proof.Machine.execReserved7 s
  | .reservedHigh low => Sys2Proof.Machine.execReservedHigh low s
  -- host register writes
  | .wCtrl v => Sys2Proof.Machine.execWCtrl v s
  | .wTxlen v => Sys2Proof.Machine.execWTxlen v s
  | .wTxb k v => Sys2Proof.Machine.execWTxb k v s
  | .wReadonly r v => Sys2Proof.Machine.execWReadonly r v s
  | .wRxb k v => Sys2Proof.Machine.execWRxb k v s
  | .wUnmapped off v => Sys2Proof.Machine.execWUnmapped off v s
  -- host reads
  | .read loc => Sys2Proof.Machine.execRead loc s
  -- device, time-base and reset events
  | .den v => Sys2Proof.Machine.execDen v s
  | .byteDone b => Sys2Proof.Machine.execByteDone b s
  | .tb => Sys2Proof.Machine.execTb s
  | .reset => Sys2Proof.Machine.execReset s
  -- classes of a received byte
  | .rxSync x => Sys2Proof.Machine.execRxSync x s
  | .rxUnexpected x => Sys2Proof.Machine.execRxUnexpected x s
  | .rxBodyByte x => Sys2Proof.Machine.execRxBodyByte x s
  | .rxDrainByte x => Sys2Proof.Machine.execRxDrainByte x s
  | .txGrant x => Sys2Proof.Machine.execTxGrant x s
  | .txCollision x => Sys2Proof.Machine.execTxCollision x s
  | .txUnexpected x => Sys2Proof.Machine.execTxUnexpected x s
  | .txDataByte x => Sys2Proof.Machine.execTxDataByte x s
  | .stray x => Sys2Proof.Machine.execStray x s
  | .norespByte x => Sys2Proof.Machine.execNorespByte x s

end Sys2Proof.Machine
end

