-- ==== Sys2Proof/Machine/Fetch.lean ====
section
/-! DEFINITION. How the next event reaches RLINK (spec/00_scope.md R13, R14): the head of the inbox, decoded; how
an agent posts an event; how an opcode-table word is put where the next step takes it. -/

namespace Sys2Proof.Machine

/-- What the next step has before it. -/
inductive Fetched where
  /-- no event is pending: RLINK waits in its phase (00_scope.md R15; log 4) -/
  | waiting
  /-- the next event is refused -/
  | refuse (r : Refusal)
  /-- an instruction, and the state with its event taken from the inbox -/
  | run (i : Instr) (s : State)
deriving DecidableEq, Repr

/-- The refusal of a rejected event (20_memory.md R84). -/
def refusalOf : DecodeError → Refusal
  | .narrowAccess => .narrowAccess
  | .misalignedAccess => .misalignedAccess

/-- Take the next event and decode it. A configuration that is not legal is refused (00_scope.md R8). -/
def fetch (s : State) : Fetched :=
  if s.cfg.legal then
    match s.inbox with
    | [] => .waiting
    | e :: rest =>
      match decode s.cfg e with
      | .rejected err => .refuse (refusalOf err)
      | .ok i => .run i { s with inbox := rest }
  else .refuse .illegalConfig

/-- An agent acts: its event joins the pending ones (00_scope.md R13). -/
def State.post (e : Event) (s : State) : State := { s with inbox := s.inbox ++ [e] }

/-- A 32-bit host bus write at a bus address: it reaches RLINK only inside the block (20_memory.md R80). -/
def State.postBusWrite (addr : Word) (v : Word) (s : State) : State :=
  match busOffset s.cfg addr with
  | some off => s.post (.hostWrite .word off v)
  | none => s

/-- A 32-bit host bus read at a bus address: it reaches RLINK only inside the block (20_memory.md R80). -/
def State.postBusRead (addr : Word) (s : State) : State :=
  match busOffset s.cfg addr with
  | some off => s.post (.hostRead .word off)
  | none => s

/-- Put the event of an opcode-table word before the pending ones. A byte is one in NO_RESPONSE, so the
sequencer is then put there (log 13). -/
def State.placeTableWord (s : State) (nbits w : Nat) : State :=
  match tableEvent nbits w with
  | none => s
  | some (.byteDone b) => { s with inbox := .byteDone b :: s.inbox, seq := tableState }
  | some e => { s with inbox := e :: s.inbox }

end Sys2Proof.Machine
end

