-- ==== Sys2Proof/Machine/Step.lean ====
section
/-! DEFINITION. The step: one pending event, handled whole (spec/20_memory.md R95). -/

namespace Sys2Proof.Machine

/-- One step of RLINK: take the next event, run its instruction. With no event pending RLINK waits in its
phase and nothing changes (00_scope.md R15; log 4). -/
def step (s : State) : Host.Outcome State Fault Refusal :=
  match fetch s with
  | .waiting => .next s
  | .refuse r => .refused r
  | .run i s' => exec i s'

/-- `s` with an opcode-table word placed as the next event (log 13). -/
def State.withFetchWord (s : State) (nbits w : Nat) : State := s.placeTableWord nbits w

end Sys2Proof.Machine
end

