-- ==== Sys2Proof/Safety.lean ====
section
/-! DEFINITION. What a good state of RLINK is: the invariants of spec/10_state.md R60 and the ranges its registers
are given, in the words the statements use. -/

namespace Sys2Proof

/-- The phases in which a byte is requested: R60 item 12. -/
def SeqState.requestsByte : SeqState → Bool
  | .receiving _ => true
  | .transmitting .txWaitCts => true
  | .transmitting .txData => true
  | .transmitting .txWaitDen => false
  | .transmitting .txWaitDenLow => false
  | .idle | .aborting | .noResponse => false

/-- The phases in which HRDY is 1: R60 item 3. -/
def SeqState.drivesHrdy : SeqState → Bool
  | .transmitting .txWaitDen => true
  | .transmitting .txWaitCts => true
  | .transmitting .txData => false
  | .transmitting .txWaitDenLow => false
  | .idle | .receiving _ | .aborting | .noResponse => false

/-- The phases in which TXRES is BUSY: R60 item 4. -/
def SeqState.busyPhase : SeqState → Bool
  | .transmitting .txWaitDenLow => false
  | .transmitting .txWaitDen | .transmitting .txWaitCts | .transmitting .txData => true
  | .idle | .receiving _ | .aborting | .noResponse => false

/-- IDLE, ABORTING and NO_RESPONSE: no wait is in progress (R60 item 1). -/
def SeqState.quiet : SeqState → Bool
  | .idle | .aborting | .noResponse => true
  | .receiving _ | .transmitting _ => false

/-- The phases in which a PENDING result may stand: R60 item 6. -/
def SeqState.mayPend : SeqState → Bool
  | .idle | .receiving _ | .aborting | .transmitting .txWaitDenLow => true
  | .transmitting .txWaitDen | .transmitting .txWaitCts | .transmitting .txData => false
  | .noResponse => false

/-- The phases in which DEN is 1: R60 item 10. -/
def SeqState.needsDen : SeqState → Bool
  | .receiving _ => true
  | .transmitting .txWaitCts | .transmitting .txData | .transmitting .txWaitDenLow => true
  | .transmitting .txWaitDen => false
  | .idle | .aborting | .noResponse => false

/-- An event of the input alphabet (R14): a host access is a 32-bit access at a multiple of 4 (R84). -/
def Event.inAlphabet : Event → Bool
  | .hostWrite width off _ => width == .word && off.toNat % 4 == 0
  | .hostRead width off => width == .word && off.toNat % 4 == 0
  | .den _ | .byteDone _ | .tb | .reset => true

namespace Machine

/-- The frame of a body (MESSAGE_ID and payload, at most 255 bytes): 30_encoding.md R110, checksum of 40_codec.md
R151. -/
def frameOf (p : Params) (body : List Byte) : List Byte :=
  let head := p.syncByte :: BitVec.ofNat 8 body.length :: body
  head ++ [cksum head]

/-- The device's transfers of the logical bytes `bs`, in order, in the bit order `lsb` (R88, R89). -/
def transfers (lsb : Bool) (bs : List Byte) : List Event := bs.map fun x => .byteDone (wireByte lsb x)

/-- What the wire shows of a list of transfers, each acknowledged by a DRDY pulse: the wire values shifted
out and in (R57). -/
def exchanges (lsb : Bool) (outs inns : List Byte) : List WireEvent :=
  (List.zipWith (fun x y => [WireEvent.xfer (wireByte lsb x) (wireByte lsb y), WireEvent.pulse])
    outs inns).flatten

/-- The first `n` bytes of the transmit buffer. -/
def State.txbBytes (s : State) (n : Nat) : List Byte := (List.range n).map s.txbByte

/-- The control invariant: R60 items 1 to 6 and 9 to 12, with the ranges of TXLEN (R43), TXIDX (R44), TXOUT
(R52) and TOCNT (R51, R335) and a legal configuration (R7, R8). -/
structure CtrlInv (s : State) : Prop where
  legal : s.cfg.legal = true
  /-- item 1 -/
  quiet : s.seq.quiet = true → s.reqOut = false ∧ s.tocnt = 0#16 ∧ s.txout = 0#8
  /-- item 2 -/
  parse : s.seq.isReceiving = false → s.rxparse = s.rxwr
  /-- item 3 -/
  hrdy : s.hrdy = s.seq.drivesHrdy
  /-- item 4 -/
  busy : s.txres = .busy ↔ s.seq.busyPhase = true
  /-- item 5 -/
  txreq : s.txreq = s.txres.isOpen
  /-- item 6 -/
  pending : s.txres = .pending → s.seq.mayPend = true
  /-- item 9 -/
  float : s.linesFloat = true ↔ s.seq = .noResponse
  /-- item 10 -/
  den : s.seq.needsDen = true → s.den = true
  /-- item 10, TX_WAIT_DEN -/
  denLow : s.seq = .transmitting .txWaitDen → s.den = false
  /-- items 11 and 12 -/
  reqOut : s.reqOut = s.seq.requestsByte
  /-- R52: TXOUT is 0 outside TX_DATA -/
  txoutZero : s.seq ≠ .transmitting .txData → s.txout = 0#8
  /-- R52, R44: in TX_DATA it is TXB[TXIDX], and a byte is left to send -/
  txoutData : s.seq = .transmitting .txData →
    s.txout = s.txbByte s.txidx.toNat ∧ s.txidx.toNat < s.txlen.toNat
  /-- R43 -/
  txlen : s.txlen.toNat ≤ s.cfg.txbufSize
  /-- R280: an accepted frame has at least 3 bytes, and TXLEN is held while TXREQ = 1 -/
  txlenOpen : s.txreq = true → 3 ≤ s.txlen.toNat
  /-- R335: a wait never reaches its bound without an abort -/
  tocnt : s.tocnt.toNat < s.cfg.tWait

/-- `count` valid frames placed back to back from ring index `k`, filling `len` bytes exactly (R60 item 8;
30_encoding.md R110; 40_codec.md R152). -/
def State.framesSpan (s : State) (count k len : Nat) : Prop :=
  match count with
  | 0 => len = 0
  | n + 1 =>
    s.frameSize k ≤ len
      ∧ (s.validate k (s.frameSize k) false).verdict = .ok
      ∧ s.frameByte k 0 = s.cfg.syncByte
      ∧ s.framesSpan n (ringAdd s.cfg.rxbufSize k (s.frameSize k)) (len - s.frameSize k)

/-- Bytes from RXRD to RXPARSE: the unread frames. -/
def State.unreadSpan (s : State) : Nat :=
  ringDist s.cfg.rxbufSize s.rxrd.toNat s.rxparse.toNat

/-- Bytes from RXPARSE to RXWR: the stored bytes of the frame being received. -/
def State.partialSpan (s : State) : Nat :=
  ringDist s.cfg.rxbufSize s.rxparse.toNat s.rxwr.toNat

/-- R60 items 7 and 8, with the cursors' ranges (R46 to R48). -/
structure RingCursors (s : State) : Prop where
  /-- R46 -/
  wr : s.rxwr.toNat < s.cfg.rxbufSize
  /-- R47 -/
  parse : s.rxparse.toNat < s.cfg.rxbufSize
  /-- R48 -/
  rd : s.rxrd.toNat < s.cfg.rxbufSize
  /-- item 7: RXPARSE lies on the ring path from RXRD to RXWR -/
  path : s.unreadSpan + s.partialSpan = s.occ
  /-- item 8: the unread frames fill the bytes from RXRD to RXPARSE -/
  frames : s.framesSpan s.rxunread.toNat s.rxrd.toNat s.unreadSpan

/-- What the reception in progress has stored (R93, R113, R155, R187). -/
structure RingPhase (s : State) : Prop where
  /-- a reception that waits for its first byte has stored and counted none -/
  first : s.seq = .receiving .rxFirst →
    s.rxwr = s.rxparse ∧ s.rxcnt = 0#16 ∧ s.ovfCur = false
  /-- a body without overflow is stored whole and starts with SYNC (R155) -/
  body : s.seq = .receiving .rxBody → s.ovfCur = false →
    s.partialSpan = s.rxcnt.toNat ∧ 1 ≤ s.rxcnt.toNat ∧
      s.frameByte s.rxparse.toNat 0 = s.cfg.syncByte
  /-- a drain stores nothing (R184, R185) -/
  drain : s.seq = .receiving .rxDrain → s.rxwr = s.rxparse

/-- The ring invariant: R60 items 7 and 8, and the reception in progress. -/
structure RingInv (s : State) : Prop extends RingCursors s, RingPhase s

/-- The buffers keep their canonical form and their size (R59). -/
structure MemInv (s : State) : Prop where
  txb : Memory.wf s.txb = true
  rxb : Memory.wf s.rxb = true
  txbSize : ∀ i, s.cfg.txbufSize ≤ i → Memory.get s.txb i = none
  rxbSize : ∀ i, s.cfg.rxbufSize ≤ i → Memory.get s.rxb i = none

/-- The flag that a wire-level error sets in the step that records it (R310, R312). RX_OVERFLOW has none
here: RXOVF is set when the byte is dropped (R187), and a CLR_FLAGS may come before the code is written. -/
def ErrCode.stickyFlag : ErrCode → Option Flag
  | .none => Option.none
  | .unexpectedByte => some .unexp
  | .lengthMismatch => some .lenerr
  | .checksumMismatch => some .ckerr
  | .rxOverflow => Option.none
  | .rxTimeout => some .tmo
  | .txTimeout => some .tmo
  | .txUnexpected => some .unexp
  | .txLinkDrop => some .linkdrop

/-- LASTERR never shows a code whose flag is clear (R310, R312, R36). -/
def ErrorFlagInv (s : State) : Prop := ∀ f, s.lasterr.stickyFlag = some f → s.flags.test f = true

/-- A state of a machine that works as R60 says. -/
structure Good (s : State) : Prop where
  ctrl : CtrlInv s
  ring : RingInv s
  mem : MemInv s

end Machine

end Sys2Proof
end

