-- ==== Sys2Proof/Certificates/Slice0/Obligations.lean ====
section
/-! DEFINITION. The statements about RLINK that are to be proved. Each docstring names the rule of spec/ it
formalises. A statement over all states holds for every configuration and every value of the free bytes,
since both are read from the state. -/

open Sys2Proof Sys2Proof.Machine

/-! ## Encoding -/

/-- 30_encoding.md R125, R126, R129; 20_memory.md R81 to R83: decoding the event that carries a well-formed
instruction gives that instruction, with every operand. The byte classes are `ByteClassDecodeOfEncode`. -/
def Obligations.EventDecodeOfEncode : Prop :=
  ∀ (p : Params) (i : Instr), p.legal = true → i.wf p = true → byteContext i = none →
    decode p (encode i) = .ok i

/-- 30_encoding.md R118, R119; 41_receive.md R180, R181: at the point of control where a byte-class row
applies, classifying the byte that carries it gives that row. -/
def Obligations.ByteClassDecodeOfEncode : Prop :=
  ∀ (p : Params) (i : Instr) (q : SeqState) (reqOut : Bool) (x : Byte),
    p.legal = true → i.wf p = true → byteContext i = some (q, reqOut) → encode i = .byteDone x →
      (classifyByte p q reqOut x).map (ByteClass.instr x) = some i

/-- 30_encoding.md R126, R127: the command map. The opcode is the value of bits 3:0 of the word, and bits
31:4 change nothing. -/
def Obligations.CommandWordMap : Prop :=
  ∀ (p : Params) (v : Word),
    decode p (.hostWrite .word 0x004#13 v) = .ok
      (match (v &&& 0xF#32).toNat with
        | 0x0 => .nop
        | 0x1 => .tick
        | 0x2 => .encode
        | 0x3 => .txSubmit
        | 0x4 => .rxRelease
        | 0x5 => .clrFlags
        | 0x6 => .park
        | 0x7 => .reserved7
        | n => .reservedHigh (BitVec.ofNat 3 (n - 8)))

/-- 20_memory.md R81, R84: the decoder gives only well-formed instructions of the first level. -/
def Obligations.DecodeGivesWellFormed : Prop :=
  ∀ (p : Params) (e : Event) (i : Instr), p.legal = true → decode p e = .ok i →
    i.wf p = true ∧ byteContext i = none ∧ e.inAlphabet = true

/-- 20_memory.md R81, R82, R83: what each aligned offset of the host register space selects. The four
ranges are taken in turn and leave no offset out. -/
def Obligations.OffsetLayout : Prop :=
  ∀ (p : Params) (off : Offset), p.legal = true → off.toNat % 4 = 0 →
    let n := off.toNat
    if n < 0x44 ∨ (0x80 ≤ n ∧ n < 0xA0) then
      ∃ r : Reg, r.offset = off ∧ decode p (.hostRead .word off) = .ok (.read (.reg r))
    else if 0x400 ≤ n ∧ n < 0x400 + 4 * p.txbufSize then
      decode p (.hostRead .word off) = .ok (.read (.txb ((n - 0x400) / 4)))
    else if 0x1000 ≤ n ∧ n < 0x1000 + 4 * p.rxbufSize then
      decode p (.hostRead .word off) = .ok (.read (.rxb ((n - 0x1000) / 4)))
    else decode p (.hostRead .word off) = .ok (.read (.unmapped off))

/-- A few words of spec/opcode_table.json, written out from the spec's encodings: command words by 30_encoding.md
R126, offsets by 20_memory.md R81. That a 16-bit table word is the offset of a HOST_WRITE of the value 0, and so
the six clauses with 16 bits, is the model's choice (log 13). -/
def Obligations.SampleWordsDecode : Prop :=
  decodeTableWord 32 0b0001 = some .tick
    ∧ decodeTableWord 32 0b0010 = some .encode
    ∧ decodeTableWord 32 0b0110 = some .park
    ∧ decodeTableWord 32 0b1101 = some (.reservedHigh 0b101#3)
    ∧ decodeTableWord 16 0x0000 = some (.wCtrl 0#32)
    ∧ decodeTableWord 16 0x0014 = some (.wTxlen 0#32)
    ∧ decodeTableWord 16 0x0404 = some (.wTxb 1 0#32)
    ∧ decodeTableWord 16 0x0008 = some (.wReadonly .status 0#32)
    ∧ decodeTableWord 16 0x1008 = some (.wRxb 2 0#32)
    ∧ decodeTableWord 16 0x0044 = some (.wUnmapped 0x0044#13 0#32)

/-! ## The step -/

/-- 20_memory.md R95; 00_scope.md R13: the next pending event is taken from the inbox and its instruction
runs on the state without it. With no event pending nothing changes (the model's choice, log 4). -/
def Obligations.StepRunsDecodedInstruction : Prop :=
  (∀ (s : State) (e : Event) (rest : List Event) (i : Instr),
    s.cfg.legal = true → s.inbox = e :: rest → decode s.cfg e = .ok i →
      step s = exec i { s with inbox := rest })
  ∧ ∀ s : State, s.cfg.legal = true → s.inbox = [] → step s = .next s

/-- 00_scope.md R15, over the input alphabet of R14: every event, in every state, has an outcome. One step takes
one event (R13; 20_memory.md R95); that the others stay pending, after RESET too, is the model's choice of an
inbox (log 3). -/
def Obligations.EveryEventIsAnswered : Prop :=
  ∀ (s : State) (e : Event) (rest : List Event),
    s.cfg.legal = true → s.inbox = e :: rest → e.inAlphabet = true →
      ∃ t, step s = .next t ∧ t.inbox = rest

/-- 20_memory.md R84; 00_scope.md R8: what a step refuses. -/
def Obligations.WhatAStepRefuses : Prop :=
  (∀ (s : State) (w : AccessWidth) (off : Offset) (v : Word) (rest : List Event),
    s.cfg.legal = true → (s.inbox = .hostWrite w off v :: rest ∨ s.inbox = .hostRead w off :: rest) →
      (w ≠ .word → step s = .refused .narrowAccess)
      ∧ (w = .word → off.toNat % 4 ≠ 0 → step s = .refused .misalignedAccess))
  ∧ (∀ s : State, s.cfg.ctsByte = s.cfg.syncByte → step s = .refused .illegalConfig)

/-! ## Invariants -/

/-- 70_reset_and_hazards.md R350, R351, R353; 10_state.md R60: the invariants hold after power-on, for every
legal configuration and both levels of DEN, and so in the reset state. -/
def Obligations.ResetIsGood : Prop :=
  (∀ (p : Params) (denInit : Bool), p.legal = true →
    Good (State.powerOn p denInit) ∧ ErrorFlagInv (State.powerOn p denInit))
  ∧ Good State.reset ∧ ErrorFlagInv State.reset

/-- 10_state.md R60 items 1 to 6 and 9 to 12: every step keeps the control invariant. -/
def Obligations.StepKeepsControl : Prop :=
  ∀ s t : State, CtrlInv s → step s = .next t → CtrlInv t

/-- 10_state.md R60 items 7 and 8: every step keeps the ring invariant, given the control invariant. -/
def Obligations.StepKeepsRing : Prop :=
  ∀ s t : State, CtrlInv s → RingInv s → step s = .next t → RingInv t

/-- 10_state.md R59: every step keeps both buffers canonical and inside their size, given the range of RXWR. -/
def Obligations.StepKeepsMemory : Prop :=
  ∀ s t : State, s.rxwr.toNat < s.cfg.rxbufSize → MemInv s → step s = .next t → MemInv t

/-- 60_exceptions.md R310, R312; 10_state.md R36: LASTERR never shows a code whose STATUS flag is clear, but for
RX_OVERFLOW. RXOVF is set when the byte is dropped (41_receive.md R187) and a CLR_FLAGS may clear it before the
reception ends; of RX_OVERFLOW the statement says what writes it: the fall of DEN in a reception whose
overflow mark is set. -/
def Obligations.StepKeepsErrorFlag : Prop :=
  (∀ s t : State, ErrorFlagInv s → step s = .next t → ErrorFlagInv t)
  ∧ ∀ s t : State, step s = .next t → t.lasterr = .rxOverflow → s.lasterr ≠ .rxOverflow →
    s.inbox.head? = some (.den false) ∧ s.seq.isReceiving = true ∧ s.den = true ∧ s.ovfCur = true
      ∧ t.seq = .idle

/-! ## Rules over every instruction -/

/-- 10_state.md R36: a transient bit stays 1 until CLR_FLAGS, reset or, for TXDONE, TX_SUBMIT. -/
def Obligations.TransientFlagsAreSticky : Prop :=
  ∀ (i : Instr) (s t : State) (f : Flag), exec i s = .next t → s.flags.test f = true →
    i ≠ .clrFlags → i ≠ .reset → (f = .txdone → i ≠ .txSubmit) → t.flags.test f = true

/-- 43_protocol_tick.md R268: NO_RESPONSE is left only by RESET. -/
def Obligations.NoResponseIsLeftOnlyByReset : Prop :=
  ∀ s t : State, s.seq = .noResponse → step s = .next t → t.seq ≠ .noResponse →
    s.inbox.head? = some .reset

/-- 42_transmit_collision.md R236: HRDY rises only where START_TX runs, and falls only at the first byte after
DEN rises, at an abort, at PARK or at reset; and it is 1 after START_TX and 0 after each of those. -/
def Obligations.HostReadyChanges : Prop :=
  ∀ (i : Instr) (s t : State), byteContext i = none → exec i s = .next t →
    (s.hrdy = false → t.hrdy = true →
      i = .tick ∧ s.seq = .idle ∧ s.den = false ∧ s.txreq = true)
    ∧ (s.hrdy = true → t.hrdy = false →
      (∃ b, i = .byteDone b ∧ s.seq = .transmitting .txWaitCts)
        ∨ (t.seq = .aborting ∧ s.seq ≠ .aborting) ∨ i = .park ∨ i = .reset)
    ∧ (i = .tick → s.seq = .idle → s.den = false → s.txreq = true → t.hrdy = true)
    ∧ (∀ b, i = .byteDone b → s.seq = .transmitting .txWaitCts → s.reqOut = true → t.hrdy = false)
    ∧ (t.seq = .aborting → s.seq ≠ .aborting → t.hrdy = false)
    ∧ (i = .park → s.seq ≠ .noResponse → t.hrdy = false)
    ∧ (i = .reset → t.hrdy = false)

/-- 60_exceptions.md R336: only a timeout sets TMO or moves CNT_TIMEOUT, and it is the TB that brings TOCNT to
T_WAIT in a wait. -/
def Obligations.OnlyATimeoutSetsTmo : Prop :=
  ∀ (i : Instr) (s t : State), exec i s = .next t → i ≠ .reset →
    ((s.flags.tmo = false ∧ t.flags.tmo = true) ∨ t.cnt.timeout ≠ s.cnt.timeout) →
      i = .tb ∧ (s.seq.isReceiving = true ∨ s.seq.isTransmitting = true)
        ∧ (s.tocnt + 1#16).toNat = s.cfg.tWait ∧ t.seq = .aborting
        ∧ t.cnt.timeout = s.cnt.timeout + 1#32

/-- 70_reset_and_hazards.md R360; 20_memory.md R98: while TXREQ is 1 no event but RESET changes a byte of TXB
or TXLEN. -/
def Obligations.TransmitBufferIsHeld : Prop :=
  ∀ (i : Instr) (s t : State), exec i s = .next t → s.txreq = true → i ≠ .reset →
    (∀ k, t.txbByte k = s.txbByte k) ∧ t.txlen = s.txlen

/-- 43_protocol_tick.md R265 items 1 and 2, R261; 42_transmit_collision.md R237: TXREQ rises only at TX_SUBMIT;
a transmit starts only at a TICK in IDLE with DEN = 0 and TXREQ = 1; a reception starts only at a TICK in
IDLE with DEN = 1 or at the grant byte of a transmit. -/
def Obligations.WhatStartsATransfer : Prop :=
  ∀ (i : Instr) (s t : State), byteContext i = none → exec i s = .next t →
    (s.txreq = false → t.txreq = true → i = .txSubmit)
    ∧ (s.seq.isTransmitting = false → t.seq.isTransmitting = true →
      i = .tick ∧ s.seq = .idle ∧ s.den = false ∧ s.txreq = true)
    ∧ (s.seq.isReceiving = false → t.seq.isReceiving = true →
      (i = .tick ∧ s.seq = .idle ∧ s.den = true)
        ∨ ∃ b, i = .byteDone b ∧ s.seq = .transmitting .txWaitCts ∧ s.reqOut = true)

/-- 10_state.md R53, R54: no instruction, RESET included, changes the parameters; PARAM0 at 0x03C and PARAM1 at
0x040 read them in their fields (`rdata` is where the model shows the value, log 5); a write there is a write
to a read-only register. -/
def Obligations.ParametersAreConstant : Prop :=
  (∀ (i : Instr) (s t : State), exec i s = .next t → t.cfg = s.cfg)
  ∧ (∀ (p : Params) (v : Word),
    decode p (.hostRead .word 0x03C#13) = .ok (.read (.reg .param0))
      ∧ decode p (.hostRead .word 0x040#13) = .ok (.read (.reg .param1))
      ∧ decode p (.hostWrite .word 0x03C#13 v) = .ok (.wReadonly .param0 v)
      ∧ decode p (.hostWrite .word 0x040#13 v) = .ok (.wReadonly .param1 v))
  ∧ ∀ s : State, s.cfg.legal = true →
    ∃ w0 w1 : Word,
      exec (.read (.reg .param0)) s = .next { s with rdata := w0 }
        ∧ w0.extractLsb' 0 8 = s.cfg.syncByte ∧ w0.extractLsb' 8 8 = s.cfg.ctsByte
        ∧ (w0.extractLsb' 16 8).toNat = s.cfg.maxLength ∧ w0.extractLsb' 24 8 = 0#8
        ∧ exec (.read (.reg .param1)) s = .next { s with rdata := w1 }
        ∧ (w1.extractLsb' 0 16).toNat = s.cfg.rxbufSize ∧ (w1.extractLsb' 16 16).toNat = s.cfg.tWait

/-- 41_receive.md R187; 20_memory.md R92: no step but a RESET overwrites a byte of an unread frame. -/
def Obligations.UnreadFramesAreNeverOverwritten : Prop :=
  ∀ s t : State, Good s → step s = .next t → s.inbox.head? ≠ some .reset →
    ∀ k, k < s.unreadSpan → t.frameByte s.rxrd.toNat k = s.frameByte s.rxrd.toNat k

/-- 60_exceptions.md R322, R323 item 1: whatever the state before, an instruction that runs RESYNC leaves the
three cursors equal and no unread frame; RXWR itself does not move. -/
def Obligations.ResyncMakesTheCursorsEqual : Prop :=
  ∀ (i : Instr) (s t : State), byteContext i = none → i ≠ .reset → exec i s = .next t →
    t.cnt.resync ≠ s.cnt.resync →
      t.rxparse = t.rxwr ∧ t.rxrd = t.rxwr ∧ t.rxunread = 0#10 ∧ t.rxwr = s.rxwr
        ∧ t.cnt.resync = s.cnt.resync + 1#32 ∧ (t.seq = .idle ∨ t.seq = .aborting)

/-- 60_exceptions.md R324, R325: ABORTING is left only by TICK, to IDLE, or by PARK or RESET, and no event in it
takes a second abort. -/
def Obligations.AbortingIsLeftOnlyByTickParkOrReset : Prop :=
  ∀ (i : Instr) (s t : State), byteContext i = none → exec i s = .next t → s.seq = .aborting →
    (t.seq ≠ .aborting → (i = .tick ∧ t.seq = .idle) ∨ i = .park ∨ i = .reset)
    ∧ (i ≠ .reset → t.cnt.resync = s.cnt.resync ∧ t.cnt.timeout = s.cnt.timeout)

/-! ## Host commands and host accesses -/

/-- 44_host_commands.md R284; 20_memory.md R86 (writes to unmapped offsets); 43_protocol_tick.md R267 (a byte
while parked): these do nothing in any state. -/
def Obligations.WhatDoesNothing : Prop :=
  ∀ s : State,
    exec .nop s = .next s
      ∧ (∀ (off : Offset) (v : Word), exec (.wUnmapped off v) s = .next s)
      ∧ ∀ x : Byte, exec (.norespByte x) s = .next s

/-- 44_host_commands.md R287, R292: a reserved opcode and each refused write set CMDERR and change nothing else;
a write to an unmapped offset does not even that. -/
def Obligations.RefusedWritesSetCmderr : Prop :=
  ∀ s : State,
    let refused : State := { s with flags := { s.flags with cmderr := true } }
    exec .reserved7 s = .next refused
      ∧ (∀ low : BitVec 3, exec (.reservedHigh low) s = .next refused)
      ∧ (∀ (r : Reg) (v : Word), exec (.wReadonly r v) s = .next refused)
      ∧ (∀ (i : Nat) (v : Word), exec (.wRxb i v) s = .next refused)
      ∧ (∀ (i : Nat) (v : Word), s.txreq = true → exec (.wTxb i v) s = .next refused)
      ∧ (∀ v : Word, s.txreq = true ∨ s.cfg.txbufSize < v.toNat → exec (.wTxlen v) s = .next refused)
      ∧ (∀ v : Word, s.seq ≠ .idle → exec (.wCtrl v) s = .next refused)
      ∧ ∀ (off : Offset) (v : Word), exec (.wUnmapped off v) s = .next s

/-- 43_protocol_tick.md R260 to R264: TICK. In IDLE a reception comes first, whatever TXREQ is; a transmit
starts only with DEN = 0; ABORTING goes to IDLE; in every other state nothing changes. -/
def Obligations.TickRunsOneState : Prop :=
  ∀ s : State,
    (s.seq = .idle → s.den = true →
      exec .tick s = .next
        { s with
          seq := .receiving .rxFirst, rxcnt := 0#16, ovfCur := false, tocnt := 0#16, reqOut := true
          trace := if s.linesFloat then s.trace else s.trace ++ [.pulse] })
    ∧ (s.seq = .idle → s.den = false → s.txreq = true →
      exec .tick s = .next
        { s with
          seq := .transmitting .txWaitDen, hrdy := true, txres := .busy, txidx := 0#9, txout := 0#8
          tocnt := 0#16
          trace := if s.hrdy then s.trace else s.trace ++ [.hrdy true] })
    ∧ (s.seq = .idle → s.den = false → s.txreq = false → exec .tick s = .next s)
    ∧ (s.seq = .aborting → exec .tick s = .next { s with seq := .idle })
    ∧ (s.seq ≠ .idle → s.seq ≠ .aborting → exec .tick s = .next s)

/-- 40_codec.md R160: ENCODE. Refused while TXREQ = 1 or parked, or with L above MAX_LENGTH: CMDERR and nothing
else. Otherwise TXB[0], TXB[L+2] and TXLEN are written, every other byte of TXB and everything else stays. -/
def Obligations.EncodeBuildsOrRefuses : Prop :=
  ∀ s : State,
    let len := (s.txbByte 1).toNat
    if s.txreq = true ∨ s.seq = .noResponse ∨ s.cfg.maxLength < len then
      exec .encode s = .next { s with flags := { s.flags with cmderr := true } }
    else
      ∃ t, exec .encode s = .next t
        ∧ t.txlen = BitVec.ofNat 9 (len + 3)
        ∧ (∀ k, t.txbByte k =
            if k = 0 then s.cfg.syncByte
            else if k = len + 2 then
              cksum (s.cfg.syncByte :: (List.range (len + 1)).map fun j => s.txbByte (j + 1))
            else s.txbByte k)
        ∧ { t with txb := s.txb, txlen := s.txlen } = s

/-- 40_codec.md R151, R160; 30_encoding.md R110, R116: after an accepted ENCODE the first TXLEN bytes of TXB are
the frame of the bytes TXB[2..L+1], and TXLEN is L + 3. -/
def Obligations.EncodedBufferIsAFrame : Prop :=
  ∀ s t : State, s.txreq = false → s.seq ≠ .noResponse → (s.txbByte 1).toNat ≤ s.cfg.maxLength →
    exec .encode s = .next t →
      t.txlen.toNat = (s.txbByte 1).toNat + 3
        ∧ t.txbBytes t.txlen.toNat =
          frameOf s.cfg ((List.range (s.txbByte 1).toNat).map fun j => s.txbByte (j + 2))

/-- 44_host_commands.md R280: TX_SUBMIT. -/
def Obligations.TxSubmitAcceptsOrRefuses : Prop :=
  ∀ s : State,
    exec .txSubmit s = .next
      (if s.seq = .noResponse ∨ s.txreq = true ∨ s.txlen.toNat < 3
        then { s with flags := { s.flags with cmderr := true } }
        else { s with txreq := true, txres := .pending, flags := { s.flags with txdone := false } })

/-- 44_host_commands.md R282: RX_RELEASE. -/
def Obligations.RxReleaseFreesTheOldestFrame : Prop :=
  ∀ s : State,
    let n := s.cfg.rxbufSize
    let rd := s.rxrd.toNat
    exec .rxRelease s = .next
      (if s.rxunread = 0#10
        then { s with flags := { s.flags with cmderr := true } }
        else
          { s with
            rxrd := BitVec.ofNat 10 ((rd + ((s.rxbByte ((rd + 1) % n)).toNat + 3)) % n)
            rxunread := s.rxunread - 1#10 })

/-- 44_host_commands.md R285: CLR_FLAGS. -/
def Obligations.ClrFlagsClearsFlagsAndLasterr : Prop :=
  ∀ s : State, ∃ t, exec .clrFlags s = .next t
    ∧ (∀ f : Flag, t.flags.test f = false) ∧ t.lasterr = .none
    ∧ { t with flags := s.flags, lasterr := s.lasterr } = s

/-- 43_protocol_tick.md R266: PARK. -/
def Obligations.ParkEntersNoResponse : Prop :=
  ∀ s : State,
    (s.seq = .noResponse →
      exec .park s = .next { s with flags := { s.flags with cmderr := true } })
    ∧ (s.seq ≠ .noResponse →
      let busy : Bool := s.txres = .pending ∨ s.txres = .busy
      exec .park s = .next
        { s with
          txres := if busy then .error else s.txres
          flags := { s.flags with txdone := s.flags.txdone || busy }
          rxwr := if s.seq.isReceiving then s.rxparse else s.rxwr
          txreq := false, hrdy := false, reqOut := false, txout := 0#8, tocnt := 0#16
          linesFloat := true, seq := .noResponse
          trace := (if s.hrdy then s.trace ++ [.hrdy false] else s.trace) ++ [.float] })

/-- 44_host_commands.md R290, R291: writes to TXLEN (the whole word is compared) and to CTRL (bits 31:1 are
ignored). -/
def Obligations.ControlAndLengthWrites : Prop :=
  ∀ (v : Word) (s : State),
    let refused : State := { s with flags := { s.flags with cmderr := true } }
    exec (.wTxlen v) s = .next
        (if s.txreq = false ∧ v.toNat ≤ s.cfg.txbufSize
          then { s with txlen := v.extractLsb' 0 9 } else refused)
      ∧ exec (.wCtrl v) s = .next
        (if s.seq = .idle then { s with lsbFirst := v.getLsbD 0 } else refused)

/-- 20_memory.md R82: a write to the TXB window writes one byte, bits 7:0 of the word, and nothing else; while
TXREQ = 1 it is refused. -/
def Obligations.TxbWrites : Prop :=
  ∀ (i : Nat) (v : Word) (s : State),
    (s.txreq = true →
      exec (.wTxb i v) s = .next { s with flags := { s.flags with cmderr := true } })
    ∧ (s.txreq = false →
      ∃ t, exec (.wTxb i v) s = .next t
        ∧ (∀ k, t.txbByte k = if k = i then v.extractLsb' 0 8 else s.txbByte k)
        ∧ { t with txb := s.txb } = s)

/-- 20_memory.md R82, R83, R85, R86; 10_state.md R32 to R52, R55: a host read returns the value, zero-extended,
and changes no state (`rdata` is where the model shows the value, log 5). STATUS and SEQ are
`StatusAndSeqBits`, PARAM0 and PARAM1 are `ParametersAreConstant`. -/
def Obligations.ReadsReturnTheirLocation : Prop :=
  ∀ s : State,
    let reads (loc : HostLoc) (v : Word) : Prop := exec (.read loc) s = .next { s with rdata := v }
    (∀ i, reads (.txb i) ((s.txbByte i).setWidth 32))
      ∧ (∀ i, reads (.rxb i) ((s.rxbByte i).setWidth 32))
      ∧ (∀ off, reads (.unmapped off) 0#32)
      ∧ (∀ loc, ∃ v, reads loc v)
      ∧ reads (.reg .ctrl) (if s.lsbFirst then 1#32 else 0#32)
      ∧ reads (.reg .cmd) 0#32
      ∧ reads (.reg .lasterr)
        (match s.lasterr with
          | .none => 0#32 | .unexpectedByte => 1#32 | .lengthMismatch => 2#32
          | .checksumMismatch => 3#32 | .rxOverflow => 4#32 | .rxTimeout => 5#32
          | .txTimeout => 6#32 | .txUnexpected => 7#32 | .txLinkDrop => 8#32)
      ∧ reads (.reg .txlen) (s.txlen.setWidth 32)
      ∧ reads (.reg .txidx) (s.txidx.setWidth 32)
      ∧ reads (.reg .txres)
        (match s.txres with
          | .none => 0#32 | .pending => 1#32 | .busy => 2#32 | .complete => 3#32
          | .retry => 4#32 | .timeout => 5#32 | .error => 6#32)
      ∧ reads (.reg .rxwr) (s.rxwr.setWidth 32)
      ∧ reads (.reg .rxparse) (s.rxparse.setWidth 32)
      ∧ reads (.reg .rxrd) (s.rxrd.setWidth 32)
      ∧ reads (.reg .rxunread) (s.rxunread.setWidth 32)
      ∧ reads (.reg .rxcnt) (s.rxcnt.setWidth 32)
      ∧ reads (.reg .tocnt) (s.tocnt.setWidth 32)
      ∧ reads (.reg .txout) (s.txout.setWidth 32)
      ∧ reads (.reg .cntRxOk) s.cnt.rxOk
      ∧ reads (.reg .cntRxFail) s.cnt.rxFail
      ∧ reads (.reg .cntUnexp) s.cnt.unexp
      ∧ reads (.reg .cntTimeout) s.cnt.timeout
      ∧ reads (.reg .cntCollision) s.cnt.collision
      ∧ reads (.reg .cntTxOk) s.cnt.txOk
      ∧ reads (.reg .cntStray) s.cnt.stray
      ∧ reads (.reg .cntResync) s.cnt.resync

/-- 10_state.md R35, R37, R39 to R41, R56: every bit of STATUS and of SEQ as a host read returns them. HRDY reads
0 while the lines are floated. -/
def Obligations.StatusAndSeqBits : Prop :=
  ∀ s : State, ∃ st sq : Word,
    exec (.read (.reg .status)) s = .next { s with rdata := st }
      ∧ exec (.read (.reg .seq)) s = .next { s with rdata := sq }
      ∧ (∀ k, st.getLsbD k =
          match k with
          | 0 => decide (s.rxunread ≠ 0#10)
          | 1 => s.txreq
          | 2 => s.flags.txdone
          | 3 => s.flags.lenerr
          | 4 => s.flags.ckerr
          | 5 => s.flags.unexp
          | 6 => s.flags.tmo
          | 7 => s.flags.coll
          | 8 => s.flags.rxovf
          | 9 => s.flags.cmderr
          | 10 => s.flags.linkdrop
          | _ => false)
      ∧ (sq.extractLsb' 0 3).toNat =
          (match s.seq with
            | .idle => 0 | .receiving _ => 1 | .transmitting _ => 2 | .aborting => 3
            | .noResponse => 4)
      ∧ (sq.extractLsb' 4 3).toNat =
          (match s.seq with
            | .receiving .rxFirst => 0 | .receiving .rxBody => 1 | .receiving .rxDrain => 2
            | .transmitting .txWaitDen => 0 | .transmitting .txWaitCts => 1
            | .transmitting .txData => 2 | .transmitting .txWaitDenLow => 3
            | .idle => 0 | .aborting => 0 | .noResponse => 0)
      ∧ sq.getLsbD 3 = false ∧ sq.getLsbD 7 = false
      ∧ sq.getLsbD 8 = s.reqOut ∧ sq.getLsbD 9 = s.linesFloat ∧ sq.getLsbD 10 = s.den
      ∧ sq.getLsbD 11 = (s.hrdy && !s.linesFloat) ∧ sq.getLsbD 12 = s.ovfCur
      ∧ ∀ k, 13 ≤ k → sq.getLsbD k = false

/-! ## DEN, TB and RESET -/

/-- 43_protocol_tick.md R267, R270, R271: a DEN event at the present level changes nothing in any state (R270); in
IDLE, ABORTING and NO_RESPONSE an edge changes the level only. -/
def Obligations.DenLevelOnly : Prop :=
  ∀ s : State,
    exec (.den s.den) s = .next s
      ∧ ∀ v : Bool, (s.seq = .idle ∨ s.seq = .aborting ∨ s.seq = .noResponse) →
        exec (.den v) s = .next { s with den := v }

/-- 42_transmit_collision.md R222, R232: the rise of DEN in TX_WAIT_DEN and its fall in TX_WAIT_DEN_LOW. -/
def Obligations.DenEdgesOfATransmit : Prop :=
  ∀ s : State,
    (s.seq = .transmitting .txWaitDen → s.den = false →
      exec (.den true) s = .next
        { s with
          den := true, seq := .transmitting .txWaitCts, tocnt := 0#16, reqOut := true
          trace := if s.linesFloat then s.trace else s.trace ++ [.pulse] })
    ∧ (s.seq = .transmitting .txWaitDenLow → s.den = true →
      exec (.den false) s = .next { s with den := false, tocnt := 0#16, seq := .idle })

/-- 42_transmit_collision.md R224, R233, with ABORT(TX_LINK_DROP) of 60_exceptions.md R320 to R322: the fall of DEN
before the last byte. A transmit in progress (BUSY, as R60 says of these phases) ends with ERROR. -/
def Obligations.DenFallAbortsATransmit : Prop :=
  ∀ s : State, (s.seq = .transmitting .txWaitCts ∨ s.seq = .transmitting .txData) → s.den = true →
    let busy : Bool := s.txres = .busy
    exec (.den false) s = .next
      { s with
        den := false, hrdy := false, reqOut := false, txout := 0#8, tocnt := 0#16
        trace := if s.hrdy then s.trace ++ [.hrdy false] else s.trace
        txres := if busy then .error else s.txres
        txreq := s.txreq && !busy
        flags := { s.flags with txdone := s.flags.txdone || busy, linkdrop := true }
        lasterr := .txLinkDrop
        rxparse := s.rxwr, rxrd := s.rxwr, rxunread := 0#10
        cnt := { s.cnt with resync := s.cnt.resync + 1#32 }
        seq := .aborting }

/-- 41_receive.md R188 to R190, 40_codec.md R152: a reception of a valid frame ends with the frame handed to the
host. `n` is RXCNT and `k` is RXPARSE. -/
def Obligations.ValidReceptionIsAccepted : Prop :=
  ∀ s : State,
    let k := s.rxparse.toNat
    let n := s.rxcnt.toNat
    (s.seq = .receiving .rxFirst ∨ s.seq = .receiving .rxBody) → s.den = true → s.ovfCur = false →
    2 ≤ n → n = (s.frameByte k 1).toNat + 3 →
    cksum ((List.range (n - 1)).map (s.frameByte k)) = s.frameByte k (n - 1) →
      exec (.den false) s = .next
        { s with
          den := false, reqOut := false, tocnt := 0#16
          rxunread := s.rxunread + 1#10, rxparse := s.rxwr
          cnt := { s.cnt with rxOk := s.cnt.rxOk + 1#32 }
          seq := .idle }

/-- 41_receive.md R188, R189, R191, 40_codec.md R152, R153, 60_exceptions.md R310, R322, R328: every other reception is
rejected; the overflow verdict comes first, then the length, then the checksum, and LENERR and CKERR are
both set when both checks fail. -/
def Obligations.InvalidReceptionIsRejected : Prop :=
  ∀ s : State,
    let k := s.rxparse.toNat
    let n := s.rxcnt.toNat
    let lenBad : Bool := s.ovfCur = false ∧ (n < 2 ∨ n ≠ (s.frameByte k 1).toNat + 3)
    let ckBad : Bool := s.ovfCur = false ∧ 2 ≤ n ∧
      cksum ((List.range (n - 1)).map (s.frameByte k)) ≠ s.frameByte k (n - 1)
    (s.seq = .receiving .rxFirst ∨ s.seq = .receiving .rxBody) → s.den = true →
    (s.ovfCur || lenBad || ckBad) = true →
      exec (.den false) s = .next
        { s with
          den := false, reqOut := false, tocnt := 0#16
          flags := { s.flags with lenerr := s.flags.lenerr || lenBad, ckerr := s.flags.ckerr || ckBad }
          lasterr :=
            if s.ovfCur then .rxOverflow else if lenBad then .lengthMismatch else .checksumMismatch
          rxparse := s.rxwr, rxrd := s.rxwr, rxunread := 0#10
          cnt := { s.cnt with
            rxFail := s.cnt.rxFail + 1#32, resync := s.cnt.resync + 1#32 }
          seq := .idle }

/-- 41_receive.md R188, R192: the fall of DEN in RX_DRAIN. -/
def Obligations.DrainedReceptionEnds : Prop :=
  ∀ s : State, s.seq = .receiving .rxDrain → s.den = true →
    exec (.den false) s = .next
      { s with
        den := false, reqOut := false, tocnt := 0#16
        rxparse := s.rxwr, rxrd := s.rxwr, rxunread := 0#10
        cnt := { s.cnt with rxFail := s.cnt.rxFail + 1#32, resync := s.cnt.resync + 1#32 }
        seq := .idle }

/-- 60_exceptions.md R335, with ABORT of R320 to R322: TB counts in a wait, aborts when the count reaches T_WAIT,
and is ignored in IDLE, ABORTING and NO_RESPONSE. -/
def Obligations.TbCountsOrAborts : Prop :=
  ∀ s : State,
    (s.seq.quiet = true → exec .tb s = .next s)
    ∧ (s.seq.quiet = false → (s.tocnt + 1#16).toNat ≠ s.cfg.tWait →
      exec .tb s = .next { s with tocnt := s.tocnt + 1#16 })
    ∧ (s.seq.quiet = false → (s.tocnt + 1#16).toNat = s.cfg.tWait →
      let busy : Bool := s.txres = .busy
      let rx : Bool := s.seq.isReceiving
      exec .tb s = .next
        { s with
          hrdy := false, reqOut := false, txout := 0#8, tocnt := 0#16
          trace := if s.hrdy then s.trace ++ [.hrdy false] else s.trace
          txres := if busy then (if rx then .error else .timeout) else s.txres
          txreq := s.txreq && !busy
          flags := { s.flags with txdone := s.flags.txdone || busy, tmo := true }
          lasterr := if rx then .rxTimeout else .txTimeout
          rxparse := s.rxwr, rxrd := s.rxwr, rxunread := 0#10
          cnt := { s.cnt with
            timeout := s.cnt.timeout + 1#32
            rxFail := if rx then s.cnt.rxFail + 1#32 else s.cnt.rxFail
            resync := s.cnt.resync + 1#32 }
          seq := .aborting })

/-- 70_reset_and_hazards.md R350 to R352: RESET, in every state. DEN and the parameters stay, and every byte of TXB
and RXB is drawn anew: its value is the free value of the next reset count, of which nothing is known (log 6).
The model's choices: the trace, to which R350 adds no event, is not cleared either (log 16); the pending events
and the last read value stay (log 3, 5). -/
def Obligations.ResetReturnsToTheInitialState : Prop :=
  ∀ s : State, ∃ t, exec .reset s = .next t
    ∧ t.lsbFirst = false ∧ (∀ f : Flag, t.flags.test f = false) ∧ t.lasterr = .none
    ∧ t.seq = .idle ∧ t.reqOut = false ∧ t.linesFloat = false ∧ t.hrdy = false ∧ t.ovfCur = false
    ∧ t.txreq = false ∧ t.txres = .none ∧ t.txlen = 0#9 ∧ t.txidx = 0#9 ∧ t.txout = 0#8
    ∧ t.rxwr = 0#10 ∧ t.rxparse = 0#10 ∧ t.rxrd = 0#10 ∧ t.rxunread = 0#10
    ∧ t.rxcnt = 0#16 ∧ t.tocnt = 0#16
    ∧ t.cnt = { rxOk := 0#32, rxFail := 0#32, unexp := 0#32, timeout := 0#32, collision := 0#32,
                txOk := 0#32, stray := 0#32, resync := 0#32 }
    ∧ t.cfg = s.cfg ∧ t.den = s.den ∧ t.trace = s.trace
    ∧ t.inbox = s.inbox ∧ t.rdata = s.rdata
    ∧ (∀ k, t.txbByte k = Config.txbUnspecified (s.epoch + 1) k)
    ∧ ∀ k, t.rxbByte k = Config.rxbUnspecified (s.epoch + 1) k

/-! ## Byte transfers -/

/-- 20_memory.md R89 with `rev8` of 00_scope.md R11: with LSBFIRST the wire byte is the logical byte with its bits
reversed, without it the byte itself, and the order is its own inverse.
41_receive.md R180, R181; 43_protocol_tick.md R267, R270: a byte transfer is answered in every state. Parked,
it is ignored; with no request outstanding it is traced and counted as a stray; with one, the row of its
class runs after the transfer is traced and REQ_OUT cleared. In the phases of R270 that no reachable state
has with a request outstanding, nothing changes (the model's choice, log 8). -/
def Obligations.ByteDoneDispatches : Prop :=
  (∀ x : Byte, wireByte false x = x ∧ (∀ lsb, wireByte lsb (wireByte lsb x) = x)
    ∧ ∀ i, i < 8 → (wireByte true x).getLsbD i = x.getLsbD (7 - i))
  ∧ ∀ (b : Byte) (s : State),
    let x := wireByte s.lsbFirst b
    let traced := s.trace ++ [WireEvent.xfer (wireByte s.lsbFirst s.txout) b]
    let taken : State := { s with trace := traced, reqOut := false }
    (∃ t, exec (.byteDone b) s = .next t ∧ t.inbox = s.inbox)
      ∧ (s.seq = .noResponse → exec (.byteDone b) s = .next s)
      ∧ (s.seq ≠ .noResponse → s.reqOut = false →
        exec (.byteDone b) s =
          .next { s with trace := traced, cnt := { s.cnt with stray := s.cnt.stray + 1#32 } })
      ∧ (s.reqOut = true → s.seq.requestsByte = false → exec (.byteDone b) s = .next s)
      ∧ (s.reqOut = true → s.seq = .receiving .rxFirst →
        exec (.byteDone b) s =
          if x = s.cfg.syncByte then exec (.rxSync x) taken else exec (.rxUnexpected x) taken)
      ∧ (s.reqOut = true → s.seq = .receiving .rxBody →
        exec (.byteDone b) s = exec (.rxBodyByte x) taken)
      ∧ (s.reqOut = true → s.seq = .receiving .rxDrain →
        exec (.byteDone b) s = exec (.rxDrainByte x) taken)
      ∧ (s.reqOut = true → s.seq = .transmitting .txWaitCts →
        exec (.byteDone b) s =
          if x = s.cfg.ctsByte then exec (.txGrant x) taken
          else if x = s.cfg.syncByte then exec (.txCollision x) taken
          else exec (.txUnexpected x) taken)
      ∧ (s.reqOut = true → s.seq = .transmitting .txData →
        exec (.byteDone b) s = exec (.txDataByte x) taken)

/-- 41_receive.md R183, R186, R187 with RING_PUT of 20_memory.md R92: a byte stored in the ring. If the ring is
full the byte is dropped and only counted; if not, the one ring byte at RXWR is written. -/
def Obligations.StoredReceiveBytes : Prop :=
  ∀ (x : Byte) (s : State) (i : Instr), i = .rxSync x ∨ i = .rxBodyByte x →
    let after : State :=
      { s with
        seq := if i = .rxSync x then .receiving .rxBody else s.seq
        rxcnt := if s.rxcnt = 0xFFFF#16 then s.rxcnt else s.rxcnt + 1#16
        reqOut := true
        trace := if s.linesFloat then s.trace else s.trace ++ [.pulse] }
    (s.occ = s.cfg.rxbufSize - 1 →
      exec i s = .next { after with ovfCur := true, flags := { s.flags with rxovf := true } })
    ∧ (s.occ ≠ s.cfg.rxbufSize - 1 →
      ∃ t, exec i s = .next t
        ∧ t.rxwr = BitVec.ofNat 10 ((s.rxwr.toNat + 1) % s.cfg.rxbufSize)
        ∧ (∀ k, t.rxbByte k = if k = s.rxwr.toNat then x else s.rxbByte k)
        ∧ { t with rxb := s.rxb, rxwr := s.rxwr } = after)

/-- 41_receive.md R184, R185: an unexpected first byte and a drained byte are counted and not stored. -/
def Obligations.DrainedReceiveBytes : Prop :=
  ∀ (x : Byte) (s : State),
    let counted : State :=
      { s with
        rxcnt := if s.rxcnt = 0xFFFF#16 then s.rxcnt else s.rxcnt + 1#16
        reqOut := true
        trace := if s.linesFloat then s.trace else s.trace ++ [.pulse] }
    exec (.rxDrainByte x) s = .next counted
      ∧ exec (.rxUnexpected x) s = .next
        { counted with
          seq := .receiving .rxDrain
          flags := { s.flags with unexp := true }
          lasterr := .unexpectedByte
          cnt := { s.cnt with unexp := s.cnt.unexp + 1#32 } }

/-- 41_receive.md R181: STRAY counts and changes nothing else. -/
def Obligations.StrayIsCounted : Prop :=
  ∀ (x : Byte) (s : State),
    exec (.stray x) s = .next { s with cnt := { s.cnt with stray := s.cnt.stray + 1#32 } }

/-- 42_transmit_collision.md R225: GRANT. -/
def Obligations.GrantStartsTheData : Prop :=
  ∀ (x : Byte) (s : State),
    let lowered := if s.hrdy then s.trace ++ [.hrdy false] else s.trace
    exec (.txGrant x) s = .next
      { s with
        hrdy := false, txidx := 0#9, txout := s.txbByte 0, tocnt := 0#16
        seq := .transmitting .txData, reqOut := true
        trace := if s.linesFloat then lowered else lowered ++ [.pulse] }

/-- 42_transmit_collision.md R227: COLLIDE. The SYNC byte is stored as byte 0 of a reception, unless the ring is
full (R92). -/
def Obligations.CollisionHandsOverToReceive : Prop :=
  ∀ (x : Byte) (s : State),
    let lowered := if s.hrdy then s.trace ++ [.hrdy false] else s.trace
    let after : State :=
      { s with
        hrdy := false, txreq := false, txres := .retry
        flags := { s.flags with txdone := true, coll := true }
        cnt := { s.cnt with collision := s.cnt.collision + 1#32 }
        rxcnt := 1#16, ovfCur := false, tocnt := 0#16
        seq := .receiving .rxBody, reqOut := true
        trace := if s.linesFloat then lowered else lowered ++ [.pulse] }
    (s.occ = s.cfg.rxbufSize - 1 →
      exec (.txCollision x) s = .next
        { after with
          ovfCur := true, flags := { s.flags with txdone := true, coll := true, rxovf := true } })
    ∧ (s.occ ≠ s.cfg.rxbufSize - 1 →
      ∃ t, exec (.txCollision x) s = .next t
        ∧ t.rxwr = BitVec.ofNat 10 ((s.rxwr.toNat + 1) % s.cfg.rxbufSize)
        ∧ (∀ k, t.rxbByte k = if k = s.rxwr.toNat then x else s.rxbByte k)
        ∧ { t with rxb := s.rxb, rxwr := s.rxwr } = after)

/-- 42_transmit_collision.md R228: TX_UNEXPECTED. -/
def Obligations.UnexpectedGrantByteDrains : Prop :=
  ∀ (x : Byte) (s : State),
    let lowered := if s.hrdy then s.trace ++ [.hrdy false] else s.trace
    exec (.txUnexpected x) s = .next
      { s with
        hrdy := false, txreq := false, txres := .error
        flags := { s.flags with txdone := true, unexp := true }
        lasterr := .txUnexpected
        cnt := { s.cnt with unexp := s.cnt.unexp + 1#32 }
        rxcnt := 1#16, ovfCur := false, tocnt := 0#16
        seq := .receiving .rxDrain, reqOut := true
        trace := if s.linesFloat then lowered else lowered ++ [.pulse] }

/-- 42_transmit_collision.md R230, R231, R235: a byte transfer of the data phase. The device's byte `x` changes
nothing. -/
def Obligations.DataBytesAdvanceTheTransmit : Prop :=
  ∀ (x : Byte) (s : State),
    let pulsed := if s.linesFloat then s.trace else s.trace ++ [.pulse]
    exec (.txDataByte x) s = .next
      (if (s.txidx + 1#9).toNat < s.txlen.toNat
        then
          { s with
            txidx := s.txidx + 1#9, txout := s.txbByte (s.txidx + 1#9).toNat
            trace := pulsed, reqOut := true }
        else
          { s with
            txidx := s.txidx + 1#9, txout := 0#8, trace := pulsed
            txres := .complete, txreq := false, flags := { s.flags with txdone := true }
            cnt := { s.cnt with txOk := s.cnt.txOk + 1#32 }
            tocnt := 0#16, seq := .transmitting .txWaitDenLow })

/-! ## The codec -/

/-- 40_codec.md R150, R156 law 1: CKSUM is the XOR fold, and VALIDATE answers OK, with no flag, on every frame
that lies in the ring and was received without overflow. -/
def Obligations.ValidateAcceptsEveryFrame : Prop :=
  (cksum [] = 0x00#8 ∧ ∀ (bs : List Byte) (x : Byte), cksum (bs ++ [x]) = cksum bs ^^^ x)
  ∧ ∀ (s : State) (k : Nat) (body : List Byte), body.length ≤ 255 →
    s.frameBytes k (body.length + 3) = frameOf s.cfg body →
      s.validate k (body.length + 3) false = { verdict := .ok, lenBad := false, ckBad := false }

/-- 40_codec.md R156 law 2: a frame with one byte changed to a different value is never accepted, and the
checksum test fails wherever the byte is. -/
def Obligations.ValidateCatchesEveryByteChange : Prop :=
  ∀ (s : State) (k : Nat) (body : List Byte) (j : Nat) (b : Byte), body.length ≤ 255 →
    j < body.length + 3 → (frameOf s.cfg body)[j]? ≠ some b →
    s.frameBytes k (body.length + 3) = (frameOf s.cfg body).set j b →
      (s.validate k (body.length + 3) false).verdict ≠ .ok
        ∧ (s.validate k (body.length + 3) false).ckBad = true

/-- 40_codec.md R152, R153, R156 laws 3 and 4: overflow is judged before anything else; a count other than
LENGTH + 3, or below 2, always gives ERR_LENGTH whatever the checksum; and the same XOR change of two bytes
from index 2 up to the last but one is not detected. -/
def Obligations.ValidateVerdictOrder : Prop :=
  (∀ (s : State) (k n : Nat), (s.validate k n true) =
    { verdict := .errOverflow, lenBad := false, ckBad := false })
  ∧ (∀ (s : State) (k n : Nat), n < 2 ∨ n ≠ (s.frameByte k 1).toNat + 3 →
    (s.validate k n false).verdict = .errLength ∧ (s.validate k n false).lenBad = true)
  ∧ ∀ (s : State) (k : Nat) (body : List Byte) (i j : Nat) (m x y : Byte), body.length ≤ 255 →
    2 ≤ i → i < j → j ≤ body.length + 1 →
    (frameOf s.cfg body)[i]? = some x → (frameOf s.cfg body)[j]? = some y →
    s.frameBytes k (body.length + 3) =
      ((frameOf s.cfg body).set i (x ^^^ m)).set j (y ^^^ m) →
      s.validate k (body.length + 3) false = { verdict := .ok, lenBad := false, ckBad := false }

/-! ## Whole transfers -/

/-- 41_receive.md R183 to R190; 40_codec.md R156 law 1; 70_reset_and_hazards.md R371: the device sends any frame
that fits the ring and lowers DEN. The frame is accepted, its bytes stand in the ring from RXPARSE on, every
other byte of the ring stays, the frames already there among them, and every other field is as it was. -/
def Obligations.ReceptionOfAnyFrame : Prop :=
  ∀ (s : State) (body : List Byte) (rest : List Event),
    let frame := frameOf s.cfg body
    Good s → s.seq = .receiving .rxFirst → body.length ≤ 255 →
    s.occ + frame.length ≤ s.cfg.rxbufSize - 1 →
    s.inbox = transfers s.lsbFirst frame ++ .den false :: rest →
      ∃ t : State, Host.Core.run Sys2Proof.core (frame.length + 1) s = .next t
        ∧ { t with
            rxb := s.rxb, rxwr := s.rxwr, rxparse := s.rxparse, rxcnt := s.rxcnt, trace := s.trace } =
          { s with
            inbox := rest, seq := .idle, den := false, reqOut := false, tocnt := 0#16
            rxunread := s.rxunread + 1#10, cnt := { s.cnt with rxOk := s.cnt.rxOk + 1#32 } }
        ∧ t.rxcnt.toNat = frame.length ∧ t.rxparse = t.rxwr
        ∧ t.rxwr.toNat = (s.rxparse.toNat + frame.length) % s.cfg.rxbufSize
        ∧ t.frameBytes s.rxparse.toNat frame.length = frame
        ∧ (∀ k, (∀ i, i < frame.length → (s.rxparse.toNat + i) % s.cfg.rxbufSize ≠ k) →
          t.rxbByte k = s.rxbByte k)
        ∧ (∀ k, k < s.unreadSpan → t.frameByte s.rxrd.toNat k = s.frameByte s.rxrd.toNat k)
        ∧ (∀ k, t.txbByte k = s.txbByte k)
        ∧ t.trace = s.trace ++
          exchanges s.lsbFirst (List.replicate frame.length 0x00#8) frame

/-- 42_transmit_collision.md R229: in TX_WAIT_CTS the device answers with a frame of its own. The SYNC byte is
not lost, the frame is accepted, and the frame to send stays in TXB with the result RETRY. -/
def Obligations.CollisionLosesNeitherFrame : Prop :=
  ∀ (s : State) (body : List Byte) (rest : List Event),
    let frame := frameOf s.cfg body
    Good s → s.seq = .transmitting .txWaitCts → body.length ≤ 255 →
    s.occ + frame.length ≤ s.cfg.rxbufSize - 1 →
    s.inbox = transfers s.lsbFirst frame ++ .den false :: rest →
      ∃ t, Host.Core.run Sys2Proof.core (frame.length + 1) s = .next t
        ∧ t.seq = .idle ∧ t.inbox = rest
        ∧ t.rxunread = s.rxunread + 1#10
        ∧ t.frameBytes s.rxparse.toNat frame.length = frame
        ∧ t.txres = .retry ∧ t.txreq = false ∧ t.txlen = s.txlen
        ∧ (∀ k, t.txbByte k = s.txbByte k)
        ∧ t.flags = { s.flags with txdone := true, coll := true } ∧ t.lasterr = s.lasterr
        ∧ t.cnt = { s.cnt with
            rxOk := s.cnt.rxOk + 1#32, collision := s.cnt.collision + 1#32 }

/-- 20_memory.md R98, 42_transmit_collision.md R222, R225, R230 to R232, 70_reset_and_hazards.md R371: a transmit
that the device grants shifts out exactly TXB[0..TXLEN-1], with n + 2 pulses and n + 1 transfers, whatever
bytes the device shifts in, and ends COMPLETE. Every other field is as it was, all of the receive side among
them. -/
def Obligations.TransmitSendsTheBuffer : Prop :=
  ∀ (s : State) (inns : List Byte) (rest : List Event),
    let n := s.txlen.toNat
    CtrlInv s → s.seq = .transmitting .txWaitDen → inns.length = n →
    s.inbox = .den true :: transfers s.lsbFirst (s.cfg.ctsByte :: inns) ++ .den false :: rest →
      ∃ t : State, Host.Core.run Sys2Proof.core (n + 3) s = .next t
        ∧ { t with trace := s.trace } =
          { s with
            inbox := rest, seq := .idle, den := false, hrdy := false, reqOut := false, tocnt := 0#16
            txidx := s.txlen, txout := 0#8, txreq := false, txres := .complete
            flags := { s.flags with txdone := true }
            cnt := { s.cnt with txOk := s.cnt.txOk + 1#32 } }
        ∧ (∀ k, t.txbByte k = s.txbByte k) ∧ (∀ k, t.rxbByte k = s.rxbByte k)
        ∧ t.trace = s.trace ++
          [.pulse, .xfer (wireByte s.lsbFirst 0x00#8) (wireByte s.lsbFirst s.cfg.ctsByte),
            .hrdy false, .pulse] ++ exchanges s.lsbFirst (s.txbBytes n) inns

/-- 60_exceptions.md R335, R320, R323, R324; 43_protocol_tick.md R264: every wait is bounded. In any phase of a
transfer, T_WAIT - TOCNT time-base events and one TICK bring RLINK to IDLE with an empty ring, the timeout
recorded once. -/
def Obligations.EveryWaitIsBounded : Prop :=
  ∀ (s : State) (rest : List Event),
    let left := s.cfg.tWait - s.tocnt.toNat
    CtrlInv s → s.seq.quiet = false →
    s.inbox = List.replicate left .tb ++ .hostWrite .word 0x004#13 1#32 :: rest →
      ∃ t, Host.Core.run Sys2Proof.core (left + 1) s = .next t
        ∧ t.seq = .idle ∧ t.inbox = rest ∧ t.hrdy = false ∧ t.reqOut = false ∧ t.tocnt = 0#16
        ∧ t.rxparse = t.rxwr ∧ t.rxrd = t.rxwr ∧ t.rxunread = 0#10
        ∧ t.flags.tmo = true ∧ t.cnt.timeout = s.cnt.timeout + 1#32
        ∧ t.lasterr = (if s.seq.isReceiving then .rxTimeout else .txTimeout)
        ∧ t.txres ≠ .busy
end

