-- ==== Sys2Proof/Laws/State.lean ====
section
/-! SUPPORT. One lemma per field per update: what each named update leaves in each field of State, true by
unfolding the update once, so that no later proof unfolds it. The brackets of `(rfl)` keep them out of `dsimp`:
where `simp` rewrites the condition of an `if`, it then rewrites its decision with it. -/

namespace Sys2Proof.Machine

/-! ### `State.setTxb`: TXB[i] <- b -/

@[simp] theorem State.setTxb_cfg (i : Nat) (b : Byte) (s : State) :
    (s.setTxb i b).cfg = s.cfg := (rfl)
@[simp] theorem State.setTxb_lsbFirst (i : Nat) (b : Byte) (s : State) :
    (s.setTxb i b).lsbFirst = s.lsbFirst := (rfl)
@[simp] theorem State.setTxb_flags (i : Nat) (b : Byte) (s : State) :
    (s.setTxb i b).flags = s.flags := (rfl)
@[simp] theorem State.setTxb_txreq (i : Nat) (b : Byte) (s : State) :
    (s.setTxb i b).txreq = s.txreq := (rfl)
@[simp] theorem State.setTxb_seq (i : Nat) (b : Byte) (s : State) :
    (s.setTxb i b).seq = s.seq := (rfl)
@[simp] theorem State.setTxb_reqOut (i : Nat) (b : Byte) (s : State) :
    (s.setTxb i b).reqOut = s.reqOut := (rfl)
@[simp] theorem State.setTxb_linesFloat (i : Nat) (b : Byte) (s : State) :
    (s.setTxb i b).linesFloat = s.linesFloat := (rfl)
@[simp] theorem State.setTxb_den (i : Nat) (b : Byte) (s : State) :
    (s.setTxb i b).den = s.den := (rfl)
@[simp] theorem State.setTxb_hrdy (i : Nat) (b : Byte) (s : State) :
    (s.setTxb i b).hrdy = s.hrdy := (rfl)
@[simp] theorem State.setTxb_ovfCur (i : Nat) (b : Byte) (s : State) :
    (s.setTxb i b).ovfCur = s.ovfCur := (rfl)
@[simp] theorem State.setTxb_lasterr (i : Nat) (b : Byte) (s : State) :
    (s.setTxb i b).lasterr = s.lasterr := (rfl)
@[simp] theorem State.setTxb_txlen (i : Nat) (b : Byte) (s : State) :
    (s.setTxb i b).txlen = s.txlen := (rfl)
@[simp] theorem State.setTxb_txidx (i : Nat) (b : Byte) (s : State) :
    (s.setTxb i b).txidx = s.txidx := (rfl)
@[simp] theorem State.setTxb_txres (i : Nat) (b : Byte) (s : State) :
    (s.setTxb i b).txres = s.txres := (rfl)
@[simp] theorem State.setTxb_rxwr (i : Nat) (b : Byte) (s : State) :
    (s.setTxb i b).rxwr = s.rxwr := (rfl)
@[simp] theorem State.setTxb_rxparse (i : Nat) (b : Byte) (s : State) :
    (s.setTxb i b).rxparse = s.rxparse := (rfl)
@[simp] theorem State.setTxb_rxrd (i : Nat) (b : Byte) (s : State) :
    (s.setTxb i b).rxrd = s.rxrd := (rfl)
@[simp] theorem State.setTxb_rxunread (i : Nat) (b : Byte) (s : State) :
    (s.setTxb i b).rxunread = s.rxunread := (rfl)
@[simp] theorem State.setTxb_rxcnt (i : Nat) (b : Byte) (s : State) :
    (s.setTxb i b).rxcnt = s.rxcnt := (rfl)
@[simp] theorem State.setTxb_tocnt (i : Nat) (b : Byte) (s : State) :
    (s.setTxb i b).tocnt = s.tocnt := (rfl)
@[simp] theorem State.setTxb_txout (i : Nat) (b : Byte) (s : State) :
    (s.setTxb i b).txout = s.txout := (rfl)
@[simp] theorem State.setTxb_cnt (i : Nat) (b : Byte) (s : State) :
    (s.setTxb i b).cnt = s.cnt := (rfl)
@[simp] theorem State.setTxb_txb (i : Nat) (b : Byte) (s : State) :
    (s.setTxb i b).txb = Memory.put s.txb i b := (rfl)
@[simp] theorem State.setTxb_rxb (i : Nat) (b : Byte) (s : State) :
    (s.setTxb i b).rxb = s.rxb := (rfl)
@[simp] theorem State.setTxb_trace (i : Nat) (b : Byte) (s : State) :
    (s.setTxb i b).trace = s.trace := (rfl)
@[simp] theorem State.setTxb_inbox (i : Nat) (b : Byte) (s : State) :
    (s.setTxb i b).inbox = s.inbox := (rfl)
@[simp] theorem State.setTxb_rdata (i : Nat) (b : Byte) (s : State) :
    (s.setTxb i b).rdata = s.rdata := (rfl)
@[simp] theorem State.setTxb_epoch (i : Nat) (b : Byte) (s : State) :
    (s.setTxb i b).epoch = s.epoch := (rfl)

/-! ### `State.setRxb`: RXB[i] <- b -/

@[simp] theorem State.setRxb_cfg (i : Nat) (b : Byte) (s : State) :
    (s.setRxb i b).cfg = s.cfg := (rfl)
@[simp] theorem State.setRxb_lsbFirst (i : Nat) (b : Byte) (s : State) :
    (s.setRxb i b).lsbFirst = s.lsbFirst := (rfl)
@[simp] theorem State.setRxb_flags (i : Nat) (b : Byte) (s : State) :
    (s.setRxb i b).flags = s.flags := (rfl)
@[simp] theorem State.setRxb_txreq (i : Nat) (b : Byte) (s : State) :
    (s.setRxb i b).txreq = s.txreq := (rfl)
@[simp] theorem State.setRxb_seq (i : Nat) (b : Byte) (s : State) :
    (s.setRxb i b).seq = s.seq := (rfl)
@[simp] theorem State.setRxb_reqOut (i : Nat) (b : Byte) (s : State) :
    (s.setRxb i b).reqOut = s.reqOut := (rfl)
@[simp] theorem State.setRxb_linesFloat (i : Nat) (b : Byte) (s : State) :
    (s.setRxb i b).linesFloat = s.linesFloat := (rfl)
@[simp] theorem State.setRxb_den (i : Nat) (b : Byte) (s : State) :
    (s.setRxb i b).den = s.den := (rfl)
@[simp] theorem State.setRxb_hrdy (i : Nat) (b : Byte) (s : State) :
    (s.setRxb i b).hrdy = s.hrdy := (rfl)
@[simp] theorem State.setRxb_ovfCur (i : Nat) (b : Byte) (s : State) :
    (s.setRxb i b).ovfCur = s.ovfCur := (rfl)
@[simp] theorem State.setRxb_lasterr (i : Nat) (b : Byte) (s : State) :
    (s.setRxb i b).lasterr = s.lasterr := (rfl)
@[simp] theorem State.setRxb_txlen (i : Nat) (b : Byte) (s : State) :
    (s.setRxb i b).txlen = s.txlen := (rfl)
@[simp] theorem State.setRxb_txidx (i : Nat) (b : Byte) (s : State) :
    (s.setRxb i b).txidx = s.txidx := (rfl)
@[simp] theorem State.setRxb_txres (i : Nat) (b : Byte) (s : State) :
    (s.setRxb i b).txres = s.txres := (rfl)
@[simp] theorem State.setRxb_rxwr (i : Nat) (b : Byte) (s : State) :
    (s.setRxb i b).rxwr = s.rxwr := (rfl)
@[simp] theorem State.setRxb_rxparse (i : Nat) (b : Byte) (s : State) :
    (s.setRxb i b).rxparse = s.rxparse := (rfl)
@[simp] theorem State.setRxb_rxrd (i : Nat) (b : Byte) (s : State) :
    (s.setRxb i b).rxrd = s.rxrd := (rfl)
@[simp] theorem State.setRxb_rxunread (i : Nat) (b : Byte) (s : State) :
    (s.setRxb i b).rxunread = s.rxunread := (rfl)
@[simp] theorem State.setRxb_rxcnt (i : Nat) (b : Byte) (s : State) :
    (s.setRxb i b).rxcnt = s.rxcnt := (rfl)
@[simp] theorem State.setRxb_tocnt (i : Nat) (b : Byte) (s : State) :
    (s.setRxb i b).tocnt = s.tocnt := (rfl)
@[simp] theorem State.setRxb_txout (i : Nat) (b : Byte) (s : State) :
    (s.setRxb i b).txout = s.txout := (rfl)
@[simp] theorem State.setRxb_cnt (i : Nat) (b : Byte) (s : State) :
    (s.setRxb i b).cnt = s.cnt := (rfl)
@[simp] theorem State.setRxb_txb (i : Nat) (b : Byte) (s : State) :
    (s.setRxb i b).txb = s.txb := (rfl)
@[simp] theorem State.setRxb_rxb (i : Nat) (b : Byte) (s : State) :
    (s.setRxb i b).rxb = Memory.put s.rxb i b := (rfl)
@[simp] theorem State.setRxb_trace (i : Nat) (b : Byte) (s : State) :
    (s.setRxb i b).trace = s.trace := (rfl)
@[simp] theorem State.setRxb_inbox (i : Nat) (b : Byte) (s : State) :
    (s.setRxb i b).inbox = s.inbox := (rfl)
@[simp] theorem State.setRxb_rdata (i : Nat) (b : Byte) (s : State) :
    (s.setRxb i b).rdata = s.rdata := (rfl)
@[simp] theorem State.setRxb_epoch (i : Nat) (b : Byte) (s : State) :
    (s.setRxb i b).epoch = s.epoch := (rfl)

/-! ### `State.setFlagIf`: a conditional set_flag -/

@[simp] theorem State.setFlagIf_cfg (c : Bool) (f : Flag) (s : State) :
    (s.setFlagIf c f).cfg = s.cfg := (rfl)
@[simp] theorem State.setFlagIf_lsbFirst (c : Bool) (f : Flag) (s : State) :
    (s.setFlagIf c f).lsbFirst = s.lsbFirst := (rfl)
@[simp] theorem State.setFlagIf_flags (c : Bool) (f : Flag) (s : State) :
    (s.setFlagIf c f).flags = s.flags.raiseIf c f := (rfl)
@[simp] theorem State.setFlagIf_txreq (c : Bool) (f : Flag) (s : State) :
    (s.setFlagIf c f).txreq = s.txreq := (rfl)
@[simp] theorem State.setFlagIf_seq (c : Bool) (f : Flag) (s : State) :
    (s.setFlagIf c f).seq = s.seq := (rfl)
@[simp] theorem State.setFlagIf_reqOut (c : Bool) (f : Flag) (s : State) :
    (s.setFlagIf c f).reqOut = s.reqOut := (rfl)
@[simp] theorem State.setFlagIf_linesFloat (c : Bool) (f : Flag) (s : State) :
    (s.setFlagIf c f).linesFloat = s.linesFloat := (rfl)
@[simp] theorem State.setFlagIf_den (c : Bool) (f : Flag) (s : State) :
    (s.setFlagIf c f).den = s.den := (rfl)
@[simp] theorem State.setFlagIf_hrdy (c : Bool) (f : Flag) (s : State) :
    (s.setFlagIf c f).hrdy = s.hrdy := (rfl)
@[simp] theorem State.setFlagIf_ovfCur (c : Bool) (f : Flag) (s : State) :
    (s.setFlagIf c f).ovfCur = s.ovfCur := (rfl)
@[simp] theorem State.setFlagIf_lasterr (c : Bool) (f : Flag) (s : State) :
    (s.setFlagIf c f).lasterr = s.lasterr := (rfl)
@[simp] theorem State.setFlagIf_txlen (c : Bool) (f : Flag) (s : State) :
    (s.setFlagIf c f).txlen = s.txlen := (rfl)
@[simp] theorem State.setFlagIf_txidx (c : Bool) (f : Flag) (s : State) :
    (s.setFlagIf c f).txidx = s.txidx := (rfl)
@[simp] theorem State.setFlagIf_txres (c : Bool) (f : Flag) (s : State) :
    (s.setFlagIf c f).txres = s.txres := (rfl)
@[simp] theorem State.setFlagIf_rxwr (c : Bool) (f : Flag) (s : State) :
    (s.setFlagIf c f).rxwr = s.rxwr := (rfl)
@[simp] theorem State.setFlagIf_rxparse (c : Bool) (f : Flag) (s : State) :
    (s.setFlagIf c f).rxparse = s.rxparse := (rfl)
@[simp] theorem State.setFlagIf_rxrd (c : Bool) (f : Flag) (s : State) :
    (s.setFlagIf c f).rxrd = s.rxrd := (rfl)
@[simp] theorem State.setFlagIf_rxunread (c : Bool) (f : Flag) (s : State) :
    (s.setFlagIf c f).rxunread = s.rxunread := (rfl)
@[simp] theorem State.setFlagIf_rxcnt (c : Bool) (f : Flag) (s : State) :
    (s.setFlagIf c f).rxcnt = s.rxcnt := (rfl)
@[simp] theorem State.setFlagIf_tocnt (c : Bool) (f : Flag) (s : State) :
    (s.setFlagIf c f).tocnt = s.tocnt := (rfl)
@[simp] theorem State.setFlagIf_txout (c : Bool) (f : Flag) (s : State) :
    (s.setFlagIf c f).txout = s.txout := (rfl)
@[simp] theorem State.setFlagIf_cnt (c : Bool) (f : Flag) (s : State) :
    (s.setFlagIf c f).cnt = s.cnt := (rfl)
@[simp] theorem State.setFlagIf_txb (c : Bool) (f : Flag) (s : State) :
    (s.setFlagIf c f).txb = s.txb := (rfl)
@[simp] theorem State.setFlagIf_rxb (c : Bool) (f : Flag) (s : State) :
    (s.setFlagIf c f).rxb = s.rxb := (rfl)
@[simp] theorem State.setFlagIf_trace (c : Bool) (f : Flag) (s : State) :
    (s.setFlagIf c f).trace = s.trace := (rfl)
@[simp] theorem State.setFlagIf_inbox (c : Bool) (f : Flag) (s : State) :
    (s.setFlagIf c f).inbox = s.inbox := (rfl)
@[simp] theorem State.setFlagIf_rdata (c : Bool) (f : Flag) (s : State) :
    (s.setFlagIf c f).rdata = s.rdata := (rfl)
@[simp] theorem State.setFlagIf_epoch (c : Bool) (f : Flag) (s : State) :
    (s.setFlagIf c f).epoch = s.epoch := (rfl)

/-! ### `State.setFlag`: set_flag -/

@[simp] theorem State.setFlag_cfg (f : Flag) (s : State) : (s.setFlag f).cfg = s.cfg := (rfl)
@[simp] theorem State.setFlag_lsbFirst (f : Flag) (s : State) :
    (s.setFlag f).lsbFirst = s.lsbFirst := (rfl)
@[simp] theorem State.setFlag_flags (f : Flag) (s : State) :
    (s.setFlag f).flags = s.flags.raiseIf true f := (rfl)
@[simp] theorem State.setFlag_txreq (f : Flag) (s : State) : (s.setFlag f).txreq = s.txreq := (rfl)
@[simp] theorem State.setFlag_seq (f : Flag) (s : State) : (s.setFlag f).seq = s.seq := (rfl)
@[simp] theorem State.setFlag_reqOut (f : Flag) (s : State) :
    (s.setFlag f).reqOut = s.reqOut := (rfl)
@[simp] theorem State.setFlag_linesFloat (f : Flag) (s : State) :
    (s.setFlag f).linesFloat = s.linesFloat := (rfl)
@[simp] theorem State.setFlag_den (f : Flag) (s : State) : (s.setFlag f).den = s.den := (rfl)
@[simp] theorem State.setFlag_hrdy (f : Flag) (s : State) : (s.setFlag f).hrdy = s.hrdy := (rfl)
@[simp] theorem State.setFlag_ovfCur (f : Flag) (s : State) :
    (s.setFlag f).ovfCur = s.ovfCur := (rfl)
@[simp] theorem State.setFlag_lasterr (f : Flag) (s : State) :
    (s.setFlag f).lasterr = s.lasterr := (rfl)
@[simp] theorem State.setFlag_txlen (f : Flag) (s : State) : (s.setFlag f).txlen = s.txlen := (rfl)
@[simp] theorem State.setFlag_txidx (f : Flag) (s : State) : (s.setFlag f).txidx = s.txidx := (rfl)
@[simp] theorem State.setFlag_txres (f : Flag) (s : State) : (s.setFlag f).txres = s.txres := (rfl)
@[simp] theorem State.setFlag_rxwr (f : Flag) (s : State) : (s.setFlag f).rxwr = s.rxwr := (rfl)
@[simp] theorem State.setFlag_rxparse (f : Flag) (s : State) :
    (s.setFlag f).rxparse = s.rxparse := (rfl)
@[simp] theorem State.setFlag_rxrd (f : Flag) (s : State) : (s.setFlag f).rxrd = s.rxrd := (rfl)
@[simp] theorem State.setFlag_rxunread (f : Flag) (s : State) :
    (s.setFlag f).rxunread = s.rxunread := (rfl)
@[simp] theorem State.setFlag_rxcnt (f : Flag) (s : State) : (s.setFlag f).rxcnt = s.rxcnt := (rfl)
@[simp] theorem State.setFlag_tocnt (f : Flag) (s : State) : (s.setFlag f).tocnt = s.tocnt := (rfl)
@[simp] theorem State.setFlag_txout (f : Flag) (s : State) : (s.setFlag f).txout = s.txout := (rfl)
@[simp] theorem State.setFlag_cnt (f : Flag) (s : State) : (s.setFlag f).cnt = s.cnt := (rfl)
@[simp] theorem State.setFlag_txb (f : Flag) (s : State) : (s.setFlag f).txb = s.txb := (rfl)
@[simp] theorem State.setFlag_rxb (f : Flag) (s : State) : (s.setFlag f).rxb = s.rxb := (rfl)
@[simp] theorem State.setFlag_trace (f : Flag) (s : State) : (s.setFlag f).trace = s.trace := (rfl)
@[simp] theorem State.setFlag_inbox (f : Flag) (s : State) : (s.setFlag f).inbox = s.inbox := (rfl)
@[simp] theorem State.setFlag_rdata (f : Flag) (s : State) : (s.setFlag f).rdata = s.rdata := (rfl)
@[simp] theorem State.setFlag_epoch (f : Flag) (s : State) : (s.setFlag f).epoch = s.epoch := (rfl)

/-! ### `State.emit`: emit -/

@[simp] theorem State.emit_cfg (e : WireEvent) (s : State) : (s.emit e).cfg = s.cfg := (rfl)
@[simp] theorem State.emit_lsbFirst (e : WireEvent) (s : State) :
    (s.emit e).lsbFirst = s.lsbFirst := (rfl)
@[simp] theorem State.emit_flags (e : WireEvent) (s : State) : (s.emit e).flags = s.flags := (rfl)
@[simp] theorem State.emit_txreq (e : WireEvent) (s : State) : (s.emit e).txreq = s.txreq := (rfl)
@[simp] theorem State.emit_seq (e : WireEvent) (s : State) : (s.emit e).seq = s.seq := (rfl)
@[simp] theorem State.emit_reqOut (e : WireEvent) (s : State) :
    (s.emit e).reqOut = s.reqOut := (rfl)
@[simp] theorem State.emit_linesFloat (e : WireEvent) (s : State) :
    (s.emit e).linesFloat = s.linesFloat := (rfl)
@[simp] theorem State.emit_den (e : WireEvent) (s : State) : (s.emit e).den = s.den := (rfl)
@[simp] theorem State.emit_hrdy (e : WireEvent) (s : State) : (s.emit e).hrdy = s.hrdy := (rfl)
@[simp] theorem State.emit_ovfCur (e : WireEvent) (s : State) :
    (s.emit e).ovfCur = s.ovfCur := (rfl)
@[simp] theorem State.emit_lasterr (e : WireEvent) (s : State) :
    (s.emit e).lasterr = s.lasterr := (rfl)
@[simp] theorem State.emit_txlen (e : WireEvent) (s : State) : (s.emit e).txlen = s.txlen := (rfl)
@[simp] theorem State.emit_txidx (e : WireEvent) (s : State) : (s.emit e).txidx = s.txidx := (rfl)
@[simp] theorem State.emit_txres (e : WireEvent) (s : State) : (s.emit e).txres = s.txres := (rfl)
@[simp] theorem State.emit_rxwr (e : WireEvent) (s : State) : (s.emit e).rxwr = s.rxwr := (rfl)
@[simp] theorem State.emit_rxparse (e : WireEvent) (s : State) :
    (s.emit e).rxparse = s.rxparse := (rfl)
@[simp] theorem State.emit_rxrd (e : WireEvent) (s : State) : (s.emit e).rxrd = s.rxrd := (rfl)
@[simp] theorem State.emit_rxunread (e : WireEvent) (s : State) :
    (s.emit e).rxunread = s.rxunread := (rfl)
@[simp] theorem State.emit_rxcnt (e : WireEvent) (s : State) : (s.emit e).rxcnt = s.rxcnt := (rfl)
@[simp] theorem State.emit_tocnt (e : WireEvent) (s : State) : (s.emit e).tocnt = s.tocnt := (rfl)
@[simp] theorem State.emit_txout (e : WireEvent) (s : State) : (s.emit e).txout = s.txout := (rfl)
@[simp] theorem State.emit_cnt (e : WireEvent) (s : State) : (s.emit e).cnt = s.cnt := (rfl)
@[simp] theorem State.emit_txb (e : WireEvent) (s : State) : (s.emit e).txb = s.txb := (rfl)
@[simp] theorem State.emit_rxb (e : WireEvent) (s : State) : (s.emit e).rxb = s.rxb := (rfl)
@[simp] theorem State.emit_trace (e : WireEvent) (s : State) :
    (s.emit e).trace = s.trace ++ [e] := (rfl)
@[simp] theorem State.emit_inbox (e : WireEvent) (s : State) : (s.emit e).inbox = s.inbox := (rfl)
@[simp] theorem State.emit_rdata (e : WireEvent) (s : State) : (s.emit e).rdata = s.rdata := (rfl)
@[simp] theorem State.emit_epoch (e : WireEvent) (s : State) : (s.emit e).epoch = s.epoch := (rfl)

/-! ### `State.setHrdy`: HRDY <- v -/

@[simp] theorem State.setHrdy_cfg (v : Bool) (s : State) : (s.setHrdy v).cfg = s.cfg := (rfl)
@[simp] theorem State.setHrdy_lsbFirst (v : Bool) (s : State) :
    (s.setHrdy v).lsbFirst = s.lsbFirst := (rfl)
@[simp] theorem State.setHrdy_flags (v : Bool) (s : State) : (s.setHrdy v).flags = s.flags := (rfl)
@[simp] theorem State.setHrdy_txreq (v : Bool) (s : State) : (s.setHrdy v).txreq = s.txreq := (rfl)
@[simp] theorem State.setHrdy_seq (v : Bool) (s : State) : (s.setHrdy v).seq = s.seq := (rfl)
@[simp] theorem State.setHrdy_reqOut (v : Bool) (s : State) :
    (s.setHrdy v).reqOut = s.reqOut := (rfl)
@[simp] theorem State.setHrdy_linesFloat (v : Bool) (s : State) :
    (s.setHrdy v).linesFloat = s.linesFloat := (rfl)
@[simp] theorem State.setHrdy_den (v : Bool) (s : State) : (s.setHrdy v).den = s.den := (rfl)
@[simp] theorem State.setHrdy_hrdy (v : Bool) (s : State) : (s.setHrdy v).hrdy = v := (rfl)
@[simp] theorem State.setHrdy_ovfCur (v : Bool) (s : State) :
    (s.setHrdy v).ovfCur = s.ovfCur := (rfl)
@[simp] theorem State.setHrdy_lasterr (v : Bool) (s : State) :
    (s.setHrdy v).lasterr = s.lasterr := (rfl)
@[simp] theorem State.setHrdy_txlen (v : Bool) (s : State) : (s.setHrdy v).txlen = s.txlen := (rfl)
@[simp] theorem State.setHrdy_txidx (v : Bool) (s : State) : (s.setHrdy v).txidx = s.txidx := (rfl)
@[simp] theorem State.setHrdy_txres (v : Bool) (s : State) : (s.setHrdy v).txres = s.txres := (rfl)
@[simp] theorem State.setHrdy_rxwr (v : Bool) (s : State) : (s.setHrdy v).rxwr = s.rxwr := (rfl)
@[simp] theorem State.setHrdy_rxparse (v : Bool) (s : State) :
    (s.setHrdy v).rxparse = s.rxparse := (rfl)
@[simp] theorem State.setHrdy_rxrd (v : Bool) (s : State) : (s.setHrdy v).rxrd = s.rxrd := (rfl)
@[simp] theorem State.setHrdy_rxunread (v : Bool) (s : State) :
    (s.setHrdy v).rxunread = s.rxunread := (rfl)
@[simp] theorem State.setHrdy_rxcnt (v : Bool) (s : State) : (s.setHrdy v).rxcnt = s.rxcnt := (rfl)
@[simp] theorem State.setHrdy_tocnt (v : Bool) (s : State) : (s.setHrdy v).tocnt = s.tocnt := (rfl)
@[simp] theorem State.setHrdy_txout (v : Bool) (s : State) : (s.setHrdy v).txout = s.txout := (rfl)
@[simp] theorem State.setHrdy_cnt (v : Bool) (s : State) : (s.setHrdy v).cnt = s.cnt := (rfl)
@[simp] theorem State.setHrdy_txb (v : Bool) (s : State) : (s.setHrdy v).txb = s.txb := (rfl)
@[simp] theorem State.setHrdy_rxb (v : Bool) (s : State) : (s.setHrdy v).rxb = s.rxb := (rfl)
@[simp] theorem State.setHrdy_trace (v : Bool) (s : State) :
    (s.setHrdy v).trace = if s.hrdy = v then s.trace else s.trace ++ [.hrdy v] := (rfl)
@[simp] theorem State.setHrdy_inbox (v : Bool) (s : State) : (s.setHrdy v).inbox = s.inbox := (rfl)
@[simp] theorem State.setHrdy_rdata (v : Bool) (s : State) : (s.setHrdy v).rdata = s.rdata := (rfl)
@[simp] theorem State.setHrdy_epoch (v : Bool) (s : State) : (s.setHrdy v).epoch = s.epoch := (rfl)

/-! ### `State.pulseDrdy`: pulse_DRDY -/

@[simp] theorem State.pulseDrdy_cfg (s : State) : (s.pulseDrdy).cfg = s.cfg := (rfl)
@[simp] theorem State.pulseDrdy_lsbFirst (s : State) : (s.pulseDrdy).lsbFirst = s.lsbFirst := (rfl)
@[simp] theorem State.pulseDrdy_flags (s : State) : (s.pulseDrdy).flags = s.flags := (rfl)
@[simp] theorem State.pulseDrdy_txreq (s : State) : (s.pulseDrdy).txreq = s.txreq := (rfl)
@[simp] theorem State.pulseDrdy_seq (s : State) : (s.pulseDrdy).seq = s.seq := (rfl)
@[simp] theorem State.pulseDrdy_reqOut (s : State) : (s.pulseDrdy).reqOut = s.reqOut := (rfl)
@[simp] theorem State.pulseDrdy_linesFloat (s : State) :
    (s.pulseDrdy).linesFloat = s.linesFloat := (rfl)
@[simp] theorem State.pulseDrdy_den (s : State) : (s.pulseDrdy).den = s.den := (rfl)
@[simp] theorem State.pulseDrdy_hrdy (s : State) : (s.pulseDrdy).hrdy = s.hrdy := (rfl)
@[simp] theorem State.pulseDrdy_ovfCur (s : State) : (s.pulseDrdy).ovfCur = s.ovfCur := (rfl)
@[simp] theorem State.pulseDrdy_lasterr (s : State) : (s.pulseDrdy).lasterr = s.lasterr := (rfl)
@[simp] theorem State.pulseDrdy_txlen (s : State) : (s.pulseDrdy).txlen = s.txlen := (rfl)
@[simp] theorem State.pulseDrdy_txidx (s : State) : (s.pulseDrdy).txidx = s.txidx := (rfl)
@[simp] theorem State.pulseDrdy_txres (s : State) : (s.pulseDrdy).txres = s.txres := (rfl)
@[simp] theorem State.pulseDrdy_rxwr (s : State) : (s.pulseDrdy).rxwr = s.rxwr := (rfl)
@[simp] theorem State.pulseDrdy_rxparse (s : State) : (s.pulseDrdy).rxparse = s.rxparse := (rfl)
@[simp] theorem State.pulseDrdy_rxrd (s : State) : (s.pulseDrdy).rxrd = s.rxrd := (rfl)
@[simp] theorem State.pulseDrdy_rxunread (s : State) : (s.pulseDrdy).rxunread = s.rxunread := (rfl)
@[simp] theorem State.pulseDrdy_rxcnt (s : State) : (s.pulseDrdy).rxcnt = s.rxcnt := (rfl)
@[simp] theorem State.pulseDrdy_tocnt (s : State) : (s.pulseDrdy).tocnt = s.tocnt := (rfl)
@[simp] theorem State.pulseDrdy_txout (s : State) : (s.pulseDrdy).txout = s.txout := (rfl)
@[simp] theorem State.pulseDrdy_cnt (s : State) : (s.pulseDrdy).cnt = s.cnt := (rfl)
@[simp] theorem State.pulseDrdy_txb (s : State) : (s.pulseDrdy).txb = s.txb := (rfl)
@[simp] theorem State.pulseDrdy_rxb (s : State) : (s.pulseDrdy).rxb = s.rxb := (rfl)
@[simp] theorem State.pulseDrdy_trace (s : State) :
    (s.pulseDrdy).trace = if s.linesFloat then s.trace else s.trace ++ [.pulse] := (rfl)
@[simp] theorem State.pulseDrdy_inbox (s : State) : (s.pulseDrdy).inbox = s.inbox := (rfl)
@[simp] theorem State.pulseDrdy_rdata (s : State) : (s.pulseDrdy).rdata = s.rdata := (rfl)
@[simp] theorem State.pulseDrdy_epoch (s : State) : (s.pulseDrdy).epoch = s.epoch := (rfl)

/-! ### `State.requestByte`: pulse_DRDY; REQ_OUT <- 1 -/

@[simp] theorem State.requestByte_cfg (s : State) : (s.requestByte).cfg = s.cfg := (rfl)
@[simp] theorem State.requestByte_lsbFirst (s : State) :
    (s.requestByte).lsbFirst = s.lsbFirst := (rfl)
@[simp] theorem State.requestByte_flags (s : State) : (s.requestByte).flags = s.flags := (rfl)
@[simp] theorem State.requestByte_txreq (s : State) : (s.requestByte).txreq = s.txreq := (rfl)
@[simp] theorem State.requestByte_seq (s : State) : (s.requestByte).seq = s.seq := (rfl)
@[simp] theorem State.requestByte_reqOut (s : State) : (s.requestByte).reqOut = true := (rfl)
@[simp] theorem State.requestByte_linesFloat (s : State) :
    (s.requestByte).linesFloat = s.linesFloat := (rfl)
@[simp] theorem State.requestByte_den (s : State) : (s.requestByte).den = s.den := (rfl)
@[simp] theorem State.requestByte_hrdy (s : State) : (s.requestByte).hrdy = s.hrdy := (rfl)
@[simp] theorem State.requestByte_ovfCur (s : State) : (s.requestByte).ovfCur = s.ovfCur := (rfl)
@[simp] theorem State.requestByte_lasterr (s : State) : (s.requestByte).lasterr = s.lasterr := (rfl)
@[simp] theorem State.requestByte_txlen (s : State) : (s.requestByte).txlen = s.txlen := (rfl)
@[simp] theorem State.requestByte_txidx (s : State) : (s.requestByte).txidx = s.txidx := (rfl)
@[simp] theorem State.requestByte_txres (s : State) : (s.requestByte).txres = s.txres := (rfl)
@[simp] theorem State.requestByte_rxwr (s : State) : (s.requestByte).rxwr = s.rxwr := (rfl)
@[simp] theorem State.requestByte_rxparse (s : State) : (s.requestByte).rxparse = s.rxparse := (rfl)
@[simp] theorem State.requestByte_rxrd (s : State) : (s.requestByte).rxrd = s.rxrd := (rfl)
@[simp] theorem State.requestByte_rxunread (s : State) :
    (s.requestByte).rxunread = s.rxunread := (rfl)
@[simp] theorem State.requestByte_rxcnt (s : State) : (s.requestByte).rxcnt = s.rxcnt := (rfl)
@[simp] theorem State.requestByte_tocnt (s : State) : (s.requestByte).tocnt = s.tocnt := (rfl)
@[simp] theorem State.requestByte_txout (s : State) : (s.requestByte).txout = s.txout := (rfl)
@[simp] theorem State.requestByte_cnt (s : State) : (s.requestByte).cnt = s.cnt := (rfl)
@[simp] theorem State.requestByte_txb (s : State) : (s.requestByte).txb = s.txb := (rfl)
@[simp] theorem State.requestByte_rxb (s : State) : (s.requestByte).rxb = s.rxb := (rfl)
@[simp] theorem State.requestByte_trace (s : State) :
    (s.requestByte).trace = if s.linesFloat then s.trace else s.trace ++ [.pulse] := (rfl)
@[simp] theorem State.requestByte_inbox (s : State) : (s.requestByte).inbox = s.inbox := (rfl)
@[simp] theorem State.requestByte_rdata (s : State) : (s.requestByte).rdata = s.rdata := (rfl)
@[simp] theorem State.requestByte_epoch (s : State) : (s.requestByte).epoch = s.epoch := (rfl)

/-! ### `State.goto`: goto -/

@[simp] theorem State.goto_cfg (q : SeqState) (s : State) : (s.goto q).cfg = s.cfg := (rfl)
@[simp] theorem State.goto_lsbFirst (q : SeqState) (s : State) :
    (s.goto q).lsbFirst = s.lsbFirst := (rfl)
@[simp] theorem State.goto_flags (q : SeqState) (s : State) : (s.goto q).flags = s.flags := (rfl)
@[simp] theorem State.goto_txreq (q : SeqState) (s : State) : (s.goto q).txreq = s.txreq := (rfl)
@[simp] theorem State.goto_seq (q : SeqState) (s : State) : (s.goto q).seq = q := (rfl)
@[simp] theorem State.goto_reqOut (q : SeqState) (s : State) : (s.goto q).reqOut = s.reqOut := (rfl)
@[simp] theorem State.goto_linesFloat (q : SeqState) (s : State) :
    (s.goto q).linesFloat = s.linesFloat := (rfl)
@[simp] theorem State.goto_den (q : SeqState) (s : State) : (s.goto q).den = s.den := (rfl)
@[simp] theorem State.goto_hrdy (q : SeqState) (s : State) : (s.goto q).hrdy = s.hrdy := (rfl)
@[simp] theorem State.goto_ovfCur (q : SeqState) (s : State) : (s.goto q).ovfCur = s.ovfCur := (rfl)
@[simp] theorem State.goto_lasterr (q : SeqState) (s : State) :
    (s.goto q).lasterr = s.lasterr := (rfl)
@[simp] theorem State.goto_txlen (q : SeqState) (s : State) : (s.goto q).txlen = s.txlen := (rfl)
@[simp] theorem State.goto_txidx (q : SeqState) (s : State) : (s.goto q).txidx = s.txidx := (rfl)
@[simp] theorem State.goto_txres (q : SeqState) (s : State) : (s.goto q).txres = s.txres := (rfl)
@[simp] theorem State.goto_rxwr (q : SeqState) (s : State) : (s.goto q).rxwr = s.rxwr := (rfl)
@[simp] theorem State.goto_rxparse (q : SeqState) (s : State) :
    (s.goto q).rxparse = s.rxparse := (rfl)
@[simp] theorem State.goto_rxrd (q : SeqState) (s : State) : (s.goto q).rxrd = s.rxrd := (rfl)
@[simp] theorem State.goto_rxunread (q : SeqState) (s : State) :
    (s.goto q).rxunread = s.rxunread := (rfl)
@[simp] theorem State.goto_rxcnt (q : SeqState) (s : State) : (s.goto q).rxcnt = s.rxcnt := (rfl)
@[simp] theorem State.goto_tocnt (q : SeqState) (s : State) : (s.goto q).tocnt = s.tocnt := (rfl)
@[simp] theorem State.goto_txout (q : SeqState) (s : State) : (s.goto q).txout = s.txout := (rfl)
@[simp] theorem State.goto_cnt (q : SeqState) (s : State) : (s.goto q).cnt = s.cnt := (rfl)
@[simp] theorem State.goto_txb (q : SeqState) (s : State) : (s.goto q).txb = s.txb := (rfl)
@[simp] theorem State.goto_rxb (q : SeqState) (s : State) : (s.goto q).rxb = s.rxb := (rfl)
@[simp] theorem State.goto_trace (q : SeqState) (s : State) : (s.goto q).trace = s.trace := (rfl)
@[simp] theorem State.goto_inbox (q : SeqState) (s : State) : (s.goto q).inbox = s.inbox := (rfl)
@[simp] theorem State.goto_rdata (q : SeqState) (s : State) : (s.goto q).rdata = s.rdata := (rfl)
@[simp] theorem State.goto_epoch (q : SeqState) (s : State) : (s.goto q).epoch = s.epoch := (rfl)

/-! ### `State.countRxByte`: the count of a received byte -/

@[simp] theorem State.countRxByte_cfg (s : State) : (s.countRxByte).cfg = s.cfg := (rfl)
@[simp] theorem State.countRxByte_lsbFirst (s : State) :
    (s.countRxByte).lsbFirst = s.lsbFirst := (rfl)
@[simp] theorem State.countRxByte_flags (s : State) : (s.countRxByte).flags = s.flags := (rfl)
@[simp] theorem State.countRxByte_txreq (s : State) : (s.countRxByte).txreq = s.txreq := (rfl)
@[simp] theorem State.countRxByte_seq (s : State) : (s.countRxByte).seq = s.seq := (rfl)
@[simp] theorem State.countRxByte_reqOut (s : State) : (s.countRxByte).reqOut = s.reqOut := (rfl)
@[simp] theorem State.countRxByte_linesFloat (s : State) :
    (s.countRxByte).linesFloat = s.linesFloat := (rfl)
@[simp] theorem State.countRxByte_den (s : State) : (s.countRxByte).den = s.den := (rfl)
@[simp] theorem State.countRxByte_hrdy (s : State) : (s.countRxByte).hrdy = s.hrdy := (rfl)
@[simp] theorem State.countRxByte_ovfCur (s : State) : (s.countRxByte).ovfCur = s.ovfCur := (rfl)
@[simp] theorem State.countRxByte_lasterr (s : State) : (s.countRxByte).lasterr = s.lasterr := (rfl)
@[simp] theorem State.countRxByte_txlen (s : State) : (s.countRxByte).txlen = s.txlen := (rfl)
@[simp] theorem State.countRxByte_txidx (s : State) : (s.countRxByte).txidx = s.txidx := (rfl)
@[simp] theorem State.countRxByte_txres (s : State) : (s.countRxByte).txres = s.txres := (rfl)
@[simp] theorem State.countRxByte_rxwr (s : State) : (s.countRxByte).rxwr = s.rxwr := (rfl)
@[simp] theorem State.countRxByte_rxparse (s : State) : (s.countRxByte).rxparse = s.rxparse := (rfl)
@[simp] theorem State.countRxByte_rxrd (s : State) : (s.countRxByte).rxrd = s.rxrd := (rfl)
@[simp] theorem State.countRxByte_rxunread (s : State) :
    (s.countRxByte).rxunread = s.rxunread := (rfl)
@[simp] theorem State.countRxByte_rxcnt (s : State) :
    (s.countRxByte).rxcnt = sat16Succ s.rxcnt := (rfl)
@[simp] theorem State.countRxByte_tocnt (s : State) : (s.countRxByte).tocnt = s.tocnt := (rfl)
@[simp] theorem State.countRxByte_txout (s : State) : (s.countRxByte).txout = s.txout := (rfl)
@[simp] theorem State.countRxByte_cnt (s : State) : (s.countRxByte).cnt = s.cnt := (rfl)
@[simp] theorem State.countRxByte_txb (s : State) : (s.countRxByte).txb = s.txb := (rfl)
@[simp] theorem State.countRxByte_rxb (s : State) : (s.countRxByte).rxb = s.rxb := (rfl)
@[simp] theorem State.countRxByte_trace (s : State) : (s.countRxByte).trace = s.trace := (rfl)
@[simp] theorem State.countRxByte_inbox (s : State) : (s.countRxByte).inbox = s.inbox := (rfl)
@[simp] theorem State.countRxByte_rdata (s : State) : (s.countRxByte).rdata = s.rdata := (rfl)
@[simp] theorem State.countRxByte_epoch (s : State) : (s.countRxByte).epoch = s.epoch := (rfl)

/-! ### `State.ringPut`: RING_PUT -/

@[simp] theorem State.ringPut_cfg (x : Byte) (s : State) : (s.ringPut x).cfg = s.cfg := (rfl)
@[simp] theorem State.ringPut_lsbFirst (x : Byte) (s : State) :
    (s.ringPut x).lsbFirst = s.lsbFirst := (rfl)
@[simp] theorem State.ringPut_flags (x : Byte) (s : State) :
    (s.ringPut x).flags = s.flags.raiseIf s.ringFull .rxovf := (rfl)
@[simp] theorem State.ringPut_txreq (x : Byte) (s : State) : (s.ringPut x).txreq = s.txreq := (rfl)
@[simp] theorem State.ringPut_seq (x : Byte) (s : State) : (s.ringPut x).seq = s.seq := (rfl)
@[simp] theorem State.ringPut_reqOut (x : Byte) (s : State) :
    (s.ringPut x).reqOut = s.reqOut := (rfl)
@[simp] theorem State.ringPut_linesFloat (x : Byte) (s : State) :
    (s.ringPut x).linesFloat = s.linesFloat := (rfl)
@[simp] theorem State.ringPut_den (x : Byte) (s : State) : (s.ringPut x).den = s.den := (rfl)
@[simp] theorem State.ringPut_hrdy (x : Byte) (s : State) : (s.ringPut x).hrdy = s.hrdy := (rfl)
@[simp] theorem State.ringPut_ovfCur (x : Byte) (s : State) :
    (s.ringPut x).ovfCur = (s.ovfCur || s.ringFull) := (rfl)
@[simp] theorem State.ringPut_lasterr (x : Byte) (s : State) :
    (s.ringPut x).lasterr = s.lasterr := (rfl)
@[simp] theorem State.ringPut_txlen (x : Byte) (s : State) : (s.ringPut x).txlen = s.txlen := (rfl)
@[simp] theorem State.ringPut_txidx (x : Byte) (s : State) : (s.ringPut x).txidx = s.txidx := (rfl)
@[simp] theorem State.ringPut_txres (x : Byte) (s : State) : (s.ringPut x).txres = s.txres := (rfl)
@[simp] theorem State.ringPut_rxwr (x : Byte) (s : State) :
    (s.ringPut x).rxwr = if s.ringFull then s.rxwr else s.advance s.rxwr 1 := (rfl)
@[simp] theorem State.ringPut_rxparse (x : Byte) (s : State) :
    (s.ringPut x).rxparse = s.rxparse := (rfl)
@[simp] theorem State.ringPut_rxrd (x : Byte) (s : State) : (s.ringPut x).rxrd = s.rxrd := (rfl)
@[simp] theorem State.ringPut_rxunread (x : Byte) (s : State) :
    (s.ringPut x).rxunread = s.rxunread := (rfl)
@[simp] theorem State.ringPut_rxcnt (x : Byte) (s : State) :
    (s.ringPut x).rxcnt = sat16Succ s.rxcnt := (rfl)
@[simp] theorem State.ringPut_tocnt (x : Byte) (s : State) : (s.ringPut x).tocnt = s.tocnt := (rfl)
@[simp] theorem State.ringPut_txout (x : Byte) (s : State) : (s.ringPut x).txout = s.txout := (rfl)
@[simp] theorem State.ringPut_cnt (x : Byte) (s : State) : (s.ringPut x).cnt = s.cnt := (rfl)
@[simp] theorem State.ringPut_txb (x : Byte) (s : State) : (s.ringPut x).txb = s.txb := (rfl)
@[simp] theorem State.ringPut_rxb (x : Byte) (s : State) :
    (s.ringPut x).rxb = if s.ringFull then s.rxb else Memory.put s.rxb s.rxwr.toNat x := (rfl)
@[simp] theorem State.ringPut_trace (x : Byte) (s : State) : (s.ringPut x).trace = s.trace := (rfl)
@[simp] theorem State.ringPut_inbox (x : Byte) (s : State) : (s.ringPut x).inbox = s.inbox := (rfl)
@[simp] theorem State.ringPut_rdata (x : Byte) (s : State) : (s.ringPut x).rdata = s.rdata := (rfl)
@[simp] theorem State.ringPut_epoch (x : Byte) (s : State) : (s.ringPut x).epoch = s.epoch := (rfl)

/-! ### `State.resync`: RESYNC -/

@[simp] theorem State.resync_cfg (s : State) : (s.resync).cfg = s.cfg := (rfl)
@[simp] theorem State.resync_lsbFirst (s : State) : (s.resync).lsbFirst = s.lsbFirst := (rfl)
@[simp] theorem State.resync_flags (s : State) : (s.resync).flags = s.flags := (rfl)
@[simp] theorem State.resync_txreq (s : State) : (s.resync).txreq = s.txreq := (rfl)
@[simp] theorem State.resync_seq (s : State) : (s.resync).seq = s.seq := (rfl)
@[simp] theorem State.resync_reqOut (s : State) : (s.resync).reqOut = s.reqOut := (rfl)
@[simp] theorem State.resync_linesFloat (s : State) : (s.resync).linesFloat = s.linesFloat := (rfl)
@[simp] theorem State.resync_den (s : State) : (s.resync).den = s.den := (rfl)
@[simp] theorem State.resync_hrdy (s : State) : (s.resync).hrdy = s.hrdy := (rfl)
@[simp] theorem State.resync_ovfCur (s : State) : (s.resync).ovfCur = s.ovfCur := (rfl)
@[simp] theorem State.resync_lasterr (s : State) : (s.resync).lasterr = s.lasterr := (rfl)
@[simp] theorem State.resync_txlen (s : State) : (s.resync).txlen = s.txlen := (rfl)
@[simp] theorem State.resync_txidx (s : State) : (s.resync).txidx = s.txidx := (rfl)
@[simp] theorem State.resync_txres (s : State) : (s.resync).txres = s.txres := (rfl)
@[simp] theorem State.resync_rxwr (s : State) : (s.resync).rxwr = s.rxwr := (rfl)
@[simp] theorem State.resync_rxparse (s : State) : (s.resync).rxparse = s.rxwr := (rfl)
@[simp] theorem State.resync_rxrd (s : State) : (s.resync).rxrd = s.rxwr := (rfl)
@[simp] theorem State.resync_rxunread (s : State) : (s.resync).rxunread = 0#10 := (rfl)
@[simp] theorem State.resync_rxcnt (s : State) : (s.resync).rxcnt = s.rxcnt := (rfl)
@[simp] theorem State.resync_tocnt (s : State) : (s.resync).tocnt = s.tocnt := (rfl)
@[simp] theorem State.resync_txout (s : State) : (s.resync).txout = s.txout := (rfl)
@[simp] theorem State.resync_cnt (s : State) :
    (s.resync).cnt = { s.cnt with resync := s.cnt.resync + 1#32 } := (rfl)
@[simp] theorem State.resync_txb (s : State) : (s.resync).txb = s.txb := (rfl)
@[simp] theorem State.resync_rxb (s : State) : (s.resync).rxb = s.rxb := (rfl)
@[simp] theorem State.resync_trace (s : State) : (s.resync).trace = s.trace := (rfl)
@[simp] theorem State.resync_inbox (s : State) : (s.resync).inbox = s.inbox := (rfl)
@[simp] theorem State.resync_rdata (s : State) : (s.resync).rdata = s.rdata := (rfl)
@[simp] theorem State.resync_epoch (s : State) : (s.resync).epoch = s.epoch := (rfl)

/-! ### `State.endTransmit`: the end of a transmit -/

@[simp] theorem State.endTransmit_cfg (r : TxRes) (s : State) :
    (s.endTransmit r).cfg = s.cfg := (rfl)
@[simp] theorem State.endTransmit_lsbFirst (r : TxRes) (s : State) :
    (s.endTransmit r).lsbFirst = s.lsbFirst := (rfl)
@[simp] theorem State.endTransmit_flags (r : TxRes) (s : State) :
    (s.endTransmit r).flags = s.flags.raiseIf true .txdone := (rfl)
@[simp] theorem State.endTransmit_txreq (r : TxRes) (s : State) :
    (s.endTransmit r).txreq = false := (rfl)
@[simp] theorem State.endTransmit_seq (r : TxRes) (s : State) :
    (s.endTransmit r).seq = s.seq := (rfl)
@[simp] theorem State.endTransmit_reqOut (r : TxRes) (s : State) :
    (s.endTransmit r).reqOut = s.reqOut := (rfl)
@[simp] theorem State.endTransmit_linesFloat (r : TxRes) (s : State) :
    (s.endTransmit r).linesFloat = s.linesFloat := (rfl)
@[simp] theorem State.endTransmit_den (r : TxRes) (s : State) :
    (s.endTransmit r).den = s.den := (rfl)
@[simp] theorem State.endTransmit_hrdy (r : TxRes) (s : State) :
    (s.endTransmit r).hrdy = s.hrdy := (rfl)
@[simp] theorem State.endTransmit_ovfCur (r : TxRes) (s : State) :
    (s.endTransmit r).ovfCur = s.ovfCur := (rfl)
@[simp] theorem State.endTransmit_lasterr (r : TxRes) (s : State) :
    (s.endTransmit r).lasterr = s.lasterr := (rfl)
@[simp] theorem State.endTransmit_txlen (r : TxRes) (s : State) :
    (s.endTransmit r).txlen = s.txlen := (rfl)
@[simp] theorem State.endTransmit_txidx (r : TxRes) (s : State) :
    (s.endTransmit r).txidx = s.txidx := (rfl)
@[simp] theorem State.endTransmit_txres (r : TxRes) (s : State) :
    (s.endTransmit r).txres = r := (rfl)
@[simp] theorem State.endTransmit_rxwr (r : TxRes) (s : State) :
    (s.endTransmit r).rxwr = s.rxwr := (rfl)
@[simp] theorem State.endTransmit_rxparse (r : TxRes) (s : State) :
    (s.endTransmit r).rxparse = s.rxparse := (rfl)
@[simp] theorem State.endTransmit_rxrd (r : TxRes) (s : State) :
    (s.endTransmit r).rxrd = s.rxrd := (rfl)
@[simp] theorem State.endTransmit_rxunread (r : TxRes) (s : State) :
    (s.endTransmit r).rxunread = s.rxunread := (rfl)
@[simp] theorem State.endTransmit_rxcnt (r : TxRes) (s : State) :
    (s.endTransmit r).rxcnt = s.rxcnt := (rfl)
@[simp] theorem State.endTransmit_tocnt (r : TxRes) (s : State) :
    (s.endTransmit r).tocnt = s.tocnt := (rfl)
@[simp] theorem State.endTransmit_txout (r : TxRes) (s : State) :
    (s.endTransmit r).txout = s.txout := (rfl)
@[simp] theorem State.endTransmit_cnt (r : TxRes) (s : State) :
    (s.endTransmit r).cnt = s.cnt := (rfl)
@[simp] theorem State.endTransmit_txb (r : TxRes) (s : State) :
    (s.endTransmit r).txb = s.txb := (rfl)
@[simp] theorem State.endTransmit_rxb (r : TxRes) (s : State) :
    (s.endTransmit r).rxb = s.rxb := (rfl)
@[simp] theorem State.endTransmit_trace (r : TxRes) (s : State) :
    (s.endTransmit r).trace = s.trace := (rfl)
@[simp] theorem State.endTransmit_inbox (r : TxRes) (s : State) :
    (s.endTransmit r).inbox = s.inbox := (rfl)
@[simp] theorem State.endTransmit_rdata (r : TxRes) (s : State) :
    (s.endTransmit r).rdata = s.rdata := (rfl)
@[simp] theorem State.endTransmit_epoch (r : TxRes) (s : State) :
    (s.endTransmit r).epoch = s.epoch := (rfl)

/-! ### `State.clearInFlight`: the clearing of the in-flight flags -/

@[simp] theorem State.clearInFlight_cfg (s : State) : (s.clearInFlight).cfg = s.cfg := (rfl)
@[simp] theorem State.clearInFlight_lsbFirst (s : State) :
    (s.clearInFlight).lsbFirst = s.lsbFirst := (rfl)
@[simp] theorem State.clearInFlight_flags (s : State) : (s.clearInFlight).flags = s.flags := (rfl)
@[simp] theorem State.clearInFlight_txreq (s : State) : (s.clearInFlight).txreq = s.txreq := (rfl)
@[simp] theorem State.clearInFlight_seq (s : State) : (s.clearInFlight).seq = s.seq := (rfl)
@[simp] theorem State.clearInFlight_reqOut (s : State) : (s.clearInFlight).reqOut = false := (rfl)
@[simp] theorem State.clearInFlight_linesFloat (s : State) :
    (s.clearInFlight).linesFloat = s.linesFloat := (rfl)
@[simp] theorem State.clearInFlight_den (s : State) : (s.clearInFlight).den = s.den := (rfl)
@[simp] theorem State.clearInFlight_hrdy (s : State) : (s.clearInFlight).hrdy = false := (rfl)
@[simp] theorem State.clearInFlight_ovfCur (s : State) :
    (s.clearInFlight).ovfCur = s.ovfCur := (rfl)
@[simp] theorem State.clearInFlight_lasterr (s : State) :
    (s.clearInFlight).lasterr = s.lasterr := (rfl)
@[simp] theorem State.clearInFlight_txlen (s : State) : (s.clearInFlight).txlen = s.txlen := (rfl)
@[simp] theorem State.clearInFlight_txidx (s : State) : (s.clearInFlight).txidx = s.txidx := (rfl)
@[simp] theorem State.clearInFlight_txres (s : State) : (s.clearInFlight).txres = s.txres := (rfl)
@[simp] theorem State.clearInFlight_rxwr (s : State) : (s.clearInFlight).rxwr = s.rxwr := (rfl)
@[simp] theorem State.clearInFlight_rxparse (s : State) :
    (s.clearInFlight).rxparse = s.rxparse := (rfl)
@[simp] theorem State.clearInFlight_rxrd (s : State) : (s.clearInFlight).rxrd = s.rxrd := (rfl)
@[simp] theorem State.clearInFlight_rxunread (s : State) :
    (s.clearInFlight).rxunread = s.rxunread := (rfl)
@[simp] theorem State.clearInFlight_rxcnt (s : State) : (s.clearInFlight).rxcnt = s.rxcnt := (rfl)
@[simp] theorem State.clearInFlight_tocnt (s : State) : (s.clearInFlight).tocnt = 0#16 := (rfl)
@[simp] theorem State.clearInFlight_txout (s : State) : (s.clearInFlight).txout = 0#8 := (rfl)
@[simp] theorem State.clearInFlight_cnt (s : State) : (s.clearInFlight).cnt = s.cnt := (rfl)
@[simp] theorem State.clearInFlight_txb (s : State) : (s.clearInFlight).txb = s.txb := (rfl)
@[simp] theorem State.clearInFlight_rxb (s : State) : (s.clearInFlight).rxb = s.rxb := (rfl)
@[simp] theorem State.clearInFlight_trace (s : State) :
    (s.clearInFlight).trace = if s.hrdy = false then s.trace else s.trace ++ [.hrdy false] := (rfl)
@[simp] theorem State.clearInFlight_inbox (s : State) : (s.clearInFlight).inbox = s.inbox := (rfl)
@[simp] theorem State.clearInFlight_rdata (s : State) : (s.clearInFlight).rdata = s.rdata := (rfl)
@[simp] theorem State.clearInFlight_epoch (s : State) : (s.clearInFlight).epoch = s.epoch := (rfl)

/-! ### `State.abortTransmit`: the end an abort gives a transmit -/

@[simp] theorem State.abortTransmit_cfg (c : Cause) (s : State) :
    (s.abortTransmit c).cfg = s.cfg := (rfl)
@[simp] theorem State.abortTransmit_lsbFirst (c : Cause) (s : State) :
    (s.abortTransmit c).lsbFirst = s.lsbFirst := (rfl)
@[simp] theorem State.abortTransmit_flags (c : Cause) (s : State) :
    (s.abortTransmit c).flags = s.flags.raiseIf (s.txres == .busy) .txdone := (rfl)
@[simp] theorem State.abortTransmit_txreq (c : Cause) (s : State) :
    (s.abortTransmit c).txreq = (s.txreq && s.txres != .busy) := (rfl)
@[simp] theorem State.abortTransmit_seq (c : Cause) (s : State) :
    (s.abortTransmit c).seq = s.seq := (rfl)
@[simp] theorem State.abortTransmit_reqOut (c : Cause) (s : State) :
    (s.abortTransmit c).reqOut = s.reqOut := (rfl)
@[simp] theorem State.abortTransmit_linesFloat (c : Cause) (s : State) :
    (s.abortTransmit c).linesFloat = s.linesFloat := (rfl)
@[simp] theorem State.abortTransmit_den (c : Cause) (s : State) :
    (s.abortTransmit c).den = s.den := (rfl)
@[simp] theorem State.abortTransmit_hrdy (c : Cause) (s : State) :
    (s.abortTransmit c).hrdy = s.hrdy := (rfl)
@[simp] theorem State.abortTransmit_ovfCur (c : Cause) (s : State) :
    (s.abortTransmit c).ovfCur = s.ovfCur := (rfl)
@[simp] theorem State.abortTransmit_lasterr (c : Cause) (s : State) :
    (s.abortTransmit c).lasterr = s.lasterr := (rfl)
@[simp] theorem State.abortTransmit_txlen (c : Cause) (s : State) :
    (s.abortTransmit c).txlen = s.txlen := (rfl)
@[simp] theorem State.abortTransmit_txidx (c : Cause) (s : State) :
    (s.abortTransmit c).txidx = s.txidx := (rfl)
@[simp] theorem State.abortTransmit_txres (c : Cause) (s : State) :
    (s.abortTransmit c).txres = if s.txres = .busy then c.txResult else s.txres := (rfl)
@[simp] theorem State.abortTransmit_rxwr (c : Cause) (s : State) :
    (s.abortTransmit c).rxwr = s.rxwr := (rfl)
@[simp] theorem State.abortTransmit_rxparse (c : Cause) (s : State) :
    (s.abortTransmit c).rxparse = s.rxparse := (rfl)
@[simp] theorem State.abortTransmit_rxrd (c : Cause) (s : State) :
    (s.abortTransmit c).rxrd = s.rxrd := (rfl)
@[simp] theorem State.abortTransmit_rxunread (c : Cause) (s : State) :
    (s.abortTransmit c).rxunread = s.rxunread := (rfl)
@[simp] theorem State.abortTransmit_rxcnt (c : Cause) (s : State) :
    (s.abortTransmit c).rxcnt = s.rxcnt := (rfl)
@[simp] theorem State.abortTransmit_tocnt (c : Cause) (s : State) :
    (s.abortTransmit c).tocnt = s.tocnt := (rfl)
@[simp] theorem State.abortTransmit_txout (c : Cause) (s : State) :
    (s.abortTransmit c).txout = s.txout := (rfl)
@[simp] theorem State.abortTransmit_cnt (c : Cause) (s : State) :
    (s.abortTransmit c).cnt = s.cnt := (rfl)
@[simp] theorem State.abortTransmit_txb (c : Cause) (s : State) :
    (s.abortTransmit c).txb = s.txb := (rfl)
@[simp] theorem State.abortTransmit_rxb (c : Cause) (s : State) :
    (s.abortTransmit c).rxb = s.rxb := (rfl)
@[simp] theorem State.abortTransmit_trace (c : Cause) (s : State) :
    (s.abortTransmit c).trace = s.trace := (rfl)
@[simp] theorem State.abortTransmit_inbox (c : Cause) (s : State) :
    (s.abortTransmit c).inbox = s.inbox := (rfl)
@[simp] theorem State.abortTransmit_rdata (c : Cause) (s : State) :
    (s.abortTransmit c).rdata = s.rdata := (rfl)
@[simp] theorem State.abortTransmit_epoch (c : Cause) (s : State) :
    (s.abortTransmit c).epoch = s.epoch := (rfl)

/-! ### `State.causeEffects`: CAUSE_EFFECTS -/

@[simp] theorem State.causeEffects_cfg (c : Cause) (s : State) :
    (s.causeEffects c).cfg = s.cfg := (rfl)
@[simp] theorem State.causeEffects_lsbFirst (c : Cause) (s : State) :
    (s.causeEffects c).lsbFirst = s.lsbFirst := (rfl)
@[simp] theorem State.causeEffects_flags (c : Cause) (s : State) :
    (s.causeEffects c).flags = s.flags.raiseIf true c.flag := (rfl)
@[simp] theorem State.causeEffects_txreq (c : Cause) (s : State) :
    (s.causeEffects c).txreq = s.txreq := (rfl)
@[simp] theorem State.causeEffects_seq (c : Cause) (s : State) :
    (s.causeEffects c).seq = s.seq := (rfl)
@[simp] theorem State.causeEffects_reqOut (c : Cause) (s : State) :
    (s.causeEffects c).reqOut = s.reqOut := (rfl)
@[simp] theorem State.causeEffects_linesFloat (c : Cause) (s : State) :
    (s.causeEffects c).linesFloat = s.linesFloat := (rfl)
@[simp] theorem State.causeEffects_den (c : Cause) (s : State) :
    (s.causeEffects c).den = s.den := (rfl)
@[simp] theorem State.causeEffects_hrdy (c : Cause) (s : State) :
    (s.causeEffects c).hrdy = s.hrdy := (rfl)
@[simp] theorem State.causeEffects_ovfCur (c : Cause) (s : State) :
    (s.causeEffects c).ovfCur = s.ovfCur := (rfl)
@[simp] theorem State.causeEffects_lasterr (c : Cause) (s : State) :
    (s.causeEffects c).lasterr = c.errCode := (rfl)
@[simp] theorem State.causeEffects_txlen (c : Cause) (s : State) :
    (s.causeEffects c).txlen = s.txlen := (rfl)
@[simp] theorem State.causeEffects_txidx (c : Cause) (s : State) :
    (s.causeEffects c).txidx = s.txidx := (rfl)
@[simp] theorem State.causeEffects_txres (c : Cause) (s : State) :
    (s.causeEffects c).txres = s.txres := (rfl)
@[simp] theorem State.causeEffects_rxwr (c : Cause) (s : State) :
    (s.causeEffects c).rxwr = s.rxwr := (rfl)
@[simp] theorem State.causeEffects_rxparse (c : Cause) (s : State) :
    (s.causeEffects c).rxparse = s.rxparse := (rfl)
@[simp] theorem State.causeEffects_rxrd (c : Cause) (s : State) :
    (s.causeEffects c).rxrd = s.rxrd := (rfl)
@[simp] theorem State.causeEffects_rxunread (c : Cause) (s : State) :
    (s.causeEffects c).rxunread = s.rxunread := (rfl)
@[simp] theorem State.causeEffects_rxcnt (c : Cause) (s : State) :
    (s.causeEffects c).rxcnt = s.rxcnt := (rfl)
@[simp] theorem State.causeEffects_tocnt (c : Cause) (s : State) :
    (s.causeEffects c).tocnt = s.tocnt := (rfl)
@[simp] theorem State.causeEffects_txout (c : Cause) (s : State) :
    (s.causeEffects c).txout = s.txout := (rfl)
@[simp] theorem State.causeEffects_cnt (c : Cause) (s : State) :
    (s.causeEffects c).cnt = c.count s.cnt := (rfl)
@[simp] theorem State.causeEffects_txb (c : Cause) (s : State) :
    (s.causeEffects c).txb = s.txb := (rfl)
@[simp] theorem State.causeEffects_rxb (c : Cause) (s : State) :
    (s.causeEffects c).rxb = s.rxb := (rfl)
@[simp] theorem State.causeEffects_trace (c : Cause) (s : State) :
    (s.causeEffects c).trace = s.trace := (rfl)
@[simp] theorem State.causeEffects_inbox (c : Cause) (s : State) :
    (s.causeEffects c).inbox = s.inbox := (rfl)
@[simp] theorem State.causeEffects_rdata (c : Cause) (s : State) :
    (s.causeEffects c).rdata = s.rdata := (rfl)
@[simp] theorem State.causeEffects_epoch (c : Cause) (s : State) :
    (s.causeEffects c).epoch = s.epoch := (rfl)

/-! ### `State.beginReception`: the start of a reception -/

@[simp] theorem State.beginReception_cfg (s : State) : (s.beginReception).cfg = s.cfg := (rfl)
@[simp] theorem State.beginReception_lsbFirst (s : State) :
    (s.beginReception).lsbFirst = s.lsbFirst := (rfl)
@[simp] theorem State.beginReception_flags (s : State) : (s.beginReception).flags = s.flags := (rfl)
@[simp] theorem State.beginReception_txreq (s : State) : (s.beginReception).txreq = s.txreq := (rfl)
@[simp] theorem State.beginReception_seq (s : State) : (s.beginReception).seq = s.seq := (rfl)
@[simp] theorem State.beginReception_reqOut (s : State) :
    (s.beginReception).reqOut = s.reqOut := (rfl)
@[simp] theorem State.beginReception_linesFloat (s : State) :
    (s.beginReception).linesFloat = s.linesFloat := (rfl)
@[simp] theorem State.beginReception_den (s : State) : (s.beginReception).den = s.den := (rfl)
@[simp] theorem State.beginReception_hrdy (s : State) : (s.beginReception).hrdy = s.hrdy := (rfl)
@[simp] theorem State.beginReception_ovfCur (s : State) : (s.beginReception).ovfCur = false := (rfl)
@[simp] theorem State.beginReception_lasterr (s : State) :
    (s.beginReception).lasterr = s.lasterr := (rfl)
@[simp] theorem State.beginReception_txlen (s : State) : (s.beginReception).txlen = s.txlen := (rfl)
@[simp] theorem State.beginReception_txidx (s : State) : (s.beginReception).txidx = s.txidx := (rfl)
@[simp] theorem State.beginReception_txres (s : State) : (s.beginReception).txres = s.txres := (rfl)
@[simp] theorem State.beginReception_rxwr (s : State) : (s.beginReception).rxwr = s.rxwr := (rfl)
@[simp] theorem State.beginReception_rxparse (s : State) :
    (s.beginReception).rxparse = s.rxparse := (rfl)
@[simp] theorem State.beginReception_rxrd (s : State) : (s.beginReception).rxrd = s.rxrd := (rfl)
@[simp] theorem State.beginReception_rxunread (s : State) :
    (s.beginReception).rxunread = s.rxunread := (rfl)
@[simp] theorem State.beginReception_rxcnt (s : State) : (s.beginReception).rxcnt = 0#16 := (rfl)
@[simp] theorem State.beginReception_tocnt (s : State) : (s.beginReception).tocnt = 0#16 := (rfl)
@[simp] theorem State.beginReception_txout (s : State) : (s.beginReception).txout = s.txout := (rfl)
@[simp] theorem State.beginReception_cnt (s : State) : (s.beginReception).cnt = s.cnt := (rfl)
@[simp] theorem State.beginReception_txb (s : State) : (s.beginReception).txb = s.txb := (rfl)
@[simp] theorem State.beginReception_rxb (s : State) : (s.beginReception).rxb = s.rxb := (rfl)
@[simp] theorem State.beginReception_trace (s : State) : (s.beginReception).trace = s.trace := (rfl)
@[simp] theorem State.beginReception_inbox (s : State) : (s.beginReception).inbox = s.inbox := (rfl)
@[simp] theorem State.beginReception_rdata (s : State) : (s.beginReception).rdata = s.rdata := (rfl)
@[simp] theorem State.beginReception_epoch (s : State) : (s.beginReception).epoch = s.epoch := (rfl)

/-! ### `State.acceptFrame`: ACCEPT_FRAME -/

@[simp] theorem State.acceptFrame_cfg (s : State) : (s.acceptFrame).cfg = s.cfg := (rfl)
@[simp] theorem State.acceptFrame_lsbFirst (s : State) :
    (s.acceptFrame).lsbFirst = s.lsbFirst := (rfl)
@[simp] theorem State.acceptFrame_flags (s : State) : (s.acceptFrame).flags = s.flags := (rfl)
@[simp] theorem State.acceptFrame_txreq (s : State) : (s.acceptFrame).txreq = s.txreq := (rfl)
@[simp] theorem State.acceptFrame_seq (s : State) : (s.acceptFrame).seq = s.seq := (rfl)
@[simp] theorem State.acceptFrame_reqOut (s : State) : (s.acceptFrame).reqOut = s.reqOut := (rfl)
@[simp] theorem State.acceptFrame_linesFloat (s : State) :
    (s.acceptFrame).linesFloat = s.linesFloat := (rfl)
@[simp] theorem State.acceptFrame_den (s : State) : (s.acceptFrame).den = s.den := (rfl)
@[simp] theorem State.acceptFrame_hrdy (s : State) : (s.acceptFrame).hrdy = s.hrdy := (rfl)
@[simp] theorem State.acceptFrame_ovfCur (s : State) : (s.acceptFrame).ovfCur = s.ovfCur := (rfl)
@[simp] theorem State.acceptFrame_lasterr (s : State) : (s.acceptFrame).lasterr = s.lasterr := (rfl)
@[simp] theorem State.acceptFrame_txlen (s : State) : (s.acceptFrame).txlen = s.txlen := (rfl)
@[simp] theorem State.acceptFrame_txidx (s : State) : (s.acceptFrame).txidx = s.txidx := (rfl)
@[simp] theorem State.acceptFrame_txres (s : State) : (s.acceptFrame).txres = s.txres := (rfl)
@[simp] theorem State.acceptFrame_rxwr (s : State) : (s.acceptFrame).rxwr = s.rxwr := (rfl)
@[simp] theorem State.acceptFrame_rxparse (s : State) : (s.acceptFrame).rxparse = s.rxwr := (rfl)
@[simp] theorem State.acceptFrame_rxrd (s : State) : (s.acceptFrame).rxrd = s.rxrd := (rfl)
@[simp] theorem State.acceptFrame_rxunread (s : State) :
    (s.acceptFrame).rxunread = s.rxunread + 1#10 := (rfl)
@[simp] theorem State.acceptFrame_rxcnt (s : State) : (s.acceptFrame).rxcnt = s.rxcnt := (rfl)
@[simp] theorem State.acceptFrame_tocnt (s : State) : (s.acceptFrame).tocnt = s.tocnt := (rfl)
@[simp] theorem State.acceptFrame_txout (s : State) : (s.acceptFrame).txout = s.txout := (rfl)
@[simp] theorem State.acceptFrame_cnt (s : State) :
    (s.acceptFrame).cnt = { s.cnt with rxOk := s.cnt.rxOk + 1#32 } := (rfl)
@[simp] theorem State.acceptFrame_txb (s : State) : (s.acceptFrame).txb = s.txb := (rfl)
@[simp] theorem State.acceptFrame_rxb (s : State) : (s.acceptFrame).rxb = s.rxb := (rfl)
@[simp] theorem State.acceptFrame_trace (s : State) : (s.acceptFrame).trace = s.trace := (rfl)
@[simp] theorem State.acceptFrame_inbox (s : State) : (s.acceptFrame).inbox = s.inbox := (rfl)
@[simp] theorem State.acceptFrame_rdata (s : State) : (s.acceptFrame).rdata = s.rdata := (rfl)
@[simp] theorem State.acceptFrame_epoch (s : State) : (s.acceptFrame).epoch = s.epoch := (rfl)

/-! ### `State.parkTransmit`: PARK's end of a transmit -/

@[simp] theorem State.parkTransmit_cfg (s : State) : (s.parkTransmit).cfg = s.cfg := (rfl)
@[simp] theorem State.parkTransmit_lsbFirst (s : State) :
    (s.parkTransmit).lsbFirst = s.lsbFirst := (rfl)
@[simp] theorem State.parkTransmit_flags (s : State) :
    (s.parkTransmit).flags = s.flags.raiseIf s.txres.isOpen .txdone := (rfl)
@[simp] theorem State.parkTransmit_txreq (s : State) : (s.parkTransmit).txreq = false := (rfl)
@[simp] theorem State.parkTransmit_seq (s : State) : (s.parkTransmit).seq = s.seq := (rfl)
@[simp] theorem State.parkTransmit_reqOut (s : State) : (s.parkTransmit).reqOut = s.reqOut := (rfl)
@[simp] theorem State.parkTransmit_linesFloat (s : State) :
    (s.parkTransmit).linesFloat = s.linesFloat := (rfl)
@[simp] theorem State.parkTransmit_den (s : State) : (s.parkTransmit).den = s.den := (rfl)
@[simp] theorem State.parkTransmit_hrdy (s : State) : (s.parkTransmit).hrdy = s.hrdy := (rfl)
@[simp] theorem State.parkTransmit_ovfCur (s : State) : (s.parkTransmit).ovfCur = s.ovfCur := (rfl)
@[simp] theorem State.parkTransmit_lasterr (s : State) :
    (s.parkTransmit).lasterr = s.lasterr := (rfl)
@[simp] theorem State.parkTransmit_txlen (s : State) : (s.parkTransmit).txlen = s.txlen := (rfl)
@[simp] theorem State.parkTransmit_txidx (s : State) : (s.parkTransmit).txidx = s.txidx := (rfl)
@[simp] theorem State.parkTransmit_txres (s : State) :
    (s.parkTransmit).txres = if s.txres.isOpen then .error else s.txres := (rfl)
@[simp] theorem State.parkTransmit_rxwr (s : State) : (s.parkTransmit).rxwr = s.rxwr := (rfl)
@[simp] theorem State.parkTransmit_rxparse (s : State) :
    (s.parkTransmit).rxparse = s.rxparse := (rfl)
@[simp] theorem State.parkTransmit_rxrd (s : State) : (s.parkTransmit).rxrd = s.rxrd := (rfl)
@[simp] theorem State.parkTransmit_rxunread (s : State) :
    (s.parkTransmit).rxunread = s.rxunread := (rfl)
@[simp] theorem State.parkTransmit_rxcnt (s : State) : (s.parkTransmit).rxcnt = s.rxcnt := (rfl)
@[simp] theorem State.parkTransmit_tocnt (s : State) : (s.parkTransmit).tocnt = s.tocnt := (rfl)
@[simp] theorem State.parkTransmit_txout (s : State) : (s.parkTransmit).txout = s.txout := (rfl)
@[simp] theorem State.parkTransmit_cnt (s : State) : (s.parkTransmit).cnt = s.cnt := (rfl)
@[simp] theorem State.parkTransmit_txb (s : State) : (s.parkTransmit).txb = s.txb := (rfl)
@[simp] theorem State.parkTransmit_rxb (s : State) : (s.parkTransmit).rxb = s.rxb := (rfl)
@[simp] theorem State.parkTransmit_trace (s : State) : (s.parkTransmit).trace = s.trace := (rfl)
@[simp] theorem State.parkTransmit_inbox (s : State) : (s.parkTransmit).inbox = s.inbox := (rfl)
@[simp] theorem State.parkTransmit_rdata (s : State) : (s.parkTransmit).rdata = s.rdata := (rfl)
@[simp] theorem State.parkTransmit_epoch (s : State) : (s.parkTransmit).epoch = s.epoch := (rfl)

/-! ### `State.parkReception`: PARK's end of a reception -/

@[simp] theorem State.parkReception_cfg (s : State) : (s.parkReception).cfg = s.cfg := (rfl)
@[simp] theorem State.parkReception_lsbFirst (s : State) :
    (s.parkReception).lsbFirst = s.lsbFirst := (rfl)
@[simp] theorem State.parkReception_flags (s : State) : (s.parkReception).flags = s.flags := (rfl)
@[simp] theorem State.parkReception_txreq (s : State) : (s.parkReception).txreq = s.txreq := (rfl)
@[simp] theorem State.parkReception_seq (s : State) : (s.parkReception).seq = s.seq := (rfl)
@[simp] theorem State.parkReception_reqOut (s : State) :
    (s.parkReception).reqOut = s.reqOut := (rfl)
@[simp] theorem State.parkReception_linesFloat (s : State) :
    (s.parkReception).linesFloat = s.linesFloat := (rfl)
@[simp] theorem State.parkReception_den (s : State) : (s.parkReception).den = s.den := (rfl)
@[simp] theorem State.parkReception_hrdy (s : State) : (s.parkReception).hrdy = s.hrdy := (rfl)
@[simp] theorem State.parkReception_ovfCur (s : State) :
    (s.parkReception).ovfCur = s.ovfCur := (rfl)
@[simp] theorem State.parkReception_lasterr (s : State) :
    (s.parkReception).lasterr = s.lasterr := (rfl)
@[simp] theorem State.parkReception_txlen (s : State) : (s.parkReception).txlen = s.txlen := (rfl)
@[simp] theorem State.parkReception_txidx (s : State) : (s.parkReception).txidx = s.txidx := (rfl)
@[simp] theorem State.parkReception_txres (s : State) : (s.parkReception).txres = s.txres := (rfl)
@[simp] theorem State.parkReception_rxwr (s : State) :
    (s.parkReception).rxwr = if s.seq.isReceiving then s.rxparse else s.rxwr := (rfl)
@[simp] theorem State.parkReception_rxparse (s : State) :
    (s.parkReception).rxparse = s.rxparse := (rfl)
@[simp] theorem State.parkReception_rxrd (s : State) : (s.parkReception).rxrd = s.rxrd := (rfl)
@[simp] theorem State.parkReception_rxunread (s : State) :
    (s.parkReception).rxunread = s.rxunread := (rfl)
@[simp] theorem State.parkReception_rxcnt (s : State) : (s.parkReception).rxcnt = s.rxcnt := (rfl)
@[simp] theorem State.parkReception_tocnt (s : State) : (s.parkReception).tocnt = s.tocnt := (rfl)
@[simp] theorem State.parkReception_txout (s : State) : (s.parkReception).txout = s.txout := (rfl)
@[simp] theorem State.parkReception_cnt (s : State) : (s.parkReception).cnt = s.cnt := (rfl)
@[simp] theorem State.parkReception_txb (s : State) : (s.parkReception).txb = s.txb := (rfl)
@[simp] theorem State.parkReception_rxb (s : State) : (s.parkReception).rxb = s.rxb := (rfl)
@[simp] theorem State.parkReception_trace (s : State) : (s.parkReception).trace = s.trace := (rfl)
@[simp] theorem State.parkReception_inbox (s : State) : (s.parkReception).inbox = s.inbox := (rfl)
@[simp] theorem State.parkReception_rdata (s : State) : (s.parkReception).rdata = s.rdata := (rfl)
@[simp] theorem State.parkReception_epoch (s : State) : (s.parkReception).epoch = s.epoch := (rfl)

/-! ### `State.floatLines`: the floating of the lines -/

@[simp] theorem State.floatLines_cfg (s : State) : (s.floatLines).cfg = s.cfg := (rfl)
@[simp] theorem State.floatLines_lsbFirst (s : State) :
    (s.floatLines).lsbFirst = s.lsbFirst := (rfl)
@[simp] theorem State.floatLines_flags (s : State) : (s.floatLines).flags = s.flags := (rfl)
@[simp] theorem State.floatLines_txreq (s : State) : (s.floatLines).txreq = s.txreq := (rfl)
@[simp] theorem State.floatLines_seq (s : State) : (s.floatLines).seq = s.seq := (rfl)
@[simp] theorem State.floatLines_reqOut (s : State) : (s.floatLines).reqOut = s.reqOut := (rfl)
@[simp] theorem State.floatLines_linesFloat (s : State) : (s.floatLines).linesFloat = true := (rfl)
@[simp] theorem State.floatLines_den (s : State) : (s.floatLines).den = s.den := (rfl)
@[simp] theorem State.floatLines_hrdy (s : State) : (s.floatLines).hrdy = s.hrdy := (rfl)
@[simp] theorem State.floatLines_ovfCur (s : State) : (s.floatLines).ovfCur = s.ovfCur := (rfl)
@[simp] theorem State.floatLines_lasterr (s : State) : (s.floatLines).lasterr = s.lasterr := (rfl)
@[simp] theorem State.floatLines_txlen (s : State) : (s.floatLines).txlen = s.txlen := (rfl)
@[simp] theorem State.floatLines_txidx (s : State) : (s.floatLines).txidx = s.txidx := (rfl)
@[simp] theorem State.floatLines_txres (s : State) : (s.floatLines).txres = s.txres := (rfl)
@[simp] theorem State.floatLines_rxwr (s : State) : (s.floatLines).rxwr = s.rxwr := (rfl)
@[simp] theorem State.floatLines_rxparse (s : State) : (s.floatLines).rxparse = s.rxparse := (rfl)
@[simp] theorem State.floatLines_rxrd (s : State) : (s.floatLines).rxrd = s.rxrd := (rfl)
@[simp] theorem State.floatLines_rxunread (s : State) :
    (s.floatLines).rxunread = s.rxunread := (rfl)
@[simp] theorem State.floatLines_rxcnt (s : State) : (s.floatLines).rxcnt = s.rxcnt := (rfl)
@[simp] theorem State.floatLines_tocnt (s : State) : (s.floatLines).tocnt = s.tocnt := (rfl)
@[simp] theorem State.floatLines_txout (s : State) : (s.floatLines).txout = s.txout := (rfl)
@[simp] theorem State.floatLines_cnt (s : State) : (s.floatLines).cnt = s.cnt := (rfl)
@[simp] theorem State.floatLines_txb (s : State) : (s.floatLines).txb = s.txb := (rfl)
@[simp] theorem State.floatLines_rxb (s : State) : (s.floatLines).rxb = s.rxb := (rfl)
@[simp] theorem State.floatLines_trace (s : State) :
    (s.floatLines).trace = s.trace ++ [.float] := (rfl)
@[simp] theorem State.floatLines_inbox (s : State) : (s.floatLines).inbox = s.inbox := (rfl)
@[simp] theorem State.floatLines_rdata (s : State) : (s.floatLines).rdata = s.rdata := (rfl)
@[simp] theorem State.floatLines_epoch (s : State) : (s.floatLines).epoch = s.epoch := (rfl)

/-! ### `State.unexpectedFirst`: an unexpected first byte -/

@[simp] theorem State.unexpectedFirst_cfg (e : ErrCode) (s : State) :
    (s.unexpectedFirst e).cfg = s.cfg := (rfl)
@[simp] theorem State.unexpectedFirst_lsbFirst (e : ErrCode) (s : State) :
    (s.unexpectedFirst e).lsbFirst = s.lsbFirst := (rfl)
@[simp] theorem State.unexpectedFirst_flags (e : ErrCode) (s : State) :
    (s.unexpectedFirst e).flags = s.flags.raiseIf true .unexp := (rfl)
@[simp] theorem State.unexpectedFirst_txreq (e : ErrCode) (s : State) :
    (s.unexpectedFirst e).txreq = s.txreq := (rfl)
@[simp] theorem State.unexpectedFirst_seq (e : ErrCode) (s : State) :
    (s.unexpectedFirst e).seq = s.seq := (rfl)
@[simp] theorem State.unexpectedFirst_reqOut (e : ErrCode) (s : State) :
    (s.unexpectedFirst e).reqOut = s.reqOut := (rfl)
@[simp] theorem State.unexpectedFirst_linesFloat (e : ErrCode) (s : State) :
    (s.unexpectedFirst e).linesFloat = s.linesFloat := (rfl)
@[simp] theorem State.unexpectedFirst_den (e : ErrCode) (s : State) :
    (s.unexpectedFirst e).den = s.den := (rfl)
@[simp] theorem State.unexpectedFirst_hrdy (e : ErrCode) (s : State) :
    (s.unexpectedFirst e).hrdy = s.hrdy := (rfl)
@[simp] theorem State.unexpectedFirst_ovfCur (e : ErrCode) (s : State) :
    (s.unexpectedFirst e).ovfCur = s.ovfCur := (rfl)
@[simp] theorem State.unexpectedFirst_lasterr (e : ErrCode) (s : State) :
    (s.unexpectedFirst e).lasterr = e := (rfl)
@[simp] theorem State.unexpectedFirst_txlen (e : ErrCode) (s : State) :
    (s.unexpectedFirst e).txlen = s.txlen := (rfl)
@[simp] theorem State.unexpectedFirst_txidx (e : ErrCode) (s : State) :
    (s.unexpectedFirst e).txidx = s.txidx := (rfl)
@[simp] theorem State.unexpectedFirst_txres (e : ErrCode) (s : State) :
    (s.unexpectedFirst e).txres = s.txres := (rfl)
@[simp] theorem State.unexpectedFirst_rxwr (e : ErrCode) (s : State) :
    (s.unexpectedFirst e).rxwr = s.rxwr := (rfl)
@[simp] theorem State.unexpectedFirst_rxparse (e : ErrCode) (s : State) :
    (s.unexpectedFirst e).rxparse = s.rxparse := (rfl)
@[simp] theorem State.unexpectedFirst_rxrd (e : ErrCode) (s : State) :
    (s.unexpectedFirst e).rxrd = s.rxrd := (rfl)
@[simp] theorem State.unexpectedFirst_rxunread (e : ErrCode) (s : State) :
    (s.unexpectedFirst e).rxunread = s.rxunread := (rfl)
@[simp] theorem State.unexpectedFirst_rxcnt (e : ErrCode) (s : State) :
    (s.unexpectedFirst e).rxcnt = s.rxcnt := (rfl)
@[simp] theorem State.unexpectedFirst_tocnt (e : ErrCode) (s : State) :
    (s.unexpectedFirst e).tocnt = s.tocnt := (rfl)
@[simp] theorem State.unexpectedFirst_txout (e : ErrCode) (s : State) :
    (s.unexpectedFirst e).txout = s.txout := (rfl)
@[simp] theorem State.unexpectedFirst_cnt (e : ErrCode) (s : State) :
    (s.unexpectedFirst e).cnt = { s.cnt with unexp := s.cnt.unexp + 1#32 } := (rfl)
@[simp] theorem State.unexpectedFirst_txb (e : ErrCode) (s : State) :
    (s.unexpectedFirst e).txb = s.txb := (rfl)
@[simp] theorem State.unexpectedFirst_rxb (e : ErrCode) (s : State) :
    (s.unexpectedFirst e).rxb = s.rxb := (rfl)
@[simp] theorem State.unexpectedFirst_trace (e : ErrCode) (s : State) :
    (s.unexpectedFirst e).trace = s.trace := (rfl)
@[simp] theorem State.unexpectedFirst_inbox (e : ErrCode) (s : State) :
    (s.unexpectedFirst e).inbox = s.inbox := (rfl)
@[simp] theorem State.unexpectedFirst_rdata (e : ErrCode) (s : State) :
    (s.unexpectedFirst e).rdata = s.rdata := (rfl)
@[simp] theorem State.unexpectedFirst_epoch (e : ErrCode) (s : State) :
    (s.unexpectedFirst e).epoch = s.epoch := (rfl)

/-! ### `State.noteCollision`: the note of a collision -/

@[simp] theorem State.noteCollision_cfg (s : State) : (s.noteCollision).cfg = s.cfg := (rfl)
@[simp] theorem State.noteCollision_lsbFirst (s : State) :
    (s.noteCollision).lsbFirst = s.lsbFirst := (rfl)
@[simp] theorem State.noteCollision_flags (s : State) :
    (s.noteCollision).flags = s.flags.raiseIf true .coll := (rfl)
@[simp] theorem State.noteCollision_txreq (s : State) : (s.noteCollision).txreq = s.txreq := (rfl)
@[simp] theorem State.noteCollision_seq (s : State) : (s.noteCollision).seq = s.seq := (rfl)
@[simp] theorem State.noteCollision_reqOut (s : State) :
    (s.noteCollision).reqOut = s.reqOut := (rfl)
@[simp] theorem State.noteCollision_linesFloat (s : State) :
    (s.noteCollision).linesFloat = s.linesFloat := (rfl)
@[simp] theorem State.noteCollision_den (s : State) : (s.noteCollision).den = s.den := (rfl)
@[simp] theorem State.noteCollision_hrdy (s : State) : (s.noteCollision).hrdy = s.hrdy := (rfl)
@[simp] theorem State.noteCollision_ovfCur (s : State) :
    (s.noteCollision).ovfCur = s.ovfCur := (rfl)
@[simp] theorem State.noteCollision_lasterr (s : State) :
    (s.noteCollision).lasterr = s.lasterr := (rfl)
@[simp] theorem State.noteCollision_txlen (s : State) : (s.noteCollision).txlen = s.txlen := (rfl)
@[simp] theorem State.noteCollision_txidx (s : State) : (s.noteCollision).txidx = s.txidx := (rfl)
@[simp] theorem State.noteCollision_txres (s : State) : (s.noteCollision).txres = s.txres := (rfl)
@[simp] theorem State.noteCollision_rxwr (s : State) : (s.noteCollision).rxwr = s.rxwr := (rfl)
@[simp] theorem State.noteCollision_rxparse (s : State) :
    (s.noteCollision).rxparse = s.rxparse := (rfl)
@[simp] theorem State.noteCollision_rxrd (s : State) : (s.noteCollision).rxrd = s.rxrd := (rfl)
@[simp] theorem State.noteCollision_rxunread (s : State) :
    (s.noteCollision).rxunread = s.rxunread := (rfl)
@[simp] theorem State.noteCollision_rxcnt (s : State) : (s.noteCollision).rxcnt = s.rxcnt := (rfl)
@[simp] theorem State.noteCollision_tocnt (s : State) : (s.noteCollision).tocnt = s.tocnt := (rfl)
@[simp] theorem State.noteCollision_txout (s : State) : (s.noteCollision).txout = s.txout := (rfl)
@[simp] theorem State.noteCollision_cnt (s : State) :
    (s.noteCollision).cnt = { s.cnt with collision := s.cnt.collision + 1#32 } := (rfl)
@[simp] theorem State.noteCollision_txb (s : State) : (s.noteCollision).txb = s.txb := (rfl)
@[simp] theorem State.noteCollision_rxb (s : State) : (s.noteCollision).rxb = s.rxb := (rfl)
@[simp] theorem State.noteCollision_trace (s : State) : (s.noteCollision).trace = s.trace := (rfl)
@[simp] theorem State.noteCollision_inbox (s : State) : (s.noteCollision).inbox = s.inbox := (rfl)
@[simp] theorem State.noteCollision_rdata (s : State) : (s.noteCollision).rdata = s.rdata := (rfl)
@[simp] theorem State.noteCollision_epoch (s : State) : (s.noteCollision).epoch = s.epoch := (rfl)

/-! ### `State.setDen`: DEN <- v -/

@[simp] theorem State.setDen_cfg (v : Bool) (s : State) : (s.setDen v).cfg = s.cfg := (rfl)
@[simp] theorem State.setDen_lsbFirst (v : Bool) (s : State) :
    (s.setDen v).lsbFirst = s.lsbFirst := (rfl)
@[simp] theorem State.setDen_flags (v : Bool) (s : State) : (s.setDen v).flags = s.flags := (rfl)
@[simp] theorem State.setDen_txreq (v : Bool) (s : State) : (s.setDen v).txreq = s.txreq := (rfl)
@[simp] theorem State.setDen_seq (v : Bool) (s : State) : (s.setDen v).seq = s.seq := (rfl)
@[simp] theorem State.setDen_reqOut (v : Bool) (s : State) : (s.setDen v).reqOut = s.reqOut := (rfl)
@[simp] theorem State.setDen_linesFloat (v : Bool) (s : State) :
    (s.setDen v).linesFloat = s.linesFloat := (rfl)
@[simp] theorem State.setDen_den (v : Bool) (s : State) : (s.setDen v).den = v := (rfl)
@[simp] theorem State.setDen_hrdy (v : Bool) (s : State) : (s.setDen v).hrdy = s.hrdy := (rfl)
@[simp] theorem State.setDen_ovfCur (v : Bool) (s : State) : (s.setDen v).ovfCur = s.ovfCur := (rfl)
@[simp] theorem State.setDen_lasterr (v : Bool) (s : State) :
    (s.setDen v).lasterr = s.lasterr := (rfl)
@[simp] theorem State.setDen_txlen (v : Bool) (s : State) : (s.setDen v).txlen = s.txlen := (rfl)
@[simp] theorem State.setDen_txidx (v : Bool) (s : State) : (s.setDen v).txidx = s.txidx := (rfl)
@[simp] theorem State.setDen_txres (v : Bool) (s : State) : (s.setDen v).txres = s.txres := (rfl)
@[simp] theorem State.setDen_rxwr (v : Bool) (s : State) : (s.setDen v).rxwr = s.rxwr := (rfl)
@[simp] theorem State.setDen_rxparse (v : Bool) (s : State) :
    (s.setDen v).rxparse = s.rxparse := (rfl)
@[simp] theorem State.setDen_rxrd (v : Bool) (s : State) : (s.setDen v).rxrd = s.rxrd := (rfl)
@[simp] theorem State.setDen_rxunread (v : Bool) (s : State) :
    (s.setDen v).rxunread = s.rxunread := (rfl)
@[simp] theorem State.setDen_rxcnt (v : Bool) (s : State) : (s.setDen v).rxcnt = s.rxcnt := (rfl)
@[simp] theorem State.setDen_tocnt (v : Bool) (s : State) : (s.setDen v).tocnt = s.tocnt := (rfl)
@[simp] theorem State.setDen_txout (v : Bool) (s : State) : (s.setDen v).txout = s.txout := (rfl)
@[simp] theorem State.setDen_cnt (v : Bool) (s : State) : (s.setDen v).cnt = s.cnt := (rfl)
@[simp] theorem State.setDen_txb (v : Bool) (s : State) : (s.setDen v).txb = s.txb := (rfl)
@[simp] theorem State.setDen_rxb (v : Bool) (s : State) : (s.setDen v).rxb = s.rxb := (rfl)
@[simp] theorem State.setDen_trace (v : Bool) (s : State) : (s.setDen v).trace = s.trace := (rfl)
@[simp] theorem State.setDen_inbox (v : Bool) (s : State) : (s.setDen v).inbox = s.inbox := (rfl)
@[simp] theorem State.setDen_rdata (v : Bool) (s : State) : (s.setDen v).rdata = s.rdata := (rfl)
@[simp] theorem State.setDen_epoch (v : Bool) (s : State) : (s.setDen v).epoch = s.epoch := (rfl)

/-! ### `State.emitXfer`: the XFER of a byte transfer -/

@[simp] theorem State.emitXfer_cfg (b : Byte) (s : State) : (s.emitXfer b).cfg = s.cfg := (rfl)
@[simp] theorem State.emitXfer_lsbFirst (b : Byte) (s : State) :
    (s.emitXfer b).lsbFirst = s.lsbFirst := (rfl)
@[simp] theorem State.emitXfer_flags (b : Byte) (s : State) :
    (s.emitXfer b).flags = s.flags := (rfl)
@[simp] theorem State.emitXfer_txreq (b : Byte) (s : State) :
    (s.emitXfer b).txreq = s.txreq := (rfl)
@[simp] theorem State.emitXfer_seq (b : Byte) (s : State) : (s.emitXfer b).seq = s.seq := (rfl)
@[simp] theorem State.emitXfer_reqOut (b : Byte) (s : State) :
    (s.emitXfer b).reqOut = s.reqOut := (rfl)
@[simp] theorem State.emitXfer_linesFloat (b : Byte) (s : State) :
    (s.emitXfer b).linesFloat = s.linesFloat := (rfl)
@[simp] theorem State.emitXfer_den (b : Byte) (s : State) : (s.emitXfer b).den = s.den := (rfl)
@[simp] theorem State.emitXfer_hrdy (b : Byte) (s : State) : (s.emitXfer b).hrdy = s.hrdy := (rfl)
@[simp] theorem State.emitXfer_ovfCur (b : Byte) (s : State) :
    (s.emitXfer b).ovfCur = s.ovfCur := (rfl)
@[simp] theorem State.emitXfer_lasterr (b : Byte) (s : State) :
    (s.emitXfer b).lasterr = s.lasterr := (rfl)
@[simp] theorem State.emitXfer_txlen (b : Byte) (s : State) :
    (s.emitXfer b).txlen = s.txlen := (rfl)
@[simp] theorem State.emitXfer_txidx (b : Byte) (s : State) :
    (s.emitXfer b).txidx = s.txidx := (rfl)
@[simp] theorem State.emitXfer_txres (b : Byte) (s : State) :
    (s.emitXfer b).txres = s.txres := (rfl)
@[simp] theorem State.emitXfer_rxwr (b : Byte) (s : State) : (s.emitXfer b).rxwr = s.rxwr := (rfl)
@[simp] theorem State.emitXfer_rxparse (b : Byte) (s : State) :
    (s.emitXfer b).rxparse = s.rxparse := (rfl)
@[simp] theorem State.emitXfer_rxrd (b : Byte) (s : State) : (s.emitXfer b).rxrd = s.rxrd := (rfl)
@[simp] theorem State.emitXfer_rxunread (b : Byte) (s : State) :
    (s.emitXfer b).rxunread = s.rxunread := (rfl)
@[simp] theorem State.emitXfer_rxcnt (b : Byte) (s : State) :
    (s.emitXfer b).rxcnt = s.rxcnt := (rfl)
@[simp] theorem State.emitXfer_tocnt (b : Byte) (s : State) :
    (s.emitXfer b).tocnt = s.tocnt := (rfl)
@[simp] theorem State.emitXfer_txout (b : Byte) (s : State) :
    (s.emitXfer b).txout = s.txout := (rfl)
@[simp] theorem State.emitXfer_cnt (b : Byte) (s : State) : (s.emitXfer b).cnt = s.cnt := (rfl)
@[simp] theorem State.emitXfer_txb (b : Byte) (s : State) : (s.emitXfer b).txb = s.txb := (rfl)
@[simp] theorem State.emitXfer_rxb (b : Byte) (s : State) : (s.emitXfer b).rxb = s.rxb := (rfl)
@[simp] theorem State.emitXfer_trace (b : Byte) (s : State) :
    (s.emitXfer b).trace = s.trace ++ [.xfer (s.wire s.txout) b] := (rfl)
@[simp] theorem State.emitXfer_inbox (b : Byte) (s : State) :
    (s.emitXfer b).inbox = s.inbox := (rfl)
@[simp] theorem State.emitXfer_rdata (b : Byte) (s : State) :
    (s.emitXfer b).rdata = s.rdata := (rfl)
@[simp] theorem State.emitXfer_epoch (b : Byte) (s : State) :
    (s.emitXfer b).epoch = s.epoch := (rfl)

/-! ### `State.takeByte`: the taking of a requested byte -/

@[simp] theorem State.takeByte_cfg (b : Byte) (s : State) : (s.takeByte b).cfg = s.cfg := (rfl)
@[simp] theorem State.takeByte_lsbFirst (b : Byte) (s : State) :
    (s.takeByte b).lsbFirst = s.lsbFirst := (rfl)
@[simp] theorem State.takeByte_flags (b : Byte) (s : State) :
    (s.takeByte b).flags = s.flags := (rfl)
@[simp] theorem State.takeByte_txreq (b : Byte) (s : State) :
    (s.takeByte b).txreq = s.txreq := (rfl)
@[simp] theorem State.takeByte_seq (b : Byte) (s : State) : (s.takeByte b).seq = s.seq := (rfl)
@[simp] theorem State.takeByte_reqOut (b : Byte) (s : State) :
    (s.takeByte b).reqOut = false := (rfl)
@[simp] theorem State.takeByte_linesFloat (b : Byte) (s : State) :
    (s.takeByte b).linesFloat = s.linesFloat := (rfl)
@[simp] theorem State.takeByte_den (b : Byte) (s : State) : (s.takeByte b).den = s.den := (rfl)
@[simp] theorem State.takeByte_hrdy (b : Byte) (s : State) : (s.takeByte b).hrdy = s.hrdy := (rfl)
@[simp] theorem State.takeByte_ovfCur (b : Byte) (s : State) :
    (s.takeByte b).ovfCur = s.ovfCur := (rfl)
@[simp] theorem State.takeByte_lasterr (b : Byte) (s : State) :
    (s.takeByte b).lasterr = s.lasterr := (rfl)
@[simp] theorem State.takeByte_txlen (b : Byte) (s : State) :
    (s.takeByte b).txlen = s.txlen := (rfl)
@[simp] theorem State.takeByte_txidx (b : Byte) (s : State) :
    (s.takeByte b).txidx = s.txidx := (rfl)
@[simp] theorem State.takeByte_txres (b : Byte) (s : State) :
    (s.takeByte b).txres = s.txres := (rfl)
@[simp] theorem State.takeByte_rxwr (b : Byte) (s : State) : (s.takeByte b).rxwr = s.rxwr := (rfl)
@[simp] theorem State.takeByte_rxparse (b : Byte) (s : State) :
    (s.takeByte b).rxparse = s.rxparse := (rfl)
@[simp] theorem State.takeByte_rxrd (b : Byte) (s : State) : (s.takeByte b).rxrd = s.rxrd := (rfl)
@[simp] theorem State.takeByte_rxunread (b : Byte) (s : State) :
    (s.takeByte b).rxunread = s.rxunread := (rfl)
@[simp] theorem State.takeByte_rxcnt (b : Byte) (s : State) :
    (s.takeByte b).rxcnt = s.rxcnt := (rfl)
@[simp] theorem State.takeByte_tocnt (b : Byte) (s : State) :
    (s.takeByte b).tocnt = s.tocnt := (rfl)
@[simp] theorem State.takeByte_txout (b : Byte) (s : State) :
    (s.takeByte b).txout = s.txout := (rfl)
@[simp] theorem State.takeByte_cnt (b : Byte) (s : State) : (s.takeByte b).cnt = s.cnt := (rfl)
@[simp] theorem State.takeByte_txb (b : Byte) (s : State) : (s.takeByte b).txb = s.txb := (rfl)
@[simp] theorem State.takeByte_rxb (b : Byte) (s : State) : (s.takeByte b).rxb = s.rxb := (rfl)
@[simp] theorem State.takeByte_trace (b : Byte) (s : State) :
    (s.takeByte b).trace = s.trace ++ [.xfer (s.wire s.txout) b] := (rfl)
@[simp] theorem State.takeByte_inbox (b : Byte) (s : State) :
    (s.takeByte b).inbox = s.inbox := (rfl)
@[simp] theorem State.takeByte_rdata (b : Byte) (s : State) :
    (s.takeByte b).rdata = s.rdata := (rfl)
@[simp] theorem State.takeByte_epoch (b : Byte) (s : State) :
    (s.takeByte b).epoch = s.epoch := (rfl)

/-! ### `State.countTb`: the count of a TB -/

@[simp] theorem State.countTb_cfg (s : State) : (s.countTb).cfg = s.cfg := (rfl)
@[simp] theorem State.countTb_lsbFirst (s : State) : (s.countTb).lsbFirst = s.lsbFirst := (rfl)
@[simp] theorem State.countTb_flags (s : State) : (s.countTb).flags = s.flags := (rfl)
@[simp] theorem State.countTb_txreq (s : State) : (s.countTb).txreq = s.txreq := (rfl)
@[simp] theorem State.countTb_seq (s : State) : (s.countTb).seq = s.seq := (rfl)
@[simp] theorem State.countTb_reqOut (s : State) : (s.countTb).reqOut = s.reqOut := (rfl)
@[simp] theorem State.countTb_linesFloat (s : State) :
    (s.countTb).linesFloat = s.linesFloat := (rfl)
@[simp] theorem State.countTb_den (s : State) : (s.countTb).den = s.den := (rfl)
@[simp] theorem State.countTb_hrdy (s : State) : (s.countTb).hrdy = s.hrdy := (rfl)
@[simp] theorem State.countTb_ovfCur (s : State) : (s.countTb).ovfCur = s.ovfCur := (rfl)
@[simp] theorem State.countTb_lasterr (s : State) : (s.countTb).lasterr = s.lasterr := (rfl)
@[simp] theorem State.countTb_txlen (s : State) : (s.countTb).txlen = s.txlen := (rfl)
@[simp] theorem State.countTb_txidx (s : State) : (s.countTb).txidx = s.txidx := (rfl)
@[simp] theorem State.countTb_txres (s : State) : (s.countTb).txres = s.txres := (rfl)
@[simp] theorem State.countTb_rxwr (s : State) : (s.countTb).rxwr = s.rxwr := (rfl)
@[simp] theorem State.countTb_rxparse (s : State) : (s.countTb).rxparse = s.rxparse := (rfl)
@[simp] theorem State.countTb_rxrd (s : State) : (s.countTb).rxrd = s.rxrd := (rfl)
@[simp] theorem State.countTb_rxunread (s : State) : (s.countTb).rxunread = s.rxunread := (rfl)
@[simp] theorem State.countTb_rxcnt (s : State) : (s.countTb).rxcnt = s.rxcnt := (rfl)
@[simp] theorem State.countTb_tocnt (s : State) : (s.countTb).tocnt = s.tocnt + 1#16 := (rfl)
@[simp] theorem State.countTb_txout (s : State) : (s.countTb).txout = s.txout := (rfl)
@[simp] theorem State.countTb_cnt (s : State) : (s.countTb).cnt = s.cnt := (rfl)
@[simp] theorem State.countTb_txb (s : State) : (s.countTb).txb = s.txb := (rfl)
@[simp] theorem State.countTb_rxb (s : State) : (s.countTb).rxb = s.rxb := (rfl)
@[simp] theorem State.countTb_trace (s : State) : (s.countTb).trace = s.trace := (rfl)
@[simp] theorem State.countTb_inbox (s : State) : (s.countTb).inbox = s.inbox := (rfl)
@[simp] theorem State.countTb_rdata (s : State) : (s.countTb).rdata = s.rdata := (rfl)
@[simp] theorem State.countTb_epoch (s : State) : (s.countTb).epoch = s.epoch := (rfl)

/-! ### `State.abort`: ABORT -/

@[simp] theorem State.abort_cfg (c : Cause) (s : State) : (s.abort c).cfg = s.cfg := (rfl)
@[simp] theorem State.abort_lsbFirst (c : Cause) (s : State) :
    (s.abort c).lsbFirst = s.lsbFirst := (rfl)
@[simp] theorem State.abort_flags (c : Cause) (s : State) :
    (s.abort c).flags = (s.flags.raiseIf (s.txres == .busy) .txdone).raiseIf true c.flag := (rfl)
@[simp] theorem State.abort_txreq (c : Cause) (s : State) :
    (s.abort c).txreq = (s.txreq && s.txres != .busy) := (rfl)
@[simp] theorem State.abort_seq (c : Cause) (s : State) : (s.abort c).seq = .aborting := (rfl)
@[simp] theorem State.abort_reqOut (c : Cause) (s : State) : (s.abort c).reqOut = false := (rfl)
@[simp] theorem State.abort_linesFloat (c : Cause) (s : State) :
    (s.abort c).linesFloat = s.linesFloat := (rfl)
@[simp] theorem State.abort_den (c : Cause) (s : State) : (s.abort c).den = s.den := (rfl)
@[simp] theorem State.abort_hrdy (c : Cause) (s : State) : (s.abort c).hrdy = false := (rfl)
@[simp] theorem State.abort_ovfCur (c : Cause) (s : State) : (s.abort c).ovfCur = s.ovfCur := (rfl)
@[simp] theorem State.abort_lasterr (c : Cause) (s : State) :
    (s.abort c).lasterr = c.errCode := (rfl)
@[simp] theorem State.abort_txlen (c : Cause) (s : State) : (s.abort c).txlen = s.txlen := (rfl)
@[simp] theorem State.abort_txidx (c : Cause) (s : State) : (s.abort c).txidx = s.txidx := (rfl)
@[simp] theorem State.abort_txres (c : Cause) (s : State) :
    (s.abort c).txres = if s.txres = .busy then c.txResult else s.txres := (rfl)
@[simp] theorem State.abort_rxwr (c : Cause) (s : State) : (s.abort c).rxwr = s.rxwr := (rfl)
@[simp] theorem State.abort_rxparse (c : Cause) (s : State) : (s.abort c).rxparse = s.rxwr := (rfl)
@[simp] theorem State.abort_rxrd (c : Cause) (s : State) : (s.abort c).rxrd = s.rxwr := (rfl)
@[simp] theorem State.abort_rxunread (c : Cause) (s : State) : (s.abort c).rxunread = 0#10 := (rfl)
@[simp] theorem State.abort_rxcnt (c : Cause) (s : State) : (s.abort c).rxcnt = s.rxcnt := (rfl)
@[simp] theorem State.abort_tocnt (c : Cause) (s : State) : (s.abort c).tocnt = 0#16 := (rfl)
@[simp] theorem State.abort_txout (c : Cause) (s : State) : (s.abort c).txout = 0#8 := (rfl)
@[simp] theorem State.abort_cnt (c : Cause) (s : State) :
    (s.abort c).cnt = { c.count s.cnt with resync := (c.count s.cnt).resync + 1#32 } := (rfl)
@[simp] theorem State.abort_txb (c : Cause) (s : State) : (s.abort c).txb = s.txb := (rfl)
@[simp] theorem State.abort_rxb (c : Cause) (s : State) : (s.abort c).rxb = s.rxb := (rfl)
@[simp] theorem State.abort_trace (c : Cause) (s : State) :
    (s.abort c).trace = if s.hrdy = false then s.trace else s.trace ++ [.hrdy false] := (rfl)
@[simp] theorem State.abort_inbox (c : Cause) (s : State) : (s.abort c).inbox = s.inbox := (rfl)
@[simp] theorem State.abort_rdata (c : Cause) (s : State) : (s.abort c).rdata = s.rdata := (rfl)
@[simp] theorem State.abort_epoch (c : Cause) (s : State) : (s.abort c).epoch = s.epoch := (rfl)

/-! ### `State.startRx`: START_RX -/

@[simp] theorem State.startRx_cfg (s : State) : (s.startRx).cfg = s.cfg := (rfl)
@[simp] theorem State.startRx_lsbFirst (s : State) : (s.startRx).lsbFirst = s.lsbFirst := (rfl)
@[simp] theorem State.startRx_flags (s : State) : (s.startRx).flags = s.flags := (rfl)
@[simp] theorem State.startRx_txreq (s : State) : (s.startRx).txreq = s.txreq := (rfl)
@[simp] theorem State.startRx_seq (s : State) : (s.startRx).seq = .receiving .rxFirst := (rfl)
@[simp] theorem State.startRx_reqOut (s : State) : (s.startRx).reqOut = true := (rfl)
@[simp] theorem State.startRx_linesFloat (s : State) :
    (s.startRx).linesFloat = s.linesFloat := (rfl)
@[simp] theorem State.startRx_den (s : State) : (s.startRx).den = s.den := (rfl)
@[simp] theorem State.startRx_hrdy (s : State) : (s.startRx).hrdy = s.hrdy := (rfl)
@[simp] theorem State.startRx_ovfCur (s : State) : (s.startRx).ovfCur = false := (rfl)
@[simp] theorem State.startRx_lasterr (s : State) : (s.startRx).lasterr = s.lasterr := (rfl)
@[simp] theorem State.startRx_txlen (s : State) : (s.startRx).txlen = s.txlen := (rfl)
@[simp] theorem State.startRx_txidx (s : State) : (s.startRx).txidx = s.txidx := (rfl)
@[simp] theorem State.startRx_txres (s : State) : (s.startRx).txres = s.txres := (rfl)
@[simp] theorem State.startRx_rxwr (s : State) : (s.startRx).rxwr = s.rxwr := (rfl)
@[simp] theorem State.startRx_rxparse (s : State) : (s.startRx).rxparse = s.rxparse := (rfl)
@[simp] theorem State.startRx_rxrd (s : State) : (s.startRx).rxrd = s.rxrd := (rfl)
@[simp] theorem State.startRx_rxunread (s : State) : (s.startRx).rxunread = s.rxunread := (rfl)
@[simp] theorem State.startRx_rxcnt (s : State) : (s.startRx).rxcnt = 0#16 := (rfl)
@[simp] theorem State.startRx_tocnt (s : State) : (s.startRx).tocnt = 0#16 := (rfl)
@[simp] theorem State.startRx_txout (s : State) : (s.startRx).txout = s.txout := (rfl)
@[simp] theorem State.startRx_cnt (s : State) : (s.startRx).cnt = s.cnt := (rfl)
@[simp] theorem State.startRx_txb (s : State) : (s.startRx).txb = s.txb := (rfl)
@[simp] theorem State.startRx_rxb (s : State) : (s.startRx).rxb = s.rxb := (rfl)
@[simp] theorem State.startRx_trace (s : State) :
    (s.startRx).trace = if s.linesFloat then s.trace else s.trace ++ [.pulse] := (rfl)
@[simp] theorem State.startRx_inbox (s : State) : (s.startRx).inbox = s.inbox := (rfl)
@[simp] theorem State.startRx_rdata (s : State) : (s.startRx).rdata = s.rdata := (rfl)
@[simp] theorem State.startRx_epoch (s : State) : (s.startRx).epoch = s.epoch := (rfl)

/-! ### `State.startTx`: START_TX -/

@[simp] theorem State.startTx_cfg (s : State) : (s.startTx).cfg = s.cfg := (rfl)
@[simp] theorem State.startTx_lsbFirst (s : State) : (s.startTx).lsbFirst = s.lsbFirst := (rfl)
@[simp] theorem State.startTx_flags (s : State) : (s.startTx).flags = s.flags := (rfl)
@[simp] theorem State.startTx_txreq (s : State) : (s.startTx).txreq = s.txreq := (rfl)
@[simp] theorem State.startTx_seq (s : State) : (s.startTx).seq = .transmitting .txWaitDen := (rfl)
@[simp] theorem State.startTx_reqOut (s : State) : (s.startTx).reqOut = s.reqOut := (rfl)
@[simp] theorem State.startTx_linesFloat (s : State) :
    (s.startTx).linesFloat = s.linesFloat := (rfl)
@[simp] theorem State.startTx_den (s : State) : (s.startTx).den = s.den := (rfl)
@[simp] theorem State.startTx_hrdy (s : State) : (s.startTx).hrdy = true := (rfl)
@[simp] theorem State.startTx_ovfCur (s : State) : (s.startTx).ovfCur = s.ovfCur := (rfl)
@[simp] theorem State.startTx_lasterr (s : State) : (s.startTx).lasterr = s.lasterr := (rfl)
@[simp] theorem State.startTx_txlen (s : State) : (s.startTx).txlen = s.txlen := (rfl)
@[simp] theorem State.startTx_txidx (s : State) : (s.startTx).txidx = 0#9 := (rfl)
@[simp] theorem State.startTx_txres (s : State) : (s.startTx).txres = .busy := (rfl)
@[simp] theorem State.startTx_rxwr (s : State) : (s.startTx).rxwr = s.rxwr := (rfl)
@[simp] theorem State.startTx_rxparse (s : State) : (s.startTx).rxparse = s.rxparse := (rfl)
@[simp] theorem State.startTx_rxrd (s : State) : (s.startTx).rxrd = s.rxrd := (rfl)
@[simp] theorem State.startTx_rxunread (s : State) : (s.startTx).rxunread = s.rxunread := (rfl)
@[simp] theorem State.startTx_rxcnt (s : State) : (s.startTx).rxcnt = s.rxcnt := (rfl)
@[simp] theorem State.startTx_tocnt (s : State) : (s.startTx).tocnt = 0#16 := (rfl)
@[simp] theorem State.startTx_txout (s : State) : (s.startTx).txout = 0#8 := (rfl)
@[simp] theorem State.startTx_cnt (s : State) : (s.startTx).cnt = s.cnt := (rfl)
@[simp] theorem State.startTx_txb (s : State) : (s.startTx).txb = s.txb := (rfl)
@[simp] theorem State.startTx_rxb (s : State) : (s.startTx).rxb = s.rxb := (rfl)
@[simp] theorem State.startTx_trace (s : State) :
    (s.startTx).trace = if s.hrdy = true then s.trace else s.trace ++ [.hrdy true] := (rfl)
@[simp] theorem State.startTx_inbox (s : State) : (s.startTx).inbox = s.inbox := (rfl)
@[simp] theorem State.startTx_rdata (s : State) : (s.startTx).rdata = s.rdata := (rfl)
@[simp] theorem State.startTx_epoch (s : State) : (s.startTx).epoch = s.epoch := (rfl)

/-! ### `State.rejectFrame`: REJECT_FRAME -/

@[simp] theorem State.rejectFrame_cfg (j : Judgement) (s : State) :
    (s.rejectFrame j).cfg = s.cfg := (rfl)
@[simp] theorem State.rejectFrame_lsbFirst (j : Judgement) (s : State) :
    (s.rejectFrame j).lsbFirst = s.lsbFirst := (rfl)
@[simp] theorem State.rejectFrame_flags (j : Judgement) (s : State) :
    (s.rejectFrame j).flags = (s.flags.raiseIf j.lenBad .lenerr).raiseIf j.ckBad .ckerr := (rfl)
@[simp] theorem State.rejectFrame_txreq (j : Judgement) (s : State) :
    (s.rejectFrame j).txreq = s.txreq := (rfl)
@[simp] theorem State.rejectFrame_seq (j : Judgement) (s : State) :
    (s.rejectFrame j).seq = s.seq := (rfl)
@[simp] theorem State.rejectFrame_reqOut (j : Judgement) (s : State) :
    (s.rejectFrame j).reqOut = s.reqOut := (rfl)
@[simp] theorem State.rejectFrame_linesFloat (j : Judgement) (s : State) :
    (s.rejectFrame j).linesFloat = s.linesFloat := (rfl)
@[simp] theorem State.rejectFrame_den (j : Judgement) (s : State) :
    (s.rejectFrame j).den = s.den := (rfl)
@[simp] theorem State.rejectFrame_hrdy (j : Judgement) (s : State) :
    (s.rejectFrame j).hrdy = s.hrdy := (rfl)
@[simp] theorem State.rejectFrame_ovfCur (j : Judgement) (s : State) :
    (s.rejectFrame j).ovfCur = s.ovfCur := (rfl)
@[simp] theorem State.rejectFrame_lasterr (j : Judgement) (s : State) :
    (s.rejectFrame j).lasterr = j.verdict.errCode := (rfl)
@[simp] theorem State.rejectFrame_txlen (j : Judgement) (s : State) :
    (s.rejectFrame j).txlen = s.txlen := (rfl)
@[simp] theorem State.rejectFrame_txidx (j : Judgement) (s : State) :
    (s.rejectFrame j).txidx = s.txidx := (rfl)
@[simp] theorem State.rejectFrame_txres (j : Judgement) (s : State) :
    (s.rejectFrame j).txres = s.txres := (rfl)
@[simp] theorem State.rejectFrame_rxwr (j : Judgement) (s : State) :
    (s.rejectFrame j).rxwr = s.rxwr := (rfl)
@[simp] theorem State.rejectFrame_rxparse (j : Judgement) (s : State) :
    (s.rejectFrame j).rxparse = s.rxwr := (rfl)
@[simp] theorem State.rejectFrame_rxrd (j : Judgement) (s : State) :
    (s.rejectFrame j).rxrd = s.rxwr := (rfl)
@[simp] theorem State.rejectFrame_rxunread (j : Judgement) (s : State) :
    (s.rejectFrame j).rxunread = 0#10 := (rfl)
@[simp] theorem State.rejectFrame_rxcnt (j : Judgement) (s : State) :
    (s.rejectFrame j).rxcnt = s.rxcnt := (rfl)
@[simp] theorem State.rejectFrame_tocnt (j : Judgement) (s : State) :
    (s.rejectFrame j).tocnt = s.tocnt := (rfl)
@[simp] theorem State.rejectFrame_txout (j : Judgement) (s : State) :
    (s.rejectFrame j).txout = s.txout := (rfl)
@[simp] theorem State.rejectFrame_cnt (j : Judgement) (s : State) :
    (s.rejectFrame j).cnt = { s.cnt with rxFail := s.cnt.rxFail + 1#32, resync := s.cnt.resync + 1#32 } := (rfl)
@[simp] theorem State.rejectFrame_txb (j : Judgement) (s : State) :
    (s.rejectFrame j).txb = s.txb := (rfl)
@[simp] theorem State.rejectFrame_rxb (j : Judgement) (s : State) :
    (s.rejectFrame j).rxb = s.rxb := (rfl)
@[simp] theorem State.rejectFrame_trace (j : Judgement) (s : State) :
    (s.rejectFrame j).trace = s.trace := (rfl)
@[simp] theorem State.rejectFrame_inbox (j : Judgement) (s : State) :
    (s.rejectFrame j).inbox = s.inbox := (rfl)
@[simp] theorem State.rejectFrame_rdata (j : Judgement) (s : State) :
    (s.rejectFrame j).rdata = s.rdata := (rfl)
@[simp] theorem State.rejectFrame_epoch (j : Judgement) (s : State) :
    (s.rejectFrame j).epoch = s.epoch := (rfl)

/-! ### `State.finishDrain`: FINISH_DRAIN -/

@[simp] theorem State.finishDrain_cfg (s : State) : (s.finishDrain).cfg = s.cfg := (rfl)
@[simp] theorem State.finishDrain_lsbFirst (s : State) :
    (s.finishDrain).lsbFirst = s.lsbFirst := (rfl)
@[simp] theorem State.finishDrain_flags (s : State) : (s.finishDrain).flags = s.flags := (rfl)
@[simp] theorem State.finishDrain_txreq (s : State) : (s.finishDrain).txreq = s.txreq := (rfl)
@[simp] theorem State.finishDrain_seq (s : State) : (s.finishDrain).seq = .idle := (rfl)
@[simp] theorem State.finishDrain_reqOut (s : State) : (s.finishDrain).reqOut = false := (rfl)
@[simp] theorem State.finishDrain_linesFloat (s : State) :
    (s.finishDrain).linesFloat = s.linesFloat := (rfl)
@[simp] theorem State.finishDrain_den (s : State) : (s.finishDrain).den = s.den := (rfl)
@[simp] theorem State.finishDrain_hrdy (s : State) : (s.finishDrain).hrdy = s.hrdy := (rfl)
@[simp] theorem State.finishDrain_ovfCur (s : State) : (s.finishDrain).ovfCur = s.ovfCur := (rfl)
@[simp] theorem State.finishDrain_lasterr (s : State) : (s.finishDrain).lasterr = s.lasterr := (rfl)
@[simp] theorem State.finishDrain_txlen (s : State) : (s.finishDrain).txlen = s.txlen := (rfl)
@[simp] theorem State.finishDrain_txidx (s : State) : (s.finishDrain).txidx = s.txidx := (rfl)
@[simp] theorem State.finishDrain_txres (s : State) : (s.finishDrain).txres = s.txres := (rfl)
@[simp] theorem State.finishDrain_rxwr (s : State) : (s.finishDrain).rxwr = s.rxwr := (rfl)
@[simp] theorem State.finishDrain_rxparse (s : State) : (s.finishDrain).rxparse = s.rxwr := (rfl)
@[simp] theorem State.finishDrain_rxrd (s : State) : (s.finishDrain).rxrd = s.rxwr := (rfl)
@[simp] theorem State.finishDrain_rxunread (s : State) : (s.finishDrain).rxunread = 0#10 := (rfl)
@[simp] theorem State.finishDrain_rxcnt (s : State) : (s.finishDrain).rxcnt = s.rxcnt := (rfl)
@[simp] theorem State.finishDrain_tocnt (s : State) : (s.finishDrain).tocnt = 0#16 := (rfl)
@[simp] theorem State.finishDrain_txout (s : State) : (s.finishDrain).txout = s.txout := (rfl)
@[simp] theorem State.finishDrain_cnt (s : State) :
    (s.finishDrain).cnt = { s.cnt with rxFail := s.cnt.rxFail + 1#32, resync := s.cnt.resync + 1#32 } := (rfl)
@[simp] theorem State.finishDrain_txb (s : State) : (s.finishDrain).txb = s.txb := (rfl)
@[simp] theorem State.finishDrain_rxb (s : State) : (s.finishDrain).rxb = s.rxb := (rfl)
@[simp] theorem State.finishDrain_trace (s : State) : (s.finishDrain).trace = s.trace := (rfl)
@[simp] theorem State.finishDrain_inbox (s : State) : (s.finishDrain).inbox = s.inbox := (rfl)
@[simp] theorem State.finishDrain_rdata (s : State) : (s.finishDrain).rdata = s.rdata := (rfl)
@[simp] theorem State.finishDrain_epoch (s : State) : (s.finishDrain).epoch = s.epoch := (rfl)

/-! ### `State.lastByteDone`: LAST_BYTE_DONE -/

@[simp] theorem State.lastByteDone_cfg (s : State) : (s.lastByteDone).cfg = s.cfg := (rfl)
@[simp] theorem State.lastByteDone_lsbFirst (s : State) :
    (s.lastByteDone).lsbFirst = s.lsbFirst := (rfl)
@[simp] theorem State.lastByteDone_flags (s : State) :
    (s.lastByteDone).flags = s.flags.raiseIf true .txdone := (rfl)
@[simp] theorem State.lastByteDone_txreq (s : State) : (s.lastByteDone).txreq = false := (rfl)
@[simp] theorem State.lastByteDone_seq (s : State) :
    (s.lastByteDone).seq = .transmitting .txWaitDenLow := (rfl)
@[simp] theorem State.lastByteDone_reqOut (s : State) : (s.lastByteDone).reqOut = s.reqOut := (rfl)
@[simp] theorem State.lastByteDone_linesFloat (s : State) :
    (s.lastByteDone).linesFloat = s.linesFloat := (rfl)
@[simp] theorem State.lastByteDone_den (s : State) : (s.lastByteDone).den = s.den := (rfl)
@[simp] theorem State.lastByteDone_hrdy (s : State) : (s.lastByteDone).hrdy = s.hrdy := (rfl)
@[simp] theorem State.lastByteDone_ovfCur (s : State) : (s.lastByteDone).ovfCur = s.ovfCur := (rfl)
@[simp] theorem State.lastByteDone_lasterr (s : State) :
    (s.lastByteDone).lasterr = s.lasterr := (rfl)
@[simp] theorem State.lastByteDone_txlen (s : State) : (s.lastByteDone).txlen = s.txlen := (rfl)
@[simp] theorem State.lastByteDone_txidx (s : State) : (s.lastByteDone).txidx = s.txidx := (rfl)
@[simp] theorem State.lastByteDone_txres (s : State) : (s.lastByteDone).txres = .complete := (rfl)
@[simp] theorem State.lastByteDone_rxwr (s : State) : (s.lastByteDone).rxwr = s.rxwr := (rfl)
@[simp] theorem State.lastByteDone_rxparse (s : State) :
    (s.lastByteDone).rxparse = s.rxparse := (rfl)
@[simp] theorem State.lastByteDone_rxrd (s : State) : (s.lastByteDone).rxrd = s.rxrd := (rfl)
@[simp] theorem State.lastByteDone_rxunread (s : State) :
    (s.lastByteDone).rxunread = s.rxunread := (rfl)
@[simp] theorem State.lastByteDone_rxcnt (s : State) : (s.lastByteDone).rxcnt = s.rxcnt := (rfl)
@[simp] theorem State.lastByteDone_tocnt (s : State) : (s.lastByteDone).tocnt = 0#16 := (rfl)
@[simp] theorem State.lastByteDone_txout (s : State) : (s.lastByteDone).txout = 0#8 := (rfl)
@[simp] theorem State.lastByteDone_cnt (s : State) :
    (s.lastByteDone).cnt = { s.cnt with txOk := s.cnt.txOk + 1#32 } := (rfl)
@[simp] theorem State.lastByteDone_txb (s : State) : (s.lastByteDone).txb = s.txb := (rfl)
@[simp] theorem State.lastByteDone_rxb (s : State) : (s.lastByteDone).rxb = s.rxb := (rfl)
@[simp] theorem State.lastByteDone_trace (s : State) :
    (s.lastByteDone).trace = if s.linesFloat then s.trace else s.trace ++ [.pulse] := (rfl)
@[simp] theorem State.lastByteDone_inbox (s : State) : (s.lastByteDone).inbox = s.inbox := (rfl)
@[simp] theorem State.lastByteDone_rdata (s : State) : (s.lastByteDone).rdata = s.rdata := (rfl)
@[simp] theorem State.lastByteDone_epoch (s : State) : (s.lastByteDone).epoch = s.epoch := (rfl)

end Sys2Proof.Machine
end

