-- ==== Sys2Proof/Laws/Memory.lean ====
section
/-! SUPPORT. The laws of the byte arrays: read after write, a write leaves every other cell alone, and every
write keeps the canonical form. -/

namespace Sys2Proof.Machine

@[simp] theorem Memory.get_nil (i : Nat) : Memory.get [] i = none := rfl

@[simp] theorem Memory.wf_nil : Memory.wf [] = true := rfl

theorem Memory.get_put_same (m : Memory) (i : Nat) (b : Byte) :
    Memory.get (Memory.put m i b) i = some b := by
  induction m with
  | nil => simp [Memory.put, Memory.get]
  | cons c rest ih =>
    obtain ⟨j, d⟩ := c
    by_cases h1 : i < j
    · simp [Memory.put, Memory.get, h1]
    · by_cases h2 : i = j
      · simp [Memory.put, Memory.get, h2]
      · simp [Memory.put, Memory.get, h1, h2, Ne.symm h2, ih]

theorem Memory.get_put_other (m : Memory) {i k : Nat} (b : Byte) (h : k ≠ i) :
    Memory.get (Memory.put m i b) k = Memory.get m k := by
  induction m with
  | nil => simp [Memory.put, Memory.get, Ne.symm h]
  | cons c rest ih =>
    obtain ⟨j, d⟩ := c
    by_cases h1 : i < j
    · simp [Memory.put, Memory.get, h1, Ne.symm h]
    · by_cases h2 : i = j
      · subst h2
        simp [Memory.put, Memory.get, Ne.symm h]
      · by_cases h3 : j = k
        · subst h3; simp [Memory.put, Memory.get, h1, h2]
        · simp [Memory.put, Memory.get, h1, h2, h3, ih]

/-- What a cell reads as after a write: the one spec lemma of `Memory.put`. -/
theorem Memory.get_put (m : Memory) (i k : Nat) (b : Byte) :
    Memory.get (Memory.put m i b) k = if k = i then some b else Memory.get m k := by
  by_cases h : k = i
  · subst h; simp [Memory.get_put_same]
  · simp [h, Memory.get_put_other m b h]

/-- A canonical array's tail is canonical. -/
theorem Memory.wf_tail {c : Host.Cell} {rest : Memory} (h : Memory.wf (c :: rest) = true) :
    Memory.wf rest = true := by
  cases rest with
  | nil => rfl
  | cons d r => simp [Memory.wf] at h; exact h.2

/-- A canonical array in front of a smaller index is canonical. -/
theorem Memory.wf_cons {i : Nat} {b : Byte} {m : Memory} (h : Memory.wf m = true)
    (hlt : ∀ c ∈ m.head?, i < c.1) : Memory.wf ((i, b) :: m) = true := by
  cases m with
  | nil => rfl
  | cons c r => simp [Memory.wf, h, hlt c (by simp)]

/-- The first index of an array after a write. -/
theorem Memory.head_put (m : Memory) (i : Nat) (b : Byte) (c : Host.Cell)
    (h : c ∈ (Memory.put m i b).head?) : c.1 = i ∨ ∃ d ∈ m.head?, c.1 = d.1 := by
  cases m with
  | nil => simp [Memory.put] at h; simp [← h]
  | cons d r =>
    obtain ⟨j, e⟩ := d
    simp only [Memory.put] at h
    split at h
    · simp at h; simp [← h]
    · split at h
      · simp at h; simp [← h]
      · simp at h; simp [← h]

/-- Every write keeps the canonical form. -/
theorem Memory.wf_put (m : Memory) (i : Nat) (b : Byte) (h : Memory.wf m = true) :
    Memory.wf (Memory.put m i b) = true := by
  induction m with
  | nil => rfl
  | cons c rest ih =>
    obtain ⟨j, d⟩ := c
    simp only [Memory.put]
    split
    · next hlt => simp [Memory.wf, hlt, h]
    · split
      · next heq => subst heq; cases rest with
        | nil => rfl
        | cons e r => simpa [Memory.wf] using h
      · next hge hne =>
        refine Memory.wf_cons (ih (Memory.wf_tail h)) fun c hc => ?_
        rcases Memory.head_put rest i b c hc with h1 | ⟨e, he, h1⟩
        · omega
        · cases rest with
          | nil => simp at he
          | cons e' r => simp at he; subst he; simp [Memory.wf] at h; omega

/-- A canonical array lists nothing below its first index. -/
theorem Memory.get_lt_head {i : Nat} {c : Host.Cell} {rest : Memory}
    (h : Memory.wf (c :: rest) = true) (hi : i < c.1) : Memory.get (c :: rest) i = none := by
  induction rest generalizing c with
  | nil => obtain ⟨j, d⟩ := c; simp [Memory.get]; simp at hi; omega
  | cons d r ih =>
    obtain ⟨j, b⟩ := c
    obtain ⟨k, b'⟩ := d
    simp [Memory.wf] at h
    have hk : Memory.get ((k, b') :: r) i = none := ih h.2 (by simp at hi ⊢; omega)
    simp only [Memory.get]
    simp at hi
    rw [if_neg (by omega)]
    simpa [Memory.get] using hk

/-- Equal memories are equal data: canonical arrays that list the same bytes are equal. -/
theorem Memory.ext_get (m n : Memory) (hm : Memory.wf m = true) (hn : Memory.wf n = true)
    (h : ∀ i, Memory.get m i = Memory.get n i) : m = n := by
  induction m generalizing n with
  | nil =>
    cases n with
    | nil => rfl
    | cons c r => have := h c.1; simp [Memory.get] at this
  | cons c r ih =>
    cases n with
    | nil => have := h c.1; simp [Memory.get] at this
    | cons d t =>
      obtain ⟨i, b⟩ := c
      obtain ⟨j, e⟩ := d
      have hij : i = j := by
        rcases Nat.lt_trichotomy i j with hlt | heq | hgt
        · have h1 := h i; rw [Memory.get_lt_head hn hlt] at h1; simp [Memory.get] at h1
        · exact heq
        · have h1 := h j; rw [Memory.get_lt_head hm hgt] at h1; simp [Memory.get] at h1
      subst hij
      have hb : b = e := by simpa [Memory.get] using h i
      subst hb
      congr 1
      refine ih t (Memory.wf_tail hm) (Memory.wf_tail hn) fun k => ?_
      by_cases hk : i = k
      · subst hk
        have h1 : Memory.get r i = none := by
          cases r with
          | nil => rfl
          | cons x xs => exact Memory.get_lt_head (Memory.wf_tail hm) (by simp [Memory.wf] at hm; exact hm.1)
        have h2 : Memory.get t i = none := by
          cases t with
          | nil => rfl
          | cons x xs => exact Memory.get_lt_head (Memory.wf_tail hn) (by simp [Memory.wf] at hn; exact hn.1)
        rw [h1, h2]
      · simpa [Memory.get, hk] using h k

/-- `TXB[k]` after `TXB[i] <- b`. -/
@[simp] theorem State.txbByte_setTxb (i : Nat) (b : Byte) (s : State) (k : Nat) :
    (s.setTxb i b).txbByte k = if k = i then b else s.txbByte k := by
  simp only [State.txbByte, State.setTxb_txb, State.setTxb_epoch, Memory.get_put]
  split <;> simp

/-- `RXB[k]` after `RXB[i] <- b`. -/
@[simp] theorem State.rxbByte_setRxb (i : Nat) (b : Byte) (s : State) (k : Nat) :
    (s.setRxb i b).rxbByte k = if k = i then b else s.rxbByte k := by
  simp only [State.rxbByte, State.setRxb_rxb, State.setRxb_epoch, Memory.get_put]
  split <;> simp

/-- A byte of TXB depends on the array and the reset count alone. -/
theorem State.txbByte_congr {s t : State} (h1 : t.txb = s.txb) (h2 : t.epoch = s.epoch) (k : Nat) :
    t.txbByte k = s.txbByte k := by
  simp [State.txbByte, h1, h2]

/-- A byte of RXB depends on the array and the reset count alone. -/
theorem State.rxbByte_congr {s t : State} (h1 : t.rxb = s.rxb) (h2 : t.epoch = s.epoch) (k : Nat) :
    t.rxbByte k = s.rxbByte k := by
  simp [State.rxbByte, h1, h2]

/-- The reset state's arrays are canonical. -/
theorem State.reset_memory_wf :
    Memory.wf State.reset.txb = true ∧ Memory.wf State.reset.rxb = true := ⟨rfl, rfl⟩

end Sys2Proof.Machine
end

