-- ==== Sys2Proof/Laws/Seq.lean ====
section
/-! SUPPORT. The point of control by name: what each predicate of the phases says of each phase, so that no proof
unfolds one. -/

namespace Sys2Proof

@[simp] theorem SeqState.isReceiving_idle : SeqState.isReceiving .idle = false := rfl
@[simp] theorem SeqState.isReceiving_aborting : SeqState.isReceiving .aborting = false := rfl
@[simp] theorem SeqState.isReceiving_noResponse : SeqState.isReceiving .noResponse = false := rfl
@[simp] theorem SeqState.isReceiving_receiving (p : RxPhase) :
    SeqState.isReceiving (.receiving p) = true := rfl
@[simp] theorem SeqState.isReceiving_transmitting (p : TxPhase) :
    SeqState.isReceiving (.transmitting p) = false := rfl

@[simp] theorem SeqState.isTransmitting_idle : SeqState.isTransmitting .idle = false := rfl
@[simp] theorem SeqState.isTransmitting_aborting : SeqState.isTransmitting .aborting = false := rfl
@[simp] theorem SeqState.isTransmitting_noResponse : SeqState.isTransmitting .noResponse = false := rfl
@[simp] theorem SeqState.isTransmitting_receiving (p : RxPhase) :
    SeqState.isTransmitting (.receiving p) = false := rfl
@[simp] theorem SeqState.isTransmitting_transmitting (p : TxPhase) :
    SeqState.isTransmitting (.transmitting p) = true := rfl

@[simp] theorem SeqState.quiet_idle : SeqState.quiet .idle = true := rfl
@[simp] theorem SeqState.quiet_aborting : SeqState.quiet .aborting = true := rfl
@[simp] theorem SeqState.quiet_noResponse : SeqState.quiet .noResponse = true := rfl
@[simp] theorem SeqState.quiet_receiving (p : RxPhase) :
    SeqState.quiet (.receiving p) = false := rfl
@[simp] theorem SeqState.quiet_transmitting (p : TxPhase) :
    SeqState.quiet (.transmitting p) = false := rfl

@[simp] theorem SeqState.requestsByte_idle : SeqState.requestsByte .idle = false := rfl
@[simp] theorem SeqState.requestsByte_aborting : SeqState.requestsByte .aborting = false := rfl
@[simp] theorem SeqState.requestsByte_noResponse : SeqState.requestsByte .noResponse = false := rfl
@[simp] theorem SeqState.requestsByte_receiving (p : RxPhase) :
    SeqState.requestsByte (.receiving p) = true := rfl
@[simp] theorem SeqState.requestsByte_txWaitDen :
    SeqState.requestsByte (.transmitting .txWaitDen) = false := rfl
@[simp] theorem SeqState.requestsByte_txWaitCts :
    SeqState.requestsByte (.transmitting .txWaitCts) = true := rfl
@[simp] theorem SeqState.requestsByte_txData :
    SeqState.requestsByte (.transmitting .txData) = true := rfl
@[simp] theorem SeqState.requestsByte_txWaitDenLow :
    SeqState.requestsByte (.transmitting .txWaitDenLow) = false := rfl

@[simp] theorem SeqState.drivesHrdy_idle : SeqState.drivesHrdy .idle = false := rfl
@[simp] theorem SeqState.drivesHrdy_aborting : SeqState.drivesHrdy .aborting = false := rfl
@[simp] theorem SeqState.drivesHrdy_noResponse : SeqState.drivesHrdy .noResponse = false := rfl
@[simp] theorem SeqState.drivesHrdy_receiving (p : RxPhase) :
    SeqState.drivesHrdy (.receiving p) = false := rfl
@[simp] theorem SeqState.drivesHrdy_txWaitDen :
    SeqState.drivesHrdy (.transmitting .txWaitDen) = true := rfl
@[simp] theorem SeqState.drivesHrdy_txWaitCts :
    SeqState.drivesHrdy (.transmitting .txWaitCts) = true := rfl
@[simp] theorem SeqState.drivesHrdy_txData :
    SeqState.drivesHrdy (.transmitting .txData) = false := rfl
@[simp] theorem SeqState.drivesHrdy_txWaitDenLow :
    SeqState.drivesHrdy (.transmitting .txWaitDenLow) = false := rfl

@[simp] theorem SeqState.busyPhase_idle : SeqState.busyPhase .idle = false := rfl
@[simp] theorem SeqState.busyPhase_aborting : SeqState.busyPhase .aborting = false := rfl
@[simp] theorem SeqState.busyPhase_noResponse : SeqState.busyPhase .noResponse = false := rfl
@[simp] theorem SeqState.busyPhase_receiving (p : RxPhase) :
    SeqState.busyPhase (.receiving p) = false := rfl
@[simp] theorem SeqState.busyPhase_txWaitDen :
    SeqState.busyPhase (.transmitting .txWaitDen) = true := rfl
@[simp] theorem SeqState.busyPhase_txWaitCts :
    SeqState.busyPhase (.transmitting .txWaitCts) = true := rfl
@[simp] theorem SeqState.busyPhase_txData :
    SeqState.busyPhase (.transmitting .txData) = true := rfl
@[simp] theorem SeqState.busyPhase_txWaitDenLow :
    SeqState.busyPhase (.transmitting .txWaitDenLow) = false := rfl

@[simp] theorem SeqState.mayPend_idle : SeqState.mayPend .idle = true := rfl
@[simp] theorem SeqState.mayPend_aborting : SeqState.mayPend .aborting = true := rfl
@[simp] theorem SeqState.mayPend_noResponse : SeqState.mayPend .noResponse = false := rfl
@[simp] theorem SeqState.mayPend_receiving (p : RxPhase) :
    SeqState.mayPend (.receiving p) = true := rfl
@[simp] theorem SeqState.mayPend_txWaitDen :
    SeqState.mayPend (.transmitting .txWaitDen) = false := rfl
@[simp] theorem SeqState.mayPend_txWaitCts :
    SeqState.mayPend (.transmitting .txWaitCts) = false := rfl
@[simp] theorem SeqState.mayPend_txData :
    SeqState.mayPend (.transmitting .txData) = false := rfl
@[simp] theorem SeqState.mayPend_txWaitDenLow :
    SeqState.mayPend (.transmitting .txWaitDenLow) = true := rfl

@[simp] theorem SeqState.needsDen_idle : SeqState.needsDen .idle = false := rfl
@[simp] theorem SeqState.needsDen_aborting : SeqState.needsDen .aborting = false := rfl
@[simp] theorem SeqState.needsDen_noResponse : SeqState.needsDen .noResponse = false := rfl
@[simp] theorem SeqState.needsDen_receiving (p : RxPhase) :
    SeqState.needsDen (.receiving p) = true := rfl
@[simp] theorem SeqState.needsDen_txWaitDen :
    SeqState.needsDen (.transmitting .txWaitDen) = false := rfl
@[simp] theorem SeqState.needsDen_txWaitCts :
    SeqState.needsDen (.transmitting .txWaitCts) = true := rfl
@[simp] theorem SeqState.needsDen_txData :
    SeqState.needsDen (.transmitting .txData) = true := rfl
@[simp] theorem SeqState.needsDen_txWaitDenLow :
    SeqState.needsDen (.transmitting .txWaitDenLow) = true := rfl

/-- A phase in which TXRES is BUSY is a phase of TRANSMITTING. -/
theorem SeqState.transmitting_of_busyPhase {q : SeqState} (h : q.busyPhase = true) :
    q.isTransmitting = true := by
  cases q <;> simp_all

/-- A phase in which TXRES is BUSY is none a PENDING result may stand in. -/
theorem SeqState.not_mayPend_of_busyPhase {q : SeqState} (h : q.busyPhase = true) :
    q.mayPend = false := by
  cases q with
  | transmitting p => cases p <;> simp_all
  | _ => simp_all

namespace Machine

@[simp] theorem TxRes.isOpen_none : TxRes.isOpen .none = false := rfl
@[simp] theorem TxRes.isOpen_pending : TxRes.isOpen .pending = true := rfl
@[simp] theorem TxRes.isOpen_busy : TxRes.isOpen .busy = true := rfl
@[simp] theorem TxRes.isOpen_complete : TxRes.isOpen .complete = false := rfl
@[simp] theorem TxRes.isOpen_retry : TxRes.isOpen .retry = false := rfl
@[simp] theorem TxRes.isOpen_timeout : TxRes.isOpen .timeout = false := rfl
@[simp] theorem TxRes.isOpen_error : TxRes.isOpen .error = false := rfl

end Machine

end Sys2Proof
end

