-- ==== Sys2Proof/Laws/Ring.lean ====
section
/-! SUPPORT. The ring: arithmetic modulo N (spec/20_memory.md R91), and how a run of frames is read, grows and
shrinks (spec/10_state.md R60 items 7 and 8). -/

namespace Sys2Proof

/-- What a legal configuration says of each parameter (R7, R8). -/
theorem Params.legal_bounds {p : Params} (h : p.legal = true) :
    p.ctsByte ≠ p.syncByte ∧ 1 ≤ p.maxLength ∧ p.maxLength ≤ 255 ∧ 4 ≤ p.rxbufSize ∧
      p.rxbufSize ≤ 1024 ∧ 1 ≤ p.tWait ∧ p.tWait ≤ 65535 := by
  simp only [Params.legal, Bool.and_eq_true, bne_iff_ne, decide_eq_true_eq] at h
  obtain ⟨⟨⟨⟨⟨⟨⟨h1, h2⟩, h3⟩, h4⟩, h5⟩, h6⟩, h7⟩, -⟩ := h
  exact ⟨h1, h2, h3, h4, h5, h6, h7⟩

namespace Machine

theorem ringAdd_lt {n : Nat} (hn : 0 < n) (a k : Nat) : ringAdd n a k < n := Nat.mod_lt _ hn

theorem ringDist_lt {n : Nat} (hn : 0 < n) (b a : Nat) : ringDist n b a < n := Nat.mod_lt _ hn

@[simp] theorem ringAdd_zero {n a : Nat} (h : a < n) : ringAdd n a 0 = a := by
  simp [ringAdd, Nat.mod_eq_of_lt h]

theorem ringAdd_ringAdd (n a i j : Nat) : ringAdd n (ringAdd n a i) j = ringAdd n a (i + j) := by
  simp [ringAdd, Nat.add_assoc]

theorem ringDist_self {n a : Nat} (h : a < n) : ringDist n a a = 0 := by
  rw [ringDist, Nat.mod_eq_of_lt h, show a + (n - a) = n by omega, Nat.mod_self]

/-- The distance to an index reached by `k` steps is `k`. -/
theorem ringDist_ringAdd {n a k : Nat} (ha : a < n) (hk : k < n) : ringDist n a (ringAdd n a k) = k := by
  rw [ringDist, ringAdd, Nat.mod_eq_of_lt ha]
  by_cases h : a + k < n
  · rw [Nat.mod_eq_of_lt h, show a + k + (n - a) = k + n by omega, Nat.add_mod_right,
      Nat.mod_eq_of_lt hk]
  · have e : (a + k) % n = a + k - n := by
      rw [Nat.mod_eq_sub_mod (by omega), Nat.mod_eq_of_lt (by omega)]
    rw [e, show a + k - n + (n - a) = k by omega, Nat.mod_eq_of_lt hk]

/-- Walking the distance reaches the index. -/
theorem ringAdd_ringDist {n a b : Nat} (hb : b < n) (ha : a < n) : ringAdd n b (ringDist n b a) = a := by
  rw [ringDist, ringAdd, Nat.mod_eq_of_lt hb]
  by_cases h : b ≤ a
  · rw [show a + (n - b) = (a - b) + n by omega, Nat.add_mod_right,
      Nat.mod_eq_of_lt (show a - b < n by omega), show b + (a - b) = a by omega, Nat.mod_eq_of_lt ha]
  · rw [Nat.mod_eq_of_lt (show a + (n - b) < n by omega), show b + (a + (n - b)) = a + n by omega,
      Nat.add_mod_right, Nat.mod_eq_of_lt ha]

/-- Two walks shorter than the ring that end at one index are as long. -/
theorem ringAdd_inj {n a i j : Nat} (ha : a < n) (hi : i < n) (hj : j < n)
    (h : ringAdd n a i = ringAdd n a j) : i = j := by
  rw [← ringDist_ringAdd ha hi, h, ringDist_ringAdd ha hj]

/-- The cursor `(c + k) mod N` as a number. -/
theorem State.advance_toNat {s : State} (h : s.cfg.legal = true) (c : BitVec 10) (k : Nat) :
    (s.advance c k).toNat = ringAdd s.cfg.rxbufSize c.toNat k := by
  have hb := Params.legal_bounds h
  have hl : ringAdd s.cfg.rxbufSize c.toNat k < s.cfg.rxbufSize := ringAdd_lt (by omega) _ _
  rw [State.advance, BitVec.toNat_ofNat, Nat.mod_eq_of_lt (by omega)]

/-- A frame byte counted from further on in the ring. -/
theorem State.frameByte_ringAdd (s : State) (k i j : Nat) :
    s.frameByte (ringAdd s.cfg.rxbufSize k i) j = s.frameByte k (i + j) := by
  simp [State.frameByte, ringAdd_ringAdd]

/-- A frame's size is at least 3. -/
theorem State.frameSize_pos (s : State) (k : Nat) : 3 ≤ s.frameSize k := by
  simp [State.frameSize]

/-- VALIDATE reads only the `n` bytes it judges. -/
theorem State.validate_congr {s t : State} {k n : Nat} (ovf : Bool)
    (h : ∀ i, i < n → t.frameByte k i = s.frameByte k i) :
    t.validate k n ovf = s.validate k n ovf := by
  by_cases hn : n < 2
  · simp [State.validate, hn]
  · have h1 : t.frameSize k = s.frameSize k := by simp [State.frameSize, h 1 (by omega)]
    have h2 : t.frameBytes k (n - 1) = s.frameBytes k (n - 1) := by
      refine List.map_congr_left fun i hi => h i ?_
      simp at hi; omega
    have h3 : t.frameByte k (n - 1) = s.frameByte k (n - 1) := h _ (by omega)
    simp [State.validate, hn, h1, h2, h3]

/-- A run of frames depends on the bytes it fills alone. -/
theorem State.framesSpan_congr {s t : State} (hc : t.cfg = s.cfg) (count k len : Nat)
    (h : ∀ i, i < len → t.frameByte k i = s.frameByte k i) (hs : s.framesSpan count k len) :
    t.framesSpan count k len := by
  induction count generalizing k len with
  | zero => exact hs
  | succ n ih =>
    obtain ⟨h1, h2, h3, h4⟩ := hs
    have h0 := s.frameSize_pos k
    have hsz : t.frameSize k = s.frameSize k := by simp [State.frameSize, h 1 (by omega)]
    refine ⟨by omega, ?_, ?_, ?_⟩
    · rw [hsz, State.validate_congr false fun i hi => h i (by omega)]; exact h2
    · rw [h 0 (by omega), hc]; exact h3
    · rw [hsz, hc]
      refine ih _ _ (fun i hi => ?_) h4
      have ht := t.frameByte_ringAdd k (s.frameSize k) i
      rw [hc] at ht
      rw [ht, s.frameByte_ringAdd]
      exact h _ (by omega)

/-- Each frame takes at least 3 bytes. -/
theorem State.framesSpan_count {s : State} (count k len : Nat) (h : s.framesSpan count k len) :
    3 * count ≤ len := by
  induction count generalizing k len with
  | zero => omega
  | succ n ih =>
    obtain ⟨h1, -, -, h4⟩ := h
    have := ih _ _ h4
    have := s.frameSize_pos k
    omega

/-- One more valid frame behind a run of frames. -/
theorem State.framesSpan_snoc {s : State} (count k len : Nat) (h : s.framesSpan count k len)
    (hk : k < s.cfg.rxbufSize)
    (hv : (s.validate (ringAdd s.cfg.rxbufSize k len)
      (s.frameSize (ringAdd s.cfg.rxbufSize k len)) false).verdict = .ok)
    (h0 : s.frameByte (ringAdd s.cfg.rxbufSize k len) 0 = s.cfg.syncByte) :
    s.framesSpan (count + 1) k (len + s.frameSize (ringAdd s.cfg.rxbufSize k len)) := by
  induction count generalizing k len with
  | zero =>
    have hl : len = 0 := h
    subst hl
    rw [ringAdd_zero hk] at *
    refine ⟨by omega, hv, h0, ?_⟩
    simp [State.framesSpan]
  | succ n ih =>
    obtain ⟨h1, h2, h3, h4⟩ := h
    have hp := s.frameSize_pos k
    have he : ringAdd s.cfg.rxbufSize (ringAdd s.cfg.rxbufSize k (s.frameSize k)) (len - s.frameSize k)
        = ringAdd s.cfg.rxbufSize k len := by
      rw [ringAdd_ringAdd, show s.frameSize k + (len - s.frameSize k) = len by omega]
    have hk' : ringAdd s.cfg.rxbufSize k (s.frameSize k) < s.cfg.rxbufSize := ringAdd_lt (by omega) _ _
    have := ih _ _ h4 hk' (by rw [he]; exact hv) (by rw [he]; exact h0)
    rw [he] at this
    refine ⟨by omega, h2, h3, ?_⟩
    rw [show len + s.frameSize (ringAdd s.cfg.rxbufSize k len) - s.frameSize k
      = len - s.frameSize k + s.frameSize (ringAdd s.cfg.rxbufSize k len) by omega]
    exact this

end Machine

end Sys2Proof
end

