-- ==== Sys2Proof/Laws/RingInv.lean ====
section
/-! SUPPORT. How the ring invariant (spec/10_state.md R60 items 7 and 8) goes through each change of the ring: an
unrelated update, RING_PUT, ACCEPT_FRAME, RX_RELEASE, RESYNC and PARK. -/

namespace Sys2Proof.Machine

variable {s t : State}

/-! ## Updates that leave the ring alone -/

theorem State.frameByte_congr (hc : t.cfg = s.cfg) (hb : t.rxb = s.rxb) (he : t.epoch = s.epoch)
    (k i : Nat) : t.frameByte k i = s.frameByte k i := by
  simp [State.frameByte, hc, State.rxbByte_congr hb he]

theorem State.framesSpan_of_eq (hc : t.cfg = s.cfg) (hb : t.rxb = s.rxb) (he : t.epoch = s.epoch)
    {count k len : Nat} (h : s.framesSpan count k len) : t.framesSpan count k len :=
  State.framesSpan_congr hc _ _ _ (fun i _ => State.frameByte_congr hc hb he k i) h

/-- The cursors' invariant depends on the ring alone. -/
theorem RingCursors.of_eq (h : RingCursors s) (hc : t.cfg = s.cfg) (hb : t.rxb = s.rxb)
    (he : t.epoch = s.epoch) (hwr : t.rxwr = s.rxwr) (hpa : t.rxparse = s.rxparse)
    (hrd : t.rxrd = s.rxrd) (hun : t.rxunread = s.rxunread) : RingCursors t := by
  have hu : t.unreadSpan = s.unreadSpan := by simp [State.unreadSpan, hc, hpa, hrd]
  have hp : t.partialSpan = s.partialSpan := by simp [State.partialSpan, hc, hpa, hwr]
  have ho : t.occ = s.occ := by simp [State.occ, hc, hrd, hwr]
  refine ⟨by rw [hwr, hc]; exact h.wr, by rw [hpa, hc]; exact h.parse, by rw [hrd, hc]; exact h.rd,
    by rw [hu, hp, ho]; exact h.path, ?_⟩
  rw [hun, hrd, hu]
  exact State.framesSpan_of_eq hc hb he h.frames

theorem RingPhase.of_eq (h : RingPhase s) (hc : t.cfg = s.cfg) (hb : t.rxb = s.rxb)
    (he : t.epoch = s.epoch) (hwr : t.rxwr = s.rxwr) (hpa : t.rxparse = s.rxparse) (hq : t.seq = s.seq)
    (hn : t.rxcnt = s.rxcnt) (ho : t.ovfCur = s.ovfCur) : RingPhase t := by
  have hp : t.partialSpan = s.partialSpan := by simp [State.partialSpan, hc, hpa, hwr]
  refine ⟨by rw [hq, hwr, hpa, hn, ho]; exact h.first, ?_, by rw [hq, hwr, hpa]; exact h.drain⟩
  rw [hq, ho, hp, hn, hpa, State.frameByte_congr hc hb he, hc]
  exact h.body

theorem RingPhase.of_not_receiving (h : s.seq.isReceiving = false) : RingPhase s := by
  constructor <;> intro hq <;> rw [hq] at h <;> simp at h

/-- A step that leaves the ring alone keeps its invariant. -/
theorem RingInv.of_eq (h : RingInv s) (hc : t.cfg = s.cfg) (hb : t.rxb = s.rxb)
    (he : t.epoch = s.epoch) (hwr : t.rxwr = s.rxwr) (hpa : t.rxparse = s.rxparse)
    (hrd : t.rxrd = s.rxrd) (hun : t.rxunread = s.rxunread)
    (hq : t.seq.isReceiving = false ∨ (t.seq = s.seq ∧ t.rxcnt = s.rxcnt ∧ t.ovfCur = s.ovfCur)) :
    RingInv t := by
  refine RingInv.mk (h.toRingCursors.of_eq hc hb he hwr hpa hrd hun) ?_
  rcases hq with hq | ⟨hq, hn, ho⟩
  · exact RingPhase.of_not_receiving hq
  · exact h.toRingPhase.of_eq hc hb he hwr hpa hq hn ho

/-! ## The cursors as walks along the ring -/

theorem RingCursors.wr_from_rd (h : RingCursors s) :
    s.rxwr.toNat = ringAdd s.cfg.rxbufSize s.rxrd.toNat s.occ := (ringAdd_ringDist h.rd h.wr).symm

theorem RingCursors.parse_from_rd (h : RingCursors s) :
    s.rxparse.toNat = ringAdd s.cfg.rxbufSize s.rxrd.toNat s.unreadSpan :=
  (ringAdd_ringDist h.rd h.parse).symm

theorem RingCursors.wr_from_parse (h : RingCursors s) :
    s.rxwr.toNat = ringAdd s.cfg.rxbufSize s.rxparse.toNat s.partialSpan :=
  (ringAdd_ringDist h.parse h.wr).symm

/-- R60 item 7, first half. -/
theorem State.occ_lt (hl : s.cfg.legal = true) : s.occ < s.cfg.rxbufSize :=
  ringDist_lt (by have := Params.legal_bounds hl; omega) _ _

/-- The count of unread frames is far below the width of RXUNREAD (41_receive.md R190). -/
theorem RingCursors.unread_bound (hl : s.cfg.legal = true) (h : RingCursors s) :
    3 * s.rxunread.toNat < s.cfg.rxbufSize := by
  have h1 := State.framesSpan_count _ _ _ h.frames
  have h2 : s.unreadSpan < s.cfg.rxbufSize :=
    ringDist_lt (by have := Params.legal_bounds hl; omega) _ _
  omega

/-! ## RING_PUT -/

theorem sat16Succ_toNat {v : BitVec 16} (h : v.toNat < 65535) :
    (sat16Succ v).toNat = v.toNat + 1 := by
  rw [sat16Succ, if_neg]
  · rw [BitVec.toNat_add]; simp; omega
  · intro e; rw [e] at h; simp at h

/-- RING_PUT on a ring that is not full moves RXWR one step on from RXPARSE. -/
theorem State.ringPut_partialSpan (hl : s.cfg.legal = true) (h : RingCursors s) (x : Byte)
    (hf : s.ringFull = false) : (s.ringPut x).partialSpan = s.partialSpan + 1 := by
  have hocc := State.occ_lt hl
  have hpath := h.path
  have hne : s.occ + 1 < s.cfg.rxbufSize := by simp [State.ringFull] at hf; omega
  have hw : (s.ringPut x).rxwr.toNat
      = ringAdd s.cfg.rxbufSize s.rxparse.toNat (s.partialSpan + 1) := by
    rw [State.ringPut_rxwr, if_neg (by simp [hf]), State.advance_toNat hl, h.wr_from_parse,
      ringAdd_ringAdd]
  rw [State.partialSpan, hw]
  exact ringDist_ringAdd (n := s.cfg.rxbufSize) h.parse (by omega)

/-- RING_PUT writes no byte of the area from RXRD to RXWR. -/
theorem State.ringPut_frameByte (hl : s.cfg.legal = true) (h : RingCursors s) (x : Byte) {i : Nat}
    (hi : i < s.occ) : (s.ringPut x).frameByte s.rxrd.toNat i = s.frameByte s.rxrd.toNat i := by
  have hocc := State.occ_lt hl
  by_cases hf : s.ringFull = true
  · exact State.frameByte_congr (s := s) (t := s.ringPut x) rfl (by simp [hf]) rfl _ _
  · have hne : ringAdd s.cfg.rxbufSize s.rxrd.toNat i ≠ s.rxwr.toNat := by
      rw [h.wr_from_rd]
      intro he
      have := ringAdd_inj h.rd (by omega) hocc he
      omega
    simp [State.frameByte, State.rxbByte, hf, Memory.get_put_other _ _ hne]

/-- The first byte of the partial frame after RING_PUT on a ring that is not full. -/
theorem State.ringPut_firstByte (hl : s.cfg.legal = true) (h : RingCursors s) (x : Byte)
    (hf : s.ringFull = false) :
    (s.ringPut x).frameByte s.rxparse.toNat 0
      = if s.partialSpan = 0 then x else s.frameByte s.rxparse.toNat 0 := by
  have hocc := State.occ_lt hl
  have hp := h.path
  simp only [State.frameByte, State.rxbByte, State.ringPut_rxb, hf, State.ringPut_epoch,
    State.ringPut_cfg, Bool.false_eq_true, if_false, Memory.get_put, h.wr_from_parse]
  by_cases h0 : s.partialSpan = 0
  · simp [h0]
  · rw [if_neg, if_neg h0]
    intro he
    exact h0 (ringAdd_inj h.parse (by omega) (by omega) he).symm

/-- RING_PUT keeps the cursors' invariant. -/
theorem RingCursors.ringPut (hl : s.cfg.legal = true) (h : RingCursors s) (x : Byte) :
    RingCursors (s.ringPut x) := by
  have hb := Params.legal_bounds hl
  by_cases hf : s.ringFull = true
  · refine h.of_eq rfl ?_ rfl ?_ rfl rfl rfl <;> simp [hf]
  · have hocc := State.occ_lt hl
    have hpath := h.path
    have hne : s.occ + 1 < s.cfg.rxbufSize := by simp [State.ringFull] at hf; omega
    have hw : (s.ringPut x).rxwr.toNat = ringAdd s.cfg.rxbufSize s.rxrd.toNat (s.occ + 1) := by
      rw [State.ringPut_rxwr, if_neg hf, State.advance_toNat hl, h.wr_from_rd, ringAdd_ringAdd]
    have ho : (s.ringPut x).occ = s.occ + 1 := by
      rw [State.occ, hw]; exact ringDist_ringAdd h.rd hne
    have hp := State.ringPut_partialSpan hl h x (by simpa using hf)
    have hu : (s.ringPut x).unreadSpan = s.unreadSpan := rfl
    refine ⟨?_, h.parse, h.rd, by rw [hu, hp, ho]; omega, ?_⟩
    · rw [hw]; exact ringAdd_lt (by omega) _ _
    · rw [hu]
      exact State.framesSpan_congr (t := s.ringPut x) (s := s) rfl _ _ _
        (fun i hi => State.ringPut_frameByte hl h x (by omega)) h.frames

/-- A reception that stores `x` behind what it has stored is in a good body. -/
theorem RingInv.store (hl : s.cfg.legal = true) (h : RingCursors s) (x : Byte)
    (h0 : s.ovfCur = false → s.partialSpan = s.rxcnt.toNat ∧
      ((s.rxcnt = 0#16 ∧ x = s.cfg.syncByte) ∨
        (1 ≤ s.rxcnt.toNat ∧ s.frameByte s.rxparse.toNat 0 = s.cfg.syncByte)))
    (hc : t.cfg = s.cfg) (hb : t.rxb = (s.ringPut x).rxb) (he : t.epoch = s.epoch)
    (hwr : t.rxwr = (s.ringPut x).rxwr) (hpa : t.rxparse = s.rxparse) (hrd : t.rxrd = s.rxrd)
    (hun : t.rxunread = s.rxunread) (hq : t.seq = .receiving .rxBody)
    (hn : t.rxcnt = (s.ringPut x).rxcnt) (ho : t.ovfCur = (s.ringPut x).ovfCur) : RingInv t := by
  have hput := h.ringPut hl x
  have hocc := State.occ_lt hl
  have hbd := Params.legal_bounds hl
  have hpath := h.path
  refine RingInv.mk
    (hput.of_eq (by simp [hc]) hb (by simp [he]) hwr (by simp [hpa]) (by simp [hrd]) (by simp [hun])) ?_
  refine ⟨by rw [hq]; simp, ?_, by rw [hq]; simp⟩
  intro _ hov
  rw [ho] at hov
  simp at hov
  obtain ⟨hov, hf⟩ := hov
  obtain ⟨hp, hx⟩ := h0 hov
  have htp : t.partialSpan = (s.ringPut x).partialSpan := by
    simp only [State.partialSpan, hc, hpa, hwr]; rfl
  have hcnt : t.rxcnt.toNat = s.rxcnt.toNat + 1 := by
    rw [hn, State.ringPut_rxcnt]; exact sat16Succ_toNat (by omega)
  refine ⟨by rw [htp, State.ringPut_partialSpan hl h x hf, hcnt, hp], by omega, ?_⟩
  rw [State.frameByte_congr (s := s.ringPut x) (by simp [hc]) hb (by simp [he]), hpa, hc,
    State.ringPut_firstByte hl h x hf]
  rcases hx with ⟨hx1, hx2⟩ | ⟨hx1, hx2⟩
  · rw [if_pos, hx2]; rw [hp, hx1]; rfl
  · rw [if_neg (by omega), hx2]

/-! ## The end of a reception -/

/-- What a verdict OK says (40_codec.md R152). -/
theorem State.validate_ok {k n : Nat} {ovf : Bool} (h : (s.validate k n ovf).verdict = .ok) :
    ovf = false ∧ 2 ≤ n ∧ n = s.frameSize k ∧
      cksum (s.frameBytes k (n - 1)) = s.frameByte k (n - 1) := by
  unfold State.validate at h
  cases ovf
  · simp only [Bool.false_eq_true, if_false] at h
    split at h
    · simp at h
    · simp only at h
      split at h
      · simp at h
      · rename_i h1 h2
        split at h
        · simp at h
        · rename_i h3
          simp at h2 h3
          exact ⟨rfl, by omega, h2, h3⟩
  · simp at h

/-- ACCEPT_FRAME keeps the ring invariant: the judged bytes become one more unread frame. -/
theorem RingInv.accept (hl : s.cfg.legal = true) (h : RingInv s)
    (hrecv : s.seq = .receiving .rxFirst ∨ s.seq = .receiving .rxBody) (hv : s.judge.verdict = .ok)
    (hc : t.cfg = s.cfg) (hb : t.rxb = s.rxb) (he : t.epoch = s.epoch) (hwr : t.rxwr = s.rxwr)
    (hpa : t.rxparse = s.rxwr) (hrd : t.rxrd = s.rxrd) (hun : t.rxunread = s.rxunread + 1#10)
    (hq : t.seq.isReceiving = false) : RingInv t := by
  obtain ⟨ho, hn2, hn, -⟩ := State.validate_ok hv
  have hbd := Params.legal_bounds hl
  have hbody : s.seq = .receiving .rxBody := by
    rcases hrecv with h' | h'
    · have := (h.first h').2.1; rw [this] at hn2; simp at hn2
    · exact h'
  obtain ⟨hp, -, hsync⟩ := h.body hbody ho
  have huc := h.toRingCursors.unread_bound hl
  have hpr := h.toRingCursors.parse_from_rd
  have hpath := h.path
  have hu' : (s.rxunread + 1#10).toNat = s.rxunread.toNat + 1 := by
    rw [BitVec.toNat_add]; simp; omega
  have htu : t.unreadSpan = s.occ := by simp [State.unreadSpan, State.occ, hc, hpa, hrd]
  have hto : t.occ = s.occ := by simp [State.occ, hc, hwr, hrd]
  have htp : t.partialSpan = 0 := by simp [State.partialSpan, hc, hpa, hwr, ringDist_self h.wr]
  refine RingInv.mk ⟨by rw [hc, hwr]; exact h.wr, by rw [hc, hpa]; exact h.wr,
    by rw [hc, hrd]; exact h.rd, by rw [htu, htp, hto]; rfl, ?_⟩ (RingPhase.of_not_receiving hq)
  rw [hun, hu', hrd, htu]
  refine State.framesSpan_of_eq hc hb he ?_
  have hjudged : (s.validate s.rxparse.toNat s.rxcnt.toNat false).verdict = .ok := by
    rw [State.judge, ho] at hv; exact hv
  have hs := State.framesSpan_snoc _ _ _ h.frames h.rd (by rw [← hpr, ← hn]; exact hjudged)
    (by rw [← hpr]; exact hsync)
  rw [← hpr, ← hn, ← hp, hpath] at hs
  exact hs

/-- RESYNC empties the ring, so the ring invariant holds whatever it was before (R323). -/
theorem RingInv.of_resync (h1 : t.rxparse = t.rxwr) (h2 : t.rxrd = t.rxwr) (h3 : t.rxunread = 0#10)
    (h4 : t.rxwr.toNat < t.cfg.rxbufSize) (h5 : t.seq.isReceiving = false) : RingInv t := by
  refine RingInv.mk ⟨h4, by rw [h1]; exact h4, by rw [h2]; exact h4, ?_, ?_⟩
    (RingPhase.of_not_receiving h5)
  · simp [State.unreadSpan, State.partialSpan, State.occ, h1, h2, ringDist_self h4]
  · simp [State.unreadSpan, h1, h2, h3, ringDist_self h4, State.framesSpan]

theorem RingInv.abort (c : Cause) (h : s.rxwr.toNat < s.cfg.rxbufSize) : RingInv (s.abort c) := by
  apply RingInv.of_resync <;> simp
  assumption

/-! ## The host's and PARK's changes of the cursors -/

/-- RX_RELEASE keeps the ring invariant: the oldest unread frame leaves. -/
theorem RingInv.release (hl : s.cfg.legal = true) (h : RingInv s) (hne : s.rxunread ≠ 0#10)
    (hc : t.cfg = s.cfg) (hb : t.rxb = s.rxb) (he : t.epoch = s.epoch) (hwr : t.rxwr = s.rxwr)
    (hpa : t.rxparse = s.rxparse) (hrd : t.rxrd = s.advance s.rxrd s.releaseStep)
    (hun : t.rxunread = s.rxunread - 1#10) (hq : t.seq = s.seq) (hn : t.rxcnt = s.rxcnt)
    (ho : t.ovfCur = s.ovfCur) : RingInv t := by
  have hbd := Params.legal_bounds hl
  have hcur := h.toRingCursors
  have hocc := State.occ_lt hl
  have hpath := h.path
  have hn0 : s.rxunread.toNat ≠ 0 := fun e => hne (by apply BitVec.eq_of_toNat_eq; simpa using e)
  obtain ⟨n, hn'⟩ : ∃ n, s.rxunread.toNat = n + 1 := ⟨_, (Nat.succ_pred hn0).symm⟩
  have hfr := h.frames
  rw [hn'] at hfr
  obtain ⟨hle, -, -, hrest⟩ := hfr
  have hto : t.rxrd.toNat = ringAdd s.cfg.rxbufSize s.rxrd.toNat (s.frameSize s.rxrd.toNat) := by
    rw [hrd, State.advance_toNat hl]; rfl
  have hlt : t.rxrd.toNat < s.cfg.rxbufSize := by rw [hto]; exact ringAdd_lt (by omega) _ _
  have hcount : t.rxunread.toNat = n := by
    rw [hun, BitVec.toNat_sub]; simp; omega
  have walk : ∀ d, s.frameSize s.rxrd.toNat ≤ d → d < s.cfg.rxbufSize →
      ringDist s.cfg.rxbufSize t.rxrd.toNat (ringAdd s.cfg.rxbufSize s.rxrd.toNat d)
        = d - s.frameSize s.rxrd.toNat := by
    intro d h1 h2
    have e : ringAdd s.cfg.rxbufSize s.rxrd.toNat d
        = ringAdd s.cfg.rxbufSize t.rxrd.toNat (d - s.frameSize s.rxrd.toNat) := by
      rw [hto, ringAdd_ringAdd]; congr 1; omega
    rw [e]; exact ringDist_ringAdd hlt (by omega)
  have hus : t.unreadSpan = s.unreadSpan - s.frameSize s.rxrd.toNat := by
    rw [State.unreadSpan, hc, hpa, hcur.parse_from_rd]; exact walk _ hle (by omega)
  have hos : t.occ = s.occ - s.frameSize s.rxrd.toNat := by
    rw [State.occ, hc, hwr, hcur.wr_from_rd]; exact walk _ (by omega) hocc
  have hps : t.partialSpan = s.partialSpan := by simp [State.partialSpan, hc, hpa, hwr]
  refine RingInv.mk ⟨by rw [hc, hwr]; exact h.wr, by rw [hc, hpa]; exact h.parse,
    by rw [hc]; exact hlt, by rw [hus, hps, hos]; omega, ?_⟩
    (h.toRingPhase.of_eq hc hb he hwr hpa hq hn ho)
  rw [hcount, hto, hus]
  exact State.framesSpan_of_eq hc hb he hrest

/-- PARK keeps the ring invariant: the partial frame leaves, the unread frames stay (R266). -/
theorem RingInv.park (h : RingInv s) (hc : t.cfg = s.cfg) (hb : t.rxb = s.rxb)
    (he : t.epoch = s.epoch) (hwr : t.rxwr = s.rxparse) (hpa : t.rxparse = s.rxparse)
    (hrd : t.rxrd = s.rxrd) (hun : t.rxunread = s.rxunread) (hq : t.seq.isReceiving = false) :
    RingInv t := by
  have hu : t.unreadSpan = s.unreadSpan := by simp [State.unreadSpan, hc, hpa, hrd]
  have ho : t.occ = s.unreadSpan := by simp [State.unreadSpan, State.occ, hc, hwr, hrd]
  have hp : t.partialSpan = 0 := by simp [State.partialSpan, hc, hpa, hwr, ringDist_self h.parse]
  refine RingInv.mk ⟨by rw [hc, hwr]; exact h.parse, by rw [hc, hpa]; exact h.parse,
    by rw [hc, hrd]; exact h.rd, by rw [hu, hp, ho]; rfl, ?_⟩ (RingPhase.of_not_receiving hq)
  rw [hun, hrd, hu]
  exact State.framesSpan_of_eq hc hb he h.frames

end Sys2Proof.Machine
end

