-- ==== Sys2Proof/Laws/Codec.lean ====
section
/-! SUPPORT. The frame codec (spec/40_codec.md R150 to R153): how CKSUM goes through lists, what VALIDATE answers by
case, and how a frame's bytes are read back from the ring. -/

namespace Sys2Proof.Machine

/-! ## CKSUM -/

@[simp] theorem cksum_nil : cksum [] = 0#8 := rfl

theorem foldl_xor (bs : List Byte) (a : Byte) :
    bs.foldl (fun acc x => acc ^^^ x) a = a ^^^ cksum bs := by
  induction bs generalizing a with
  | nil => simp [cksum]
  | cons b bs ih => simp only [cksum, List.foldl_cons]; rw [ih, ih]; simp [BitVec.xor_assoc]

@[simp] theorem cksum_cons (b : Byte) (bs : List Byte) : cksum (b :: bs) = b ^^^ cksum bs := by
  simp only [cksum, List.foldl_cons]; rw [foldl_xor]; simp [cksum]

@[simp] theorem cksum_append_list (as bs : List Byte) :
    cksum (as ++ bs) = cksum as ^^^ cksum bs := by
  induction as with
  | nil => simp
  | cons a as ih => simp [ih, BitVec.xor_assoc]

/-- Changing one byte changes the fold by the XOR of the old and the new byte. -/
theorem cksum_set (l : List Byte) (i : Nat) (b x : Byte) (h : l[i]? = some x) :
    cksum (l.set i b) = cksum l ^^^ x ^^^ b := by
  induction l generalizing i with
  | nil => simp at h
  | cons a l ih =>
    cases i with
    | zero =>
      simp at h
      subst h
      simp only [List.set_cons_zero, cksum_cons]
      ext i hi
      simp
      cases a[i] <;> cases b[i] <;> cases (cksum l)[i] <;> rfl
    | succ i => simp at h; simp [ih _ h, BitVec.xor_assoc]

/-! ## VALIDATE by case -/

variable {s : State} {k n : Nat}

theorem State.validate_overflow : s.validate k n true = ⟨.errOverflow, false, false⟩ := rfl

theorem State.validate_short (h : n < 2) : s.validate k n false = ⟨.errLength, true, false⟩ := by
  simp [State.validate, h]

/-- The verdict on at least two bytes without overflow: both tests, the length test first. -/
theorem State.validate_judged (h : 2 ≤ n) :
    s.validate k n false =
      { verdict := if n ≠ s.frameSize k then .errLength
          else if cksum (s.frameBytes k (n - 1)) ≠ s.frameByte k (n - 1) then .errChecksum else .ok
        lenBad := n != s.frameSize k
        ckBad := cksum (s.frameBytes k (n - 1)) != s.frameByte k (n - 1) } := by
  simp only [State.validate]
  rw [if_neg (by simp), if_neg (by omega)]
  simp

/-- A length verdict comes with its flag, and so does a checksum verdict (R153, R191). -/
theorem State.validate_flags (ovf : Bool) :
    ((s.validate k n ovf).verdict = .errLength → (s.validate k n ovf).lenBad = true) ∧
      ((s.validate k n ovf).verdict = .errChecksum → (s.validate k n ovf).ckBad = true) := by
  cases ovf with
  | true => simp [State.validate_overflow]
  | false =>
    by_cases h : n < 2
    · simp [State.validate_short h]
    · rw [State.validate_judged (by omega)]
      by_cases h1 : n = s.frameSize k
      · by_cases h2 : cksum (s.frameBytes k (n - 1)) = s.frameByte k (n - 1) <;> simp [← h1, h2]
      · simp [h1]

/-! ## A frame's bytes in the ring -/

@[simp] theorem State.frameBytes_length : (s.frameBytes k n).length = n := by simp [State.frameBytes]

theorem State.frameBytes_get {i : Nat} (h : i < n) :
    (s.frameBytes k n)[i]? = some (s.frameByte k i) := by
  simp [State.frameBytes, h]

theorem State.frameBytes_succ : s.frameBytes k (n + 1) = s.frameBytes k n ++ [s.frameByte k n] := by
  simp [State.frameBytes, List.range_succ]

/-- A run of bytes that ends in `c` splits into the bytes before and `c`. -/
theorem State.frameBytes_split {front : List Byte} {c : Byte} (hn : front.length = n)
    (h : s.frameBytes k (n + 1) = front ++ [c]) :
    s.frameBytes k n = front ∧ s.frameByte k n = c := by
  rw [State.frameBytes_succ] at h
  have := List.append_inj h (by simp [hn])
  simpa using this

/-! ## The frame of a body -/

/-- The bytes of a frame before its checksum (30_encoding.md R110). -/
def frameHead (p : Params) (body : List Byte) : List Byte :=
  p.syncByte :: BitVec.ofNat 8 body.length :: body

theorem frameOf_eq (p : Params) (body : List Byte) :
    frameOf p body = frameHead p body ++ [cksum (frameHead p body)] := rfl

@[simp] theorem frameHead_length (p : Params) (body : List Byte) :
    (frameHead p body).length = body.length + 2 := rfl

@[simp] theorem frameOf_length (p : Params) (body : List Byte) :
    (frameOf p body).length = body.length + 3 := by simp [frameOf_eq]

end Sys2Proof.Machine
end

