-- ==== Sys2Proof/Laws/Step.lean ====
section
/-! SUPPORT. What one step can do, said once: RLINK waits, or one event is decoded and its instruction run. -/

namespace Sys2Proof.Machine

/-- Everything a step that answers a next state can have done. -/
theorem step_next_cases {s t : State} (h : step s = .next t) :
    s.cfg.legal = true ∧
      ((s.inbox = [] ∧ t = s) ∨
        ∃ e rest i, s.inbox = e :: rest ∧ decode s.cfg e = .ok i ∧
          exec i { s with inbox := rest } = .next t) := by
  unfold step fetch at h
  by_cases hl : s.cfg.legal = true
  · refine ⟨hl, ?_⟩
    rw [if_pos hl] at h
    cases hi : s.inbox with
    | nil => simp [hi] at h; exact .inl ⟨rfl, h.symm⟩
    | cons e rest =>
      cases hd : decode s.cfg e with
      | rejected err => simp [hi, hd] at h
      | ok i => simp only [hi, hd] at h; exact .inr ⟨e, rest, i, rfl, hd, h⟩
  · rw [if_neg hl] at h; simp at h

/-- A step with no event pending waits. -/
theorem step_waits {s : State} (hl : s.cfg.legal = true) (hi : s.inbox = []) : step s = .next s := by
  simp [step, fetch, hl, hi]

/-- Only the byte classes are not read by the first level of the decoder. -/
theorem decode_no_byteContext {p : Params} {e : Event} {i : Instr} (h : decode p e = .ok i) :
    byteContext i = none := by
  cases e with
  | hostWrite w off v =>
    simp only [decode] at h
    split at h
    · simp at h
    · simp only [Decoded.ok.injEq] at h
      subst h
      unfold decodeWrite
      split <;> try rfl
      unfold decodeCommand
      split <;> rfl
  | hostRead w off =>
    simp only [decode] at h
    split at h
    · simp at h
    · simp only [Decoded.ok.injEq] at h; subst h; rfl
  | den v => simp [decode] at h; subst h; rfl
  | byteDone b => simp [decode] at h; subst h; rfl
  | tb => simp [decode] at h; subst h; rfl
  | reset => simp [decode] at h; subst h; rfl

end Sys2Proof.Machine
end

