-- ==== Sys2Proof/Laws/Control.lean ====
section
/-! SUPPORT. The control invariant (spec/10_state.md R60) over the operations that every instruction shares: a state
that agrees on what the invariant reads, and ABORT. -/

namespace Sys2Proof.Machine

/-- A change that leaves what the control invariant reads keeps it: the cursors may move together, and TXB may
change while no transmit is requested. -/
theorem CtrlInv.of_eq {s t : State} (h : CtrlInv s) (hcfg : t.cfg = s.cfg) (hseq : t.seq = s.seq)
    (hreq : t.reqOut = s.reqOut) (htocnt : t.tocnt = s.tocnt) (htxout : t.txout = s.txout)
    (hcur : t.rxparse = t.rxwr ∨ (t.rxparse = s.rxparse ∧ t.rxwr = s.rxwr) ∨ t.seq.isReceiving = true)
    (hhrdy : t.hrdy = s.hrdy) (hres : t.txres = s.txres) (htx : t.txreq = s.txreq)
    (hfloat : t.linesFloat = s.linesFloat) (hden : t.den = s.den)
    (htxb : t.txb = s.txb ∨ s.txreq = false) (hidx : t.txidx = s.txidx) (hlen : t.txlen = s.txlen)
    (hepoch : t.epoch = s.epoch) : CtrlInv t := by
  constructor
  · rw [hcfg]; exact h.legal
  · rw [hseq, hreq, htocnt, htxout]; exact h.quiet
  · intro hr
    rcases hcur with hc | hc | hc
    · exact hc
    · rw [hc.1, hc.2]; exact h.parse (by rw [← hseq]; exact hr)
    · simp [hc] at hr
  · rw [hhrdy, hseq]; exact h.hrdy
  · rw [hres, hseq]; exact h.busy
  · rw [htx, hres]; exact h.txreq
  · rw [hres, hseq]; exact h.pending
  · rw [hfloat, hseq]; exact h.float
  · rw [hden, hseq]; exact h.den
  · rw [hden, hseq]; exact h.denLow
  · rw [hseq, hreq]; exact h.reqOut
  · rw [hseq, htxout]; exact h.txoutZero
  · intro hd
    rw [hseq] at hd
    have hdata := h.txoutData hd
    rcases htxb with htxb | htxb
    · rw [htxout, hidx, hlen, State.txbByte_congr htxb hepoch]; exact hdata
    · have hbusy : s.txres = .busy := h.busy.2 (by rw [hd]; rfl)
      rw [h.txreq, hbusy] at htxb
      simp at htxb
  · rw [hlen, hcfg]; exact h.txlen
  · rw [htx, hlen]; exact h.txlenOpen
  · rw [htocnt, hcfg]; exact h.tocnt

/-- ABORT, taken in a phase its cause belongs to, gives a state with the control invariant. -/
theorem CtrlInv.abort {s u : State} (c : Cause) (h : CtrlInv s)
    (hcause : s.seq.isReceiving = true ∧ c = .rxTimeout ∨ s.seq.isTransmitting = true ∧ c ≠ .rxTimeout)
    (hcfg : u.cfg = s.cfg) (hres : u.txres = s.txres) (htx : u.txreq = s.txreq)
    (hlen : u.txlen = s.txlen) (hfloat : u.linesFloat = s.linesFloat) : CtrlInv (u.abort c) := by
  have hleg := Params.legal_bounds h.legal
  have hbusy := h.busy
  have hopen := h.txreq
  have hf := h.float
  have hpend := h.pending
  constructor <;> simp [State.abort, hcfg, hres, htx, hlen, hfloat]
  · exact h.legal
  · cases c <;> simp [Cause.txResult] <;> split <;> simp_all
  · rw [hopen]
    cases c <;> cases s.txres <;> simp [Cause.txResult]
  · rcases hcause with ⟨hr, _⟩ | ⟨hr, _⟩ <;> cases hsq : s.seq <;> simp_all
  · exact h.txlen
  · intro h1 _; exact h.txlenOpen h1
  · omega

end Sys2Proof.Machine
end

