-- ==== Sys2Proof/Laws/Decode.lean ====
section
/-! SUPPORT. What each offset selects (spec/20_memory.md R81): the registers' offsets, the two windows and the
unmapped ranges, and that a location's own offset selects it. -/

namespace Sys2Proof

/-- The decoder finds a register by its own offset. -/
theorem Reg.find_offset (r : Reg) : Reg.all.find? (fun x => x.offset == r.offset) = some r := by
  cases r <;> decide

/-- The registers lie in the two register ranges of R81, at multiples of 4. -/
theorem Reg.offset_range (r : Reg) :
    (r.offset.toNat < 0x44 ∨ (0x80 ≤ r.offset.toNat ∧ r.offset.toNat < 0xA0)) ∧
      r.offset.toNat % 4 = 0 := by
  cases r <;> decide

/-- Every aligned offset of the register ranges is a register's. -/
theorem Reg.exists_offset {off : Offset} (h4 : off.toNat % 4 = 0)
    (h : off.toNat < 0x44 ∨ (0x80 ≤ off.toNat ∧ off.toNat < 0xA0)) : ∃ r : Reg, r.offset = off := by
  have key : ∀ k : Fin 40, (k.val < 17 ∨ 32 ≤ k.val) →
      ∃ r ∈ Reg.all, r.offset = BitVec.ofNat 13 (4 * k.val) := by decide
  obtain ⟨r, -, hr⟩ := key ⟨off.toNat / 4, by omega⟩ (by simp; omega)
  refine ⟨r, ?_⟩
  rw [hr]
  apply BitVec.eq_of_toNat_eq
  simp
  omega

theorem Reg.offset_ne {off : Offset} (h : 0xA0 ≤ off.toNat) (r : Reg) : r.offset ≠ off := by
  intro he
  have := r.offset_range.1
  rw [he] at this
  omega

@[simp] theorem locate_reg (p : Params) (r : Reg) : locate p r.offset = .reg r := by
  simp [locate, Reg.find_offset]

/-- An offset that is no register's, by its range. -/
theorem locate_not_reg {p : Params} {off : Offset} (h : ∀ r : Reg, r.offset ≠ off) :
    locate p off =
      (if 0x400 ≤ off.toNat ∧ off.toNat < 0x400 + 4 * p.txbufSize then
        .txb ((off.toNat - 0x400) / 4)
      else if 0x1000 ≤ off.toNat ∧ off.toNat < 0x1000 + 4 * p.rxbufSize then
        .rxb ((off.toNat - 0x1000) / 4)
      else .unmapped off) := by
  have hf : Reg.all.find? (fun r => r.offset == off) = none := by
    rw [List.find?_eq_none]
    intro r _
    simpa using h r
  simp only [locate, hf, txbWindow, rxbWindow]
  rfl

/-- The buffers of a legal configuration fit their windows (R7, R81). -/
theorem Params.buffer_bounds {p : Params} (h : p.legal = true) :
    p.txbufSize ≤ 258 ∧ p.rxbufSize ≤ 1024 := by
  have := Params.legal_bounds h
  simp [Params.txbufSize]
  omega

/-- A location's own offset is aligned and selects it. -/
theorem locate_offset {p : Params} (hl : p.legal = true) (loc : HostLoc) (h : loc.wf p = true) :
    locate p loc.offset = loc ∧ alignedOffset loc.offset = true := by
  have hb := Params.buffer_bounds hl
  cases loc with
  | reg r => exact ⟨locate_reg p r, by simp [alignedOffset, HostLoc.offset, r.offset_range.2]⟩
  | txb i =>
    simp only [HostLoc.wf, decide_eq_true_eq] at h
    have ht : (HostLoc.txb i).offset.toNat = 0x400 + 4 * i := by
      simp [HostLoc.offset, txbWindow]; omega
    refine ⟨?_, by simp [alignedOffset, ht]⟩
    rw [locate_not_reg (Reg.offset_ne (by omega)), if_pos (by omega), ht]
    congr 1
    omega
  | rxb i =>
    simp only [HostLoc.wf, decide_eq_true_eq] at h
    have ht : (HostLoc.rxb i).offset.toNat = 0x1000 + 4 * i := by
      simp [HostLoc.offset, rxbWindow]; omega
    refine ⟨?_, by simp [alignedOffset, ht]⟩
    rw [locate_not_reg (Reg.offset_ne (by omega)), if_neg (by omega), if_pos (by omega), ht]
    congr 1
    omega
  | unmapped off =>
    simp only [HostLoc.wf, Bool.and_eq_true] at h
    refine ⟨?_, h.1⟩
    have hu := h.2
    simp [unmappedOffset] at hu
    rw [HostLoc.offset, locate_not_reg, if_neg (by omega), if_neg (by omega)]
    intro r he
    have := r.offset_range.1
    rw [he] at this
    omega

/-- Every aligned offset selects a well-formed location. -/
theorem locate_wf {p : Params} (hl : p.legal = true) {off : Offset} (ha : off.toNat % 4 = 0) :
    (locate p off).wf p = true := by
  have hb := Params.buffer_bounds hl
  by_cases hh : ∀ r : Reg, r.offset ≠ off
  · rw [locate_not_reg hh]
    have hr : ¬(off.toNat < 0x44 ∨ (0x80 ≤ off.toNat ∧ off.toNat < 0xA0)) := by
      intro h
      obtain ⟨r, hr⟩ := Reg.exists_offset ha h
      exact hh r hr
    split
    · simp [HostLoc.wf]; omega
    · split
      · simp [HostLoc.wf]; omega
      · have := off.isLt
        simp [HostLoc.wf, alignedOffset, unmappedOffset, ha]; omega
  · push Not at hh
    obtain ⟨r, rfl⟩ := hh
    rw [locate_reg]
    rfl

/-- The command word of an opcode reaches the opcode map. -/
@[simp] theorem decode_commandWord (p : Params) (op : BitVec 4) :
    decode p (commandWord op) = .ok (decodeCommand (op.setWidth 32)) := by
  have : accessError .word Reg.cmd.offset = none := by decide
  simp [commandWord, decode, this, decodeWrite]

/-- A 32-bit write to a location's own offset is decoded by that location. -/
theorem decode_write_offset {p : Params} (hl : p.legal = true) (loc : HostLoc) (h : loc.wf p = true)
    (v : Word) : decode p (.hostWrite .word loc.offset v) = .ok (decodeWrite p loc.offset v) := by
  simp [decode, accessError, (locate_offset hl loc h).2]

end Sys2Proof
end

