-- ==== Sys2Proof/Laws/Flags.lean ====
section
/-! SUPPORT. The transient flags: what raising one leaves of each, so that no proof unfolds `Flags.raiseIf`. -/

namespace Sys2Proof.Machine

/-- `set_flag(F)` under a condition sets F and leaves every other flag (00_scope.md R11). -/
@[simp] theorem Flags.test_raiseIf (fl : Flags) (b : Bool) (g f : Flag) :
    (fl.raiseIf b g).test f = (fl.test f || (b && decide (f = g))) := by
  cases g <;> cases f <;> simp [Flags.raiseIf, Flags.test]

@[simp] theorem Flags.test_clear (f : Flag) : Flags.clear.test f = false := by cases f <;> rfl

/-- Flags that test alike are equal. -/
theorem Flags.ext_test {x y : Flags} (h : ∀ f, x.test f = y.test f) : x = y := by
  have h1 := h .txdone
  have h2 := h .lenerr
  have h3 := h .ckerr
  have h4 := h .unexp
  have h5 := h .tmo
  have h6 := h .coll
  have h7 := h .rxovf
  have h8 := h .cmderr
  have h9 := h .linkdrop
  cases x; cases y
  simp only [Flags.test] at *
  simp [*]

/-- A flag that is set stays set where others are raised. -/
theorem Flags.raiseIf_keeps {fl : Flags} {f : Flag} (b : Bool) (g : Flag) (h : fl.test f = true) :
    (fl.raiseIf b g).test f = true := by simp [h]

@[simp] theorem Flags.raiseIf_false (fl : Flags) (g : Flag) : fl.raiseIf false g = fl := by
  cases g <;> simp [Flags.raiseIf]

end Sys2Proof.Machine
end

