-- ==== Sys2Proof/Laws/Wire.lean ====
section
/-! SUPPORT. What a BYTE_DONE can do, said once (spec/41_receive.md R180): the class of the byte by the point of
control, and the row that runs. -/

namespace Sys2Proof.Machine

/-- Everything a byte transfer can have done. `x` is the logical byte. -/
theorem byteDone_cases {b : Byte} {s t : State} (h : exec (.byteDone b) s = .next t) :
    (t = s ∧ (s.seq = .noResponse ∨ (s.reqOut = true ∧ s.seq.requestsByte = false)))
    ∨ (s.seq ≠ .noResponse ∧ s.reqOut = false ∧ exec (.stray (s.wire b)) (s.emitXfer b) = .next t)
    ∨ (s.reqOut = true ∧ s.seq = .receiving .rxFirst ∧ s.wire b = s.cfg.syncByte
      ∧ exec (.rxSync (s.wire b)) (s.takeByte b) = .next t)
    ∨ (s.reqOut = true ∧ s.seq = .receiving .rxFirst ∧ s.wire b ≠ s.cfg.syncByte
      ∧ exec (.rxUnexpected (s.wire b)) (s.takeByte b) = .next t)
    ∨ (s.reqOut = true ∧ s.seq = .receiving .rxBody
      ∧ exec (.rxBodyByte (s.wire b)) (s.takeByte b) = .next t)
    ∨ (s.reqOut = true ∧ s.seq = .receiving .rxDrain
      ∧ exec (.rxDrainByte (s.wire b)) (s.takeByte b) = .next t)
    ∨ (s.reqOut = true ∧ s.seq = .transmitting .txWaitCts ∧ s.wire b = s.cfg.ctsByte
      ∧ exec (.txGrant (s.wire b)) (s.takeByte b) = .next t)
    ∨ (s.reqOut = true ∧ s.seq = .transmitting .txWaitCts ∧ s.wire b ≠ s.cfg.ctsByte
      ∧ s.wire b = s.cfg.syncByte ∧ exec (.txCollision (s.wire b)) (s.takeByte b) = .next t)
    ∨ (s.reqOut = true ∧ s.seq = .transmitting .txWaitCts ∧ s.wire b ≠ s.cfg.ctsByte
      ∧ s.wire b ≠ s.cfg.syncByte ∧ exec (.txUnexpected (s.wire b)) (s.takeByte b) = .next t)
    ∨ (s.reqOut = true ∧ s.seq = .transmitting .txData
      ∧ exec (.txDataByte (s.wire b)) (s.takeByte b) = .next t) := by
  simp only [exec, execByteDone] at h
  by_cases hn : s.seq = .noResponse
  · rw [hn] at h
    simp only [classifyByte, execNorespByte, Host.Outcome.next.injEq] at h
    exact .inl ⟨h.symm, .inl hn⟩
  cases hr : s.reqOut with
  | false =>
    have hc : classifyByte s.cfg s.seq s.reqOut (s.wire b) = some .stray := by
      rw [hr]; cases hq : s.seq <;> simp_all [classifyByte]
    rw [hc] at h
    exact .inr (.inl ⟨hn, rfl, h⟩)
  | true =>
    rw [hr] at h
    cases hq : s.seq with
    | noResponse => exact absurd hq hn
    | idle => simp only [hq, classifyByte, Host.Outcome.next.injEq] at h; simp [h]
    | aborting => simp only [hq, classifyByte, Host.Outcome.next.injEq] at h; simp [h]
    | receiving p =>
      cases p with
      | rxFirst =>
        by_cases hx : s.wire b = s.cfg.syncByte
        · simp only [hq, classifyByte, if_pos hx] at h; simp_all [exec]
        · simp only [hq, classifyByte, if_neg hx] at h; simp_all [exec]
      | rxBody => simp only [hq, classifyByte] at h; simp_all [exec]
      | rxDrain => simp only [hq, classifyByte] at h; simp_all [exec]
    | transmitting p =>
      cases p with
      | txWaitDen => simp only [hq, classifyByte, Host.Outcome.next.injEq] at h; simp [h]
      | txWaitDenLow => simp only [hq, classifyByte, Host.Outcome.next.injEq] at h; simp [h]
      | txData => simp only [hq, classifyByte] at h; simp_all [exec]
      | txWaitCts =>
        by_cases hc : s.wire b = s.cfg.ctsByte
        · simp only [hq, classifyByte, if_pos hc] at h; simp_all [exec]
        · by_cases hx : s.wire b = s.cfg.syncByte
          · simp only [hq, classifyByte, if_neg hc, if_pos hx] at h; simp_all [exec]
          · simp only [hq, classifyByte, if_neg hc, if_neg hx] at h; simp_all [exec]

end Sys2Proof.Machine
end

