-- ==== Sys2Proof/Laws/Link.lean ====
section
/-! SUPPORT. What a DEN event, a TB and a TICK can do, each said once (spec/43_protocol_tick.md R260, R270;
spec/60_exceptions.md R335). -/

namespace Sys2Proof.Machine

/-- Everything a DEN event can have done. -/
theorem den_cases {v : Bool} {s t : State} (h : exec (.den v) s = .next t) :
    t = s ∨ (v ≠ s.den ∧
      ((s.seq.quiet = true ∧ t = s.setDen v)
      ∨ (v = true ∧ s.seq = .transmitting .txWaitDen
        ∧ t = State.requestByte
          { (s.setDen true).goto (.transmitting .txWaitCts) with tocnt := 0#16 })
      ∨ (v = false ∧ (s.seq = .receiving .rxFirst ∨ s.seq = .receiving .rxBody)
        ∧ t = (s.setDen false).finishRx)
      ∨ (v = false ∧ s.seq = .receiving .rxDrain ∧ t = (s.setDen false).finishDrain)
      ∨ (v = false ∧ (s.seq = .transmitting .txWaitCts ∨ s.seq = .transmitting .txData)
        ∧ t = (s.setDen false).abort .txLinkDrop)
      ∨ (v = false ∧ s.seq = .transmitting .txWaitDenLow
        ∧ t = State.goto .idle { s.setDen false with tocnt := 0#16 }))) := by
  simp only [exec, execDen, Host.Outcome.next.injEq] at h
  split at h
  · exact .inl h.symm
  · cases v
    · simp only [Bool.false_eq_true, if_false] at h
      unfold State.denFall at h
      split at h <;> simp_all
    · simp only [if_true] at h
      unfold State.denRise at h
      split at h <;> simp_all

/-- Everything a TB can have done. -/
theorem tb_cases {s t : State} (h : exec .tb s = .next t) :
    (s.seq.quiet = true ∧ t = s)
    ∨ (s.seq.quiet = false ∧ (s.tocnt + 1#16).toNat ≠ s.cfg.tWait ∧ t = s.countTb)
    ∨ (s.seq.isReceiving = true ∧ (s.tocnt + 1#16).toNat = s.cfg.tWait
      ∧ t = s.countTb.abort .rxTimeout)
    ∨ (s.seq.isTransmitting = true ∧ (s.tocnt + 1#16).toNat = s.cfg.tWait
      ∧ t = s.countTb.abort .txTimeout) := by
  simp only [exec, execTb, State.countTb_tocnt, Host.Outcome.next.injEq] at h
  split at h
  · next hq => exact .inl ⟨by rw [hq]; rfl, h.symm⟩
  · next hq =>
    split at h
    · next ht => exact .inr (.inr (.inl ⟨by rw [hq]; rfl, ht, h.symm⟩))
    · next ht => exact .inr (.inl ⟨by rw [hq]; rfl, ht, h.symm⟩)
  · next hq =>
    split at h
    · next ht => exact .inr (.inr (.inr ⟨by rw [hq]; rfl, ht, h.symm⟩))
    · next ht => exact .inr (.inl ⟨by rw [hq]; rfl, ht, h.symm⟩)
  · next hq => exact .inl ⟨by rw [hq]; rfl, h.symm⟩
  · next hq => exact .inl ⟨by rw [hq]; rfl, h.symm⟩

/-- Everything a TICK can have done. -/
theorem tick_cases {s t : State} (h : exec .tick s = .next t) :
    (s.seq = .idle ∧ s.den = true ∧ t = s.startRx)
    ∨ (s.seq = .idle ∧ s.den = false ∧ s.txreq = true ∧ t = s.startTx)
    ∨ (s.seq = .aborting ∧ t = s.abortReturn)
    ∨ (s.seq ≠ .aborting ∧ t = s) := by
  simp only [exec, execTick, Host.Outcome.next.injEq] at h
  split at h <;> (try split at h) <;> (try split at h) <;> simp_all

end Sys2Proof.Machine
end

