-- ==== Sys2Proof/Laws/PerInstr.lean ====
section
/-! SUPPORT. A law about every instruction as syntax, one lemma per constructor of `Instr`: the event that carries a
well-formed instruction is an event of the input alphabet (spec/00_scope.md R14), so no step refuses it
(spec/20_memory.md R84). -/

namespace Sys2Proof

/-- The event of a well-formed instruction belongs to the input alphabet. -/
def Laws.EncodeInAlphabet.Statement (i : Instr) : Prop :=
  ∀ p : Params, p.legal = true → i.wf p = true → (encode i).inAlphabet = true

/-- A write to a well-formed location's own offset is a 32-bit access at a multiple of 4. -/
theorem hostWrite_inAlphabet {p : Params} (hl : p.legal = true) (loc : HostLoc) (h : loc.wf p = true)
    (v : Word) : (Event.hostWrite .word loc.offset v).inAlphabet = true := by
  simpa [Event.inAlphabet, alignedOffset] using (locate_offset hl loc h).2

/-- A read of a well-formed location's own offset is a 32-bit access at a multiple of 4. -/
theorem hostRead_inAlphabet {p : Params} (hl : p.legal = true) (loc : HostLoc) (h : loc.wf p = true) :
    (Event.hostRead .word loc.offset).inAlphabet = true := by
  simpa [Event.inAlphabet, alignedOffset] using (locate_offset hl loc h).2

theorem Laws.EncodeInAlphabet.nop : Laws.EncodeInAlphabet.Statement .nop := fun _ _ _ => rfl

theorem Laws.EncodeInAlphabet.tick : Laws.EncodeInAlphabet.Statement .tick := fun _ _ _ => rfl

theorem Laws.EncodeInAlphabet.encode : Laws.EncodeInAlphabet.Statement .encode := fun _ _ _ => rfl

theorem Laws.EncodeInAlphabet.txSubmit : Laws.EncodeInAlphabet.Statement .txSubmit := fun _ _ _ => rfl

theorem Laws.EncodeInAlphabet.rxRelease : Laws.EncodeInAlphabet.Statement .rxRelease := fun _ _ _ => rfl

theorem Laws.EncodeInAlphabet.clrFlags : Laws.EncodeInAlphabet.Statement .clrFlags := fun _ _ _ => rfl

theorem Laws.EncodeInAlphabet.park : Laws.EncodeInAlphabet.Statement .park := fun _ _ _ => rfl

theorem Laws.EncodeInAlphabet.reserved7 : Laws.EncodeInAlphabet.Statement .reserved7 := fun _ _ _ => rfl

theorem Laws.EncodeInAlphabet.reservedHigh (low : BitVec 3) :
    Laws.EncodeInAlphabet.Statement (.reservedHigh low) := fun _ _ _ => rfl

theorem Laws.EncodeInAlphabet.wCtrl (v : Word) :
    Laws.EncodeInAlphabet.Statement (.wCtrl v) := fun _ hl _ => hostWrite_inAlphabet hl (.reg .ctrl) rfl v

theorem Laws.EncodeInAlphabet.wTxlen (v : Word) :
    Laws.EncodeInAlphabet.Statement (.wTxlen v) := fun _ hl _ => hostWrite_inAlphabet hl (.reg .txlen) rfl v

theorem Laws.EncodeInAlphabet.wTxb (k : Nat) (v : Word) :
    Laws.EncodeInAlphabet.Statement (.wTxb k v) := fun _ hl h => hostWrite_inAlphabet hl (.txb k) h v

theorem Laws.EncodeInAlphabet.wReadonly (r : Reg) (v : Word) :
    Laws.EncodeInAlphabet.Statement (.wReadonly r v) := fun _ hl _ => hostWrite_inAlphabet hl (.reg r) rfl v

theorem Laws.EncodeInAlphabet.wRxb (k : Nat) (v : Word) :
    Laws.EncodeInAlphabet.Statement (.wRxb k v) := fun _ hl h => hostWrite_inAlphabet hl (.rxb k) h v

theorem Laws.EncodeInAlphabet.wUnmapped (off : Offset) (v : Word) :
    Laws.EncodeInAlphabet.Statement (.wUnmapped off v) := fun _ hl h => hostWrite_inAlphabet hl (.unmapped off) h v

theorem Laws.EncodeInAlphabet.read (loc : HostLoc) :
    Laws.EncodeInAlphabet.Statement (.read loc) := fun _ hl h => hostRead_inAlphabet hl loc h

theorem Laws.EncodeInAlphabet.den (v : Bool) : Laws.EncodeInAlphabet.Statement (.den v) := fun _ _ _ => rfl

theorem Laws.EncodeInAlphabet.byteDone (b : Byte) :
    Laws.EncodeInAlphabet.Statement (.byteDone b) := fun _ _ _ => rfl

theorem Laws.EncodeInAlphabet.tb : Laws.EncodeInAlphabet.Statement .tb := fun _ _ _ => rfl

theorem Laws.EncodeInAlphabet.reset : Laws.EncodeInAlphabet.Statement .reset := fun _ _ _ => rfl

theorem Laws.EncodeInAlphabet.rxSync (x : Byte) :
    Laws.EncodeInAlphabet.Statement (.rxSync x) := fun _ _ _ => rfl

theorem Laws.EncodeInAlphabet.rxUnexpected (x : Byte) :
    Laws.EncodeInAlphabet.Statement (.rxUnexpected x) := fun _ _ _ => rfl

theorem Laws.EncodeInAlphabet.rxBodyByte (x : Byte) :
    Laws.EncodeInAlphabet.Statement (.rxBodyByte x) := fun _ _ _ => rfl

theorem Laws.EncodeInAlphabet.rxDrainByte (x : Byte) :
    Laws.EncodeInAlphabet.Statement (.rxDrainByte x) := fun _ _ _ => rfl

theorem Laws.EncodeInAlphabet.txGrant (x : Byte) :
    Laws.EncodeInAlphabet.Statement (.txGrant x) := fun _ _ _ => rfl

theorem Laws.EncodeInAlphabet.txCollision (x : Byte) :
    Laws.EncodeInAlphabet.Statement (.txCollision x) := fun _ _ _ => rfl

theorem Laws.EncodeInAlphabet.txUnexpected (x : Byte) :
    Laws.EncodeInAlphabet.Statement (.txUnexpected x) := fun _ _ _ => rfl

theorem Laws.EncodeInAlphabet.txDataByte (x : Byte) :
    Laws.EncodeInAlphabet.Statement (.txDataByte x) := fun _ _ _ => rfl

theorem Laws.EncodeInAlphabet.stray (x : Byte) :
    Laws.EncodeInAlphabet.Statement (.stray x) := fun _ _ _ => rfl

theorem Laws.EncodeInAlphabet.norespByte (x : Byte) :
    Laws.EncodeInAlphabet.Statement (.norespByte x) := fun _ _ _ => rfl

end Sys2Proof
end

