-- ==== Sys2Proof/Laws/Run.lean ====
section
/-! SUPPORT. Runs of steps: a run takes its events one by one from the inbox, so a statement about a run is a chain
of statements about `exec`. -/

namespace Sys2Proof.Machine

theorem core_run_succ (M : Host.Core) {k : Nat} {s t : M.State} (h : M.step s = .next t) :
    M.run (k + 1) s = M.run k t := by
  simp [Host.Core.run, h]

/-- Two runs end to end are one run. -/
theorem core_run_add (M : Host.Core) {j k : Nat} {s t : M.State} (h : M.run j s = .next t) :
    M.run (j + k) s = M.run k t := by
  induction j generalizing s with
  | zero =>
    simp only [Host.Core.run, Host.Outcome.next.injEq] at h
    simp [h]
  | succ j ih =>
    rw [show j + 1 + k = (j + k) + 1 by omega]
    cases hs : M.step s with
    | next u => rw [core_run_succ M hs] at h ⊢; exact ih h
    | fault r => simp [Host.Core.run, hs] at h
    | refused r => simp [Host.Core.run, hs] at h

/-- No step: the state stays. -/
theorem run_zero (s : State) : Host.Core.run Sys2Proof.core 0 s = .next s := rfl

/-- One step, then the rest of the run. -/
theorem run_succ {k : Nat} {s t : State} (h : step s = .next t) :
    Host.Core.run Sys2Proof.core (k + 1) s = Host.Core.run Sys2Proof.core k t :=
  core_run_succ Sys2Proof.core h

/-- A run after a run. -/
theorem run_add {j k : Nat} {s t : State} (h : Host.Core.run Sys2Proof.core j s = .next t) :
    Host.Core.run Sys2Proof.core (j + k) s = Host.Core.run Sys2Proof.core k t :=
  core_run_add Sys2Proof.core h

/-- A run that begins with the event `e` begins with the meaning of the instruction it decodes to. -/
theorem run_event {k : Nat} {s t : State} {e : Event} {rest : List Event} {i : Instr}
    (hl : s.cfg.legal = true) (hi : s.inbox = e :: rest) (hd : decode s.cfg e = .ok i)
    (hx : exec i { s with inbox := rest } = .next t) :
    Host.Core.run Sys2Proof.core (k + 1) s = Host.Core.run Sys2Proof.core k t := by
  refine run_succ ?_
  simp [step, fetch, hl, hi, hd, hx]

end Sys2Proof.Machine
end

