-- ==== Sys2Proof/Laws/Transfer.lean ====
section
/-! SUPPORT. Runs of byte transfers: the body of a reception (spec/41_receive.md R186) and the data phase of a
transmit (spec/42_transmit_collision.md R230), each said once for a list of bytes, and the end of a frame's
reception (spec/41_receive.md R189, R190). -/

namespace Sys2Proof.Machine

/-- Reversing the bits twice gives the byte back. -/
theorem rev8_rev8 (b : Byte) : rev8 (rev8 b) = b := by revert b; decide

/-- The bit order is its own inverse (20_memory.md R89). -/
@[simp] theorem wireByte_wireByte (lsb : Bool) (b : Byte) : wireByte lsb (wireByte lsb b) = b := by
  cases lsb <;> simp [wireByte, rev8_rev8]

@[simp] theorem exchanges_nil (lsb : Bool) (inns : List Byte) : exchanges lsb [] inns = [] := by
  simp [exchanges]

@[simp] theorem exchanges_cons (lsb : Bool) (x y : Byte) (outs inns : List Byte) :
    exchanges lsb (x :: outs) (y :: inns)
      = .xfer (wireByte lsb x) (wireByte lsb y) :: .pulse :: exchanges lsb outs inns := by
  simp [exchanges]

/-- RING_PUT on a ring with room stores behind what the reception has stored. -/
theorem State.ringPut_last {s : State} (h : RingCursors s) (x : Byte) (hf : s.ringFull = false) :
    (s.ringPut x).frameByte s.rxparse.toNat s.partialSpan = x := by
  simp [State.frameByte, State.rxbByte, hf, Memory.get_put, h.wr_from_parse]

/-- RING_PUT leaves what the reception has stored. -/
theorem State.ringPut_partial {s : State} (hl : s.cfg.legal = true) (h : RingCursors s) (x : Byte)
    {i : Nat} (hi : i < s.partialSpan) :
    (s.ringPut x).frameByte s.rxparse.toNat i = s.frameByte s.rxparse.toNat i := by
  have hp := h.path
  have h1 := State.ringPut_frameByte hl h x (i := s.unreadSpan + i) (by omega)
  have h2 := (s.ringPut x).frameByte_ringAdd s.rxrd.toNat s.unreadSpan i
  have h3 := s.frameByte_ringAdd s.rxrd.toNat s.unreadSpan i
  rw [State.ringPut_cfg, ← h.parse_from_rd] at h2
  rw [← h.parse_from_rd] at h3
  rw [h2, h3, h1]

/-- The transfers of body bytes, while the ring has room, are all stored behind what is stored. -/
theorem run_body (bs : List Byte) : ∀ (s : State) (rest : List Event), s.cfg.legal = true → RingCursors s →
    s.seq = .receiving .rxBody → s.reqOut = true → s.linesFloat = false →
    s.occ + bs.length ≤ s.cfg.rxbufSize - 1 → s.rxcnt.toNat + bs.length ≤ 65535 →
    s.inbox = transfers s.lsbFirst bs ++ rest →
    ∃ t : State, Host.Core.run Sys2Proof.core bs.length s = .next t ∧ RingCursors t
      ∧ t.inbox = rest
      ∧ { t with rxb := s.rxb, rxwr := s.rxwr, rxcnt := s.rxcnt, trace := s.trace, inbox := s.inbox } = s
      ∧ t.rxcnt.toNat = s.rxcnt.toNat + bs.length
      ∧ t.partialSpan = s.partialSpan + bs.length
      ∧ (∀ i, i < s.occ → t.frameByte s.rxrd.toNat i = s.frameByte s.rxrd.toNat i)
      ∧ t.frameBytes s.rxparse.toNat (s.partialSpan + bs.length)
        = s.frameBytes s.rxparse.toNat s.partialSpan ++ bs
      ∧ t.trace = s.trace ++ exchanges s.lsbFirst (List.replicate bs.length s.txout) bs
      ∧ ∀ k, (∀ i, i < bs.length → ringAdd s.cfg.rxbufSize s.rxwr.toNat i ≠ k) →
        t.rxbByte k = s.rxbByte k := by
  induction bs with
  | nil =>
    intro s rest _ hc _ _ _ _ _ hi
    exact ⟨s, rfl, hc, by simpa [transfers] using hi, rfl, by simp, by simp, by simp, by simp, by simp,
      fun _ _ => rfl⟩
  | cons x bs ih =>
    intro s rest hl hc hq hr hf ho hn hi
    simp only [List.length_cons] at ho hn
    have hbd := Params.legal_bounds hl
    have hfull : s.ringFull = false := by simp [State.ringFull]; omega
    have hi' : s.inbox = .byteDone (wireByte s.lsbFirst x) :: (transfers s.lsbFirst bs ++ rest) := by
      simpa [transfers] using hi
    let u : State := (State.ringPut x (State.takeByte (wireByte s.lsbFirst x)
      { s with inbox := transfers s.lsbFirst bs ++ rest })).requestByte
    have hx : exec (.byteDone (wireByte s.lsbFirst x)) { s with inbox := transfers s.lsbFirst bs ++ rest }
        = .next u := by
      simp [exec, execByteDone, hq, hr, classifyByte, execRxBodyByte, State.wire, u]
    rw [List.length_cons, run_event hl hi' rfl hx]
    have huc : RingCursors (s.ringPut x) := hc.ringPut hl x
    have hcu : RingCursors u := huc.of_eq rfl rfl rfl rfl rfl rfl rfl
    have hps := State.ringPut_partialSpan hl hc x hfull
    have hpu : u.partialSpan = s.partialSpan + 1 := hps
    have hou : u.occ = s.occ + 1 := by
      have h1 := hcu.path
      have h2 := hc.path
      have h3 : u.unreadSpan = s.unreadSpan := rfl
      omega
    have hnu : u.rxcnt.toNat = s.rxcnt.toNat + 1 := by
      show (sat16Succ s.rxcnt).toNat = _
      exact sat16Succ_toNat (by omega)
    obtain ⟨t, ht, htc, hti, hte, htn, htp, htb, htf, htt, hto⟩ := ih u rest hl hcu hq rfl hf
      (by rw [hou]; have : u.cfg = s.cfg := rfl; rw [this]; omega) (by omega) rfl
    refine ⟨t, ht, htc, hti, ?_, by omega, by omega, ?_, ?_, ?_, ?_⟩
    · have hu : { u with rxb := s.rxb, rxwr := s.rxwr, rxcnt := s.rxcnt, trace := s.trace, inbox := s.inbox } = s := by
        have h1 : u.ovfCur = s.ovfCur := by
          show (s.ovfCur || s.ringFull) = s.ovfCur
          simp [hfull]
        have h2 : u.flags = s.flags := by
          show s.flags.raiseIf s.ringFull .rxovf = s.flags
          simp [hfull, Flags.raiseIf]
        have h3 : u.reqOut = s.reqOut := hr.symm
        rw [h1, h2, h3]
        rfl
      have := congrArg (fun v : State =>
        { v with rxb := s.rxb, rxwr := s.rxwr, rxcnt := s.rxcnt, trace := s.trace, inbox := s.inbox }) hte
      exact this.trans hu
    · intro i h
      rw [show s.rxrd = u.rxrd from rfl, htb i (by omega)]
      exact State.ringPut_frameByte hl hc x h
    · have h1 : u.frameBytes s.rxparse.toNat (s.partialSpan + 1) = s.frameBytes s.rxparse.toNat s.partialSpan ++ [x] := by
        rw [State.frameBytes_succ]
        congr 1
        · exact List.map_congr_left fun i hi => State.ringPut_partial hl hc x (by simpa using hi)
        · exact congrArg (fun y => [y]) (State.ringPut_last hc x hfull)
      have h2 := htf
      rw [show u.rxparse = s.rxparse from rfl, hpu, h1] at h2
      simpa [Nat.add_assoc, Nat.add_comm 1] using h2
    · rw [htt]
      have h1 : u.trace = s.trace ++ [.xfer (wireByte s.lsbFirst s.txout) (wireByte s.lsbFirst x), .pulse] := by
        simp [u, hf, State.wire]
      rw [h1]
      simp [List.replicate_succ]
      rfl
    · intro k hk
      have hw : u.rxwr.toNat = ringAdd s.cfg.rxbufSize s.rxwr.toNat 1 := by
        show (s.ringPut x).rxwr.toNat = _
        rw [State.ringPut_rxwr, if_neg (by simp [hfull]), State.advance_toNat hl]
      have hne : k ≠ s.rxwr.toNat := by
        have := hk 0 (by simp)
        rw [ringAdd_zero hc.wr] at this
        exact this.symm
      have hput : u.rxbByte k = s.rxbByte k := by
        show (s.ringPut x).rxbByte k = _
        simp [State.rxbByte, hfull, Memory.get_put_other _ _ hne]
      rw [hto k, hput]
      intro i hi
      rw [hw, show u.cfg = s.cfg from rfl, ringAdd_ringAdd, Nat.add_comm 1]
      exact hk (i + 1) (by simpa using hi)

/-- The transfers of the data phase but the last: each puts the next byte of TXB out. -/
theorem run_data (inns : List Byte) : ∀ (s : State) (rest : List Event), s.cfg.legal = true →
    s.seq = .transmitting .txData → s.reqOut = true → s.linesFloat = false →
    s.txidx.toNat + inns.length < s.txlen.toNat → s.txout = s.txbByte s.txidx.toNat →
    s.inbox = transfers s.lsbFirst inns ++ rest →
    ∃ t : State, Host.Core.run Sys2Proof.core inns.length s = .next t
      ∧ t.inbox = rest
      ∧ { t with txidx := s.txidx, txout := s.txout, trace := s.trace, inbox := s.inbox } = s
      ∧ t.txidx.toNat = s.txidx.toNat + inns.length
      ∧ t.txout = s.txbByte (s.txidx.toNat + inns.length)
      ∧ t.trace = s.trace ++ exchanges s.lsbFirst
          ((List.range inns.length).map fun i => s.txbByte (s.txidx.toNat + i)) inns := by
  induction inns with
  | nil =>
    intro s rest _ _ _ _ _ ho hi
    exact ⟨s, rfl, by simpa [transfers] using hi, rfl, by simp, by simpa using ho, by simp⟩
  | cons x inns ih =>
    intro s rest hl hq hr hf hn ho hi
    simp only [List.length_cons] at hn
    have hlen := s.txlen.isLt
    have hi' : s.inbox = .byteDone (wireByte s.lsbFirst x) :: (transfers s.lsbFirst inns ++ rest) := by
      simpa [transfers] using hi
    have hidx : (s.txidx + 1#9).toNat = s.txidx.toNat + 1 := by rw [BitVec.toNat_add]; simp; omega
    have hlt : s.txidx + 1#9 < s.txlen := by rw [BitVec.lt_def]; omega
    let v : State := State.takeByte (wireByte s.lsbFirst x) { s with inbox := transfers s.lsbFirst inns ++ rest }
    let u : State := State.requestByte
      { v with txidx := v.txidx + 1#9, txout := v.txbByte (v.txidx + 1#9).toNat }
    have hx : exec (.byteDone (wireByte s.lsbFirst x)) { s with inbox := transfers s.lsbFirst inns ++ rest }
        = .next u := by
      have h1 : exec (.byteDone (wireByte s.lsbFirst x)) { s with inbox := transfers s.lsbFirst inns ++ rest }
          = execTxDataByte x v := by simp [exec, execByteDone, hq, hr, classifyByte, execTxDataByte, v]
      rw [h1]
      show Host.Outcome.next (if s.txidx + 1#9 < s.txlen then _ else _) = _
      rw [if_pos hlt]
    rw [List.length_cons, run_event hl hi' rfl hx]
    have hu1 : u.txidx = s.txidx + 1#9 := rfl
    have hub : ∀ k, u.txbByte k = s.txbByte k := fun k => State.txbByte_congr (s := s) (t := u) rfl rfl k
    have hu2 : u.txout = s.txbByte (s.txidx + 1#9).toNat := rfl
    obtain ⟨t, ht, hti, hte, htn, hto, htt⟩ := ih u rest hl hq rfl hf
      (by rw [hu1, hidx]; show _ < s.txlen.toNat; omega) (by rw [hu1, hu2, hub]) rfl
    refine ⟨t, ht, hti, ?_, by rw [htn, hu1, hidx]; omega, ?_, ?_⟩
    · have := congrArg (fun v : State =>
        { v with txidx := s.txidx, txout := s.txout, trace := s.trace, inbox := s.inbox }) hte
      have h3 : u.reqOut = s.reqOut := hr.symm
      refine this.trans ?_
      show { u with txidx := s.txidx, txout := s.txout, trace := s.trace, inbox := s.inbox } = s
      rw [h3]
      rfl
    · rw [hto, hub, hu1, hidx]; congr 1; omega
    · rw [htt]
      have h1 : u.trace = s.trace ++ [.xfer (wireByte s.lsbFirst s.txout) (wireByte s.lsbFirst x), .pulse] := by
        simp [u, v, hf, State.wire]
      rw [h1]
      simp only [hub, hu1, hidx, List.range_succ_eq_map, List.map_cons, List.map_map,
        exchanges_cons, Nat.add_zero, ho]
      simp only [List.append_assoc, List.cons_append, List.nil_append, Function.comp_def, Nat.succ_eq_add_one]
      have : ∀ a : Nat, s.txidx.toNat + 1 + a = s.txidx.toNat + (a + 1) := by omega
      simp only [this]
      rfl

/-- A frame that lies in the ring is accepted (40_codec.md R156). -/
theorem State.validate_frame {s : State} {k : Nat} {body : List Byte} (hb : body.length ≤ 255)
    (h : s.frameBytes k (body.length + 3) = frameOf s.cfg body) :
    (s.validate k (body.length + 3) false).verdict = .ok := by
  rw [frameOf_eq] at h
  obtain ⟨h1, h2⟩ := State.frameBytes_split (by simp) h
  have h3 : s.frameByte k 1 = BitVec.ofNat 8 body.length := by
    have := State.frameBytes_get (s := s) (k := k) (n := body.length + 2) (i := 1) (by omega)
    rw [h1] at this
    simpa [frameHead] using this.symm
  have h4 : s.frameSize k = body.length + 3 := by rw [State.frameSize, h3]; simp; omega
  rw [State.validate_judged (by omega)]
  simp [h4, h1, h2]

/-- A reception that has stored SYNC goes on with the rest of a frame and the fall of DEN: the frame is accepted. -/
theorem run_frame {s : State} {body tail : List Byte} {rest : List Event} (hl : s.cfg.legal = true)
    (hc : RingCursors s) (hq : s.seq = .receiving .rxBody) (hr : s.reqOut = true) (hf : s.linesFloat = false)
    (hden : s.den = true) (hov : s.ovfCur = false) (hn : s.rxcnt = 1#16) (hp : s.partialSpan = 1)
    (hsync : s.frameByte s.rxparse.toNat 0 = s.cfg.syncByte) (hbody : body.length ≤ 255)
    (htail : frameOf s.cfg body = s.cfg.syncByte :: tail)
    (hroom : s.occ + (body.length + 2) ≤ s.cfg.rxbufSize - 1)
    (hi : s.inbox = transfers s.lsbFirst tail ++ .den false :: rest) :
    ∃ t : State, Host.Core.run Sys2Proof.core (body.length + 3) s = .next t
      ∧ t.inbox = rest ∧ t.rxparse = t.rxwr
      ∧ t.rxwr.toNat = ringAdd s.cfg.rxbufSize s.rxparse.toNat (body.length + 3)
      ∧ (∀ i, i < s.occ → t.frameByte s.rxrd.toNat i = s.frameByte s.rxrd.toNat i)
      ∧ t.frameBytes s.rxparse.toNat (body.length + 3) = frameOf s.cfg body
      ∧ t.trace = s.trace ++ exchanges s.lsbFirst (List.replicate (body.length + 2) s.txout) tail
      ∧ t.rxcnt.toNat = body.length + 3
      ∧ (∀ k, (∀ i, i < body.length + 2 → ringAdd s.cfg.rxbufSize s.rxwr.toNat i ≠ k) →
        t.rxbByte k = s.rxbByte k)
      ∧ { t with
          rxb := s.rxb, rxwr := s.rxwr, rxparse := s.rxparse, rxcnt := s.rxcnt, trace := s.trace
          inbox := s.inbox } =
        { s with
          seq := .idle, den := false, reqOut := false, tocnt := 0#16, rxunread := s.rxunread + 1#10
          cnt := { s.cnt with rxOk := s.cnt.rxOk + 1#32 } } := by
  have hlen : tail.length = body.length + 2 := by
    have := congrArg List.length htail
    simpa using this.symm
  have h1 : s.rxcnt.toNat = 1 := by rw [hn]; rfl
  obtain ⟨u, hu, huc, hui, hue, hun, hup, hub, huf, hut, huo⟩ := run_body tail s _ hl hc hq hr hf (by omega) (by omega) hi
  have e1 : u.cfg = s.cfg := (congrArg State.cfg hue :)
  have e2 : u.seq = .receiving .rxBody := (congrArg State.seq hue).trans hq
  have e3 : u.den = true := (congrArg State.den hue).trans hden
  have e4 : u.ovfCur = false := (congrArg State.ovfCur hue).trans hov
  have e5 : u.rxparse = s.rxparse := (congrArg State.rxparse hue :)
  have hframe : u.frameBytes s.rxparse.toNat (body.length + 3) = frameOf s.cfg body := by
    rw [hp, hlen, show 1 + (body.length + 2) = body.length + 3 by omega] at huf
    rw [huf, htail]
    show [s.frameByte s.rxparse.toNat 0] ++ tail = _
    rw [hsync]
    rfl
  let v : State := { u with inbox := rest }
  have hj : (v.setDen false).judge.verdict = .ok := by
    have h2 : u.rxcnt.toNat = body.length + 3 := by omega
    have h3 := State.validate_frame (s := v.setDen false) (k := s.rxparse.toNat) hbody
      (by rw [show (v.setDen false).cfg = s.cfg from e1]; exact hframe)
    show ((v.setDen false).validate u.rxparse.toNat u.rxcnt.toNat u.ovfCur).verdict = _
    rw [e5, h2, e4]
    exact h3
  have hx : exec (.den false) v = .next (State.goto .idle
      (State.acceptFrame { v.setDen false with reqOut := false, tocnt := 0#16 })) := by
    have hfall : v.denFall = (v.setDen false).finishRx := by simp [State.denFall, v, e2]
    have hd : v.den = true := e3
    simp only [exec, execDen, hd, hfall, State.finishRx, hj]
    rfl
  rw [show body.length + 3 = tail.length + 1 by omega, run_add hu,
    run_event (by rw [e1]; exact hl) hui rfl hx, run_zero]
  refine ⟨_, rfl, rfl, rfl, ?_, ?_, ?_, ?_, ?_, ?_, ?_⟩
  · show u.rxwr.toNat = _
    rw [huc.wr_from_parse, hup, e1, e5, hp, hlen]
    congr 1
    omega
  · exact fun i hi => (hub i hi)
  · rw [hlen]; exact hframe
  · show u.trace = _
    rw [hut, hlen]
  · show u.rxcnt.toNat = _
    omega
  · intro k hk
    exact huo k (fun i hi => hk i (by omega))
  · have h4 := congrArg (fun w : State =>
      { w with
        rxparse := s.rxparse, seq := .idle, den := false, reqOut := false, tocnt := 0#16
        rxunread := w.rxunread + 1#10, cnt := { w.cnt with rxOk := w.cnt.rxOk + 1#32 } }) hue
    exact h4

end Sys2Proof.Machine
end

