-- ==== Sys2Proof/Tests/Slice0.lean ====
section
/-! SUPPORT. Tests: ill-formed terms refused, decoding of written-out words, one small step per instruction with the
results of spec/95_test_vectors.md, and for every statement a state that meets its hypotheses. -/

namespace Sys2Proof.Tests

open Sys2Proof.Machine

/-! ## Well-formedness: each check refuses an ill-formed term (TC: TXBUF_SIZE = 19, N = 32) -/

theorem test_wf_txb_index : (Instr.wTxb 18 0#32).wf Config.tc = true ∧ (Instr.wTxb 19 0#32).wf Config.tc = false := by
  decide

theorem test_wf_rxb_index : (Instr.wRxb 31 0#32).wf Config.tc = true ∧ (Instr.wRxb 32 0#32).wf Config.tc = false := by
  decide

theorem test_wf_readonly_register :
    (Instr.wReadonly .ctrl 0#32).wf Config.tc = false ∧ (Instr.wReadonly .cmd 0#32).wf Config.tc = false
      ∧ (Instr.wReadonly .txlen 0#32).wf Config.tc = false := by decide

theorem test_wf_unmapped_offset :
    (Instr.wUnmapped 0x044#13 0#32).wf Config.tc = true ∧ (Instr.wUnmapped 0x040#13 0#32).wf Config.tc = false
      ∧ (Instr.wUnmapped 0x448#13 0#32).wf Config.tc = false
      ∧ (Instr.wUnmapped 0x107C#13 0#32).wf Config.tc = false
      ∧ (Instr.wUnmapped 0x046#13 0#32).wf Config.tc = false := by decide

theorem test_wf_read_location :
    (Instr.read (.txb 19)).wf Config.tc = false ∧ (Instr.read (.rxb 32)).wf Config.tc = false
      ∧ (Instr.read (.unmapped 0x1000#13)).wf Config.tc = false
      ∧ (Instr.read (.unmapped 0x0A1#13)).wf Config.tc = false := by decide

theorem test_wf_received_byte :
    (Instr.rxSync 0xA5#8).wf Config.tc = false ∧ (Instr.rxUnexpected 0xA4#8).wf Config.tc = false
      ∧ (Instr.txGrant 0xA4#8).wf Config.tc = false ∧ (Instr.txCollision 0xA5#8).wf Config.tc = false
      ∧ (Instr.txUnexpected 0xA4#8).wf Config.tc = false
      ∧ (Instr.txUnexpected 0xA5#8).wf Config.tc = false := by decide

theorem test_illegal_parameters :
    ({ Config.tc with ctsByte := 0xA4#8 } : Params).legal = false
      ∧ ({ Config.tc with maxLength := 0 } : Params).legal = false
      ∧ ({ Config.tc with maxLength := 256 } : Params).legal = false
      ∧ ({ Config.tc with rxbufSize := 3 } : Params).legal = false
      ∧ ({ Config.tc with rxbufSize := 1025 } : Params).legal = false
      ∧ ({ Config.tc with tWait := 0 } : Params).legal = false
      ∧ ({ Config.tc with tWait := 65536 } : Params).legal = false
      ∧ ({ Config.tc with base := 0x1000#32 } : Params).legal = false := by decide

/-! ## Decoding: words and offsets written out from 30_encoding.md R126 and 20_memory.md R81 -/

theorem test_decode_nop : decode Config.tc (.hostWrite .word 0x004#13 0x00000000#32) = .ok .nop := by decide
theorem test_decode_tick : decode Config.tc (.hostWrite .word 0x004#13 0x00000001#32) = .ok .tick := by decide
/-- V-ENC-6: bits 31:4 are ignored. -/
theorem test_decode_encode : decode Config.tc (.hostWrite .word 0x004#13 0x00000012#32) = .ok .encode := by
  decide
theorem test_decode_txSubmit : decode Config.tc (.hostWrite .word 0x004#13 0b0011#32) = .ok .txSubmit := by decide
theorem test_decode_rxRelease : decode Config.tc (.hostWrite .word 0x004#13 0b0100#32) = .ok .rxRelease := by
  decide
theorem test_decode_clrFlags : decode Config.tc (.hostWrite .word 0x004#13 0b0101#32) = .ok .clrFlags := by decide
theorem test_decode_park : decode Config.tc (.hostWrite .word 0x004#13 0xFFFFFFF6#32) = .ok .park := by decide
theorem test_decode_reserved7 : decode Config.tc (.hostWrite .word 0x004#13 0b0111#32) = .ok .reserved7 := by
  decide
theorem test_decode_reservedHigh :
    decode Config.tc (.hostWrite .word 0x004#13 0b1000#32) = .ok (.reservedHigh 0b000#3)
      ∧ decode Config.tc (.hostWrite .word 0x004#13 0b1111#32) = .ok (.reservedHigh 0b111#3) := by decide
theorem test_decode_wCtrl : decode Config.tc (.hostWrite .word 0x000#13 1#32) = .ok (.wCtrl 1#32) := by decide
theorem test_decode_wTxlen : decode Config.tc (.hostWrite .word 0x014#13 19#32) = .ok (.wTxlen 19#32) := by decide
theorem test_decode_wTxb :
    decode Config.tc (.hostWrite .word 0x400#13 7#32) = .ok (.wTxb 0 7#32)
      ∧ decode Config.tc (.hostWrite .word 0x448#13 7#32) = .ok (.wTxb 18 7#32) := by decide
theorem test_decode_wReadonly :
    decode Config.tc (.hostWrite .word 0x008#13 7#32) = .ok (.wReadonly .status 7#32)
      ∧ decode Config.tc (.hostWrite .word 0x09C#13 7#32) = .ok (.wReadonly .cntResync 7#32) := by decide
theorem test_decode_wRxb :
    decode Config.tc (.hostWrite .word 0x1000#13 0x12#32) = .ok (.wRxb 0 0x12#32)
      ∧ decode Config.tc (.hostWrite .word 0x107C#13 0x12#32) = .ok (.wRxb 31 0x12#32) := by decide
theorem test_decode_wUnmapped :
    decode Config.tc (.hostWrite .word 0x044#13 1#32) = .ok (.wUnmapped 0x044#13 1#32)
      ∧ decode Config.tc (.hostWrite .word 0x44C#13 1#32) = .ok (.wUnmapped 0x44C#13 1#32) := by decide
theorem test_decode_read :
    decode Config.tc (.hostRead .word 0x03C#13) = .ok (.read (.reg .param0))
      ∧ decode Config.tc (.hostRead .word 0x1080#13) = .ok (.read (.unmapped 0x1080#13)) := by decide
theorem test_decode_events :
    decode Config.tc (.den true) = .ok (.den true) ∧ decode Config.tc (.byteDone 0x55#8) = .ok (.byteDone 0x55#8)
      ∧ decode Config.tc .tb = .ok .tb ∧ decode Config.tc .reset = .ok .reset := by decide
theorem test_decode_rejects :
    decode Config.tc (.hostWrite .half 0x004#13 1#32) = .rejected .narrowAccess
      ∧ decode Config.tc (.hostRead .byte 0x008#13) = .rejected .narrowAccess
      ∧ decode Config.tc (.hostRead .word 0x00A#13) = .rejected .misalignedAccess := by decide
/-- 30_encoding.md R118: the first byte of a reception. -/
theorem test_classify_first_byte :
    classifyByte Config.tc (.receiving .rxFirst) true 0b10100100#8 = some .rxSync
      ∧ classifyByte Config.tc (.receiving .rxFirst) true 0b10100101#8 = some .rxUnexpected := by decide
/-- 30_encoding.md R119: the byte of TX_WAIT_CTS. -/
theorem test_classify_grant_byte :
    classifyByte Config.tc (.transmitting .txWaitCts) true 0b10100101#8 = some .txGrant
      ∧ classifyByte Config.tc (.transmitting .txWaitCts) true 0b10100100#8 = some .txCollision
      ∧ classifyByte Config.tc (.transmitting .txWaitCts) true 0x00#8 = some .txUnexpected := by decide
/-- 41_receive.md R180, R181. -/
theorem test_classify_other_bytes :
    classifyByte Config.tc (.receiving .rxBody) true 0xA4#8 = some .rxBody
      ∧ classifyByte Config.tc (.receiving .rxDrain) true 0xA4#8 = some .rxDrain
      ∧ classifyByte Config.tc (.transmitting .txData) true 0xA5#8 = some .txData
      ∧ classifyByte Config.tc .idle false 0x55#8 = some .stray
      ∧ classifyByte Config.tc .noResponse true 0x55#8 = some .noresp
      ∧ classifyByte Config.tc .noResponse false 0x55#8 = some .noresp := by decide
/-- 00_scope.md R11, 20_memory.md R89: the bit order, and V-TX-13's `25 40 08 80 ED` for `A4 02 10 01 B7`. -/
theorem test_bit_order :
    [0xA4#8, 0x02#8, 0x10#8, 0x01#8, 0xB7#8].map (wireByte true) = [0x25#8, 0x40#8, 0x08#8, 0x80#8, 0xED#8]
      ∧ wireByte false 0xA4#8 = 0xA4#8 ∧ wireByte true 0xA5#8 = 0xA5#8 := by decide
theorem test_table_words :
    decodeTableWord 8 0x55 = some (.norespByte 0x55#8) ∧ decodeTableWord 32 0xF0 = some .nop
      ∧ decodeTableWord 8 0x06 = some .park ∧ decodeTableWord 8 0x08 = some (.reservedHigh 0#3)
      ∧ decodeTableWord 16 0x0001 = none := by decide
/-- 20_memory.md R80: a bus address outside the block selects nothing. -/
theorem test_bus_offset :
    busOffset Config.tc 0x00001FFC#32 = some 0x1FFC#13 ∧ busOffset Config.tc 0x00002000#32 = none := by decide

/-! ## Small states -/

/-- The state after one instruction. -/
def after (i : Instr) (s : State) : State :=
  match exec i s with
  | .next t => t
  | .fault _ => s
  | .refused _ => s

/-- `s` with its pending events. -/
def pending (es : List Event) (s : State) : State := { s with inbox := es }

/-- V-ENC-1's buffer before ENCODE: LENGTH 2, body 10 01. -/
def loaded : State := { State.reset with txb := [(1, 0x02#8), (2, 0x10#8), (3, 0x01#8)] }

/-- V-TICK-3 before the TICK: `A4 02 10 01 B7` submitted. -/
def submitted : State :=
  { State.reset with
    txb := [(0, 0xA4#8), (1, 0x02#8), (2, 0x10#8), (3, 0x01#8), (4, 0xB7#8)]
    txlen := 5#9, txreq := true, txres := .pending }

/-- V-TICK-3. -/
def waitDen : State :=
  { submitted with seq := .transmitting .txWaitDen, hrdy := true, txres := .busy, trace := [.hrdy true] }

def waitCts : State := { waitDen with seq := .transmitting .txWaitCts, den := true, reqOut := true }

def txData : State := { waitCts with seq := .transmitting .txData, hrdy := false, txout := 0xA4#8 }

def waitDenLow : State :=
  { txData with
    seq := .transmitting .txWaitDenLow, reqOut := false, txout := 0#8, txidx := 5#9, txreq := false
    txres := .complete, flags := { Flags.clear with txdone := true } }

/-- V-TICK-2. -/
def rxFirst : State := { State.reset with seq := .receiving .rxFirst, den := true, reqOut := true }

/-- A body of which `n` bytes, the cells of `ring`, are stored. -/
def rxBody (n : Nat) (ring : Memory) : State :=
  { rxFirst with
    seq := .receiving .rxBody, rxb := ring, rxwr := BitVec.ofNat 10 n, rxcnt := BitVec.ofNat 16 n }

def rxDrain : State :=
  { rxFirst with
    seq := .receiving .rxDrain, rxcnt := 1#16, lasterr := .unexpectedByte
    flags := { Flags.clear with unexp := true } }

def aborting : State := { State.reset with seq := .aborting }

def parked : State := { State.reset with seq := .noResponse, linesFloat := true }

/-- The frame `A4 00 A4` in the ring. -/
def shortFrame : Memory := [(0, 0xA4#8), (1, 0x00#8), (2, 0xA4#8)]

/-- The frame `A4 02 10 01 B7` in the ring. -/
def longFrame : Memory := [(0, 0xA4#8), (1, 0x02#8), (2, 0x10#8), (3, 0x01#8), (4, 0xB7#8)]

/-- One unread frame, `A4 00 A4`. -/
def oneUnread : State :=
  { State.reset with rxb := shortFrame, rxwr := 3#10, rxparse := 3#10, rxunread := 1#10 }

/-- A full ring: `occ = 31` (20_memory.md R91). -/
def fullRing (s : State) : State := { s with rxwr := 31#10 }

/-! ## One step per instruction -/

/-- V-CMD-14 -/
theorem test_nop : after .nop waitDen = waitDen := by decide
/-- V-TICK-2: SEQ = 0x501 -/
theorem test_tick_starts_receive :
    (after .tick { submitted with den := true }).seqWord = 0x501#32
      ∧ (after .tick { submitted with den := true }).trace = [.pulse] := by decide
/-- V-TICK-3: SEQ = 0x802, STATUS = 0x002 -/
theorem test_tick_starts_transmit :
    (after .tick submitted).seqWord = 0x802#32 ∧ (after .tick submitted).statusWord = 0x002#32
      ∧ (after .tick submitted).trace = [.hrdy true] := by decide
/-- V-ENC-1: TXB[0..4] = A4 02 10 01 B7, TXLEN = 5 -/
theorem test_encode :
    (after .encode loaded).txbBytes 5 = [0xA4#8, 0x02#8, 0x10#8, 0x01#8, 0xB7#8]
      ∧ (after .encode loaded).txlen = 5#9 := by decide
/-- V-ENC-4: L = 17 is above MAX_LENGTH -/
theorem test_encode_refused :
    (after .encode { loaded with txb := [(1, 0x11#8)] }).statusWord = 0x200#32
      ∧ (after .encode { loaded with txb := [(1, 0x11#8)] }).txb = [(1, 0x11#8)] := by decide
/-- 44_host_commands.md R280 -/
theorem test_txSubmit :
    (after .txSubmit { loaded with txlen := 3#9 }).statusWord = 0x002#32
      ∧ (after .txSubmit { loaded with txlen := 3#9 }).txres = .pending := by decide
/-- V-CMD-1, V-CMD-2 -/
theorem test_txSubmit_refused :
    (after .txSubmit State.reset).statusWord = 0x200#32 ∧ (after .txSubmit submitted).statusWord = 0x202#32 := by
  decide
/-- V-CMD-5: RXRD = (30 + 2 + 3) mod 32 = 3 -/
theorem test_rxRelease_wraps :
    (after .rxRelease { oneUnread with rxb := [(31, 0x02#8)], rxrd := 30#10 }).rxrd = 3#10
      ∧ (after .rxRelease { oneUnread with rxb := [(31, 0x02#8)], rxrd := 30#10 }).rxunread = 0#10 := by decide
/-- V-CMD-4 -/
theorem test_rxRelease_refused : (after .rxRelease State.reset).statusWord = 0x200#32 := by decide
/-- V-CMD-6 and 44_host_commands.md R285 -/
theorem test_clrFlags :
    (after .clrFlags rxDrain).statusWord = 0#32 ∧ (after .clrFlags rxDrain).lasterr = .none
      ∧ (after .clrFlags submitted).statusWord = 0x002#32 := by decide
/-- V-PARK-3: TXRES = ERROR, STATUS = 0x004, trace HRDY(1) HRDY(0) FLOAT -/
theorem test_park_transmit :
    (after .park waitDen).txres = .error ∧ (after .park waitDen).statusWord = 0x004#32
      ∧ (after .park waitDen).trace = [.hrdy true, .hrdy false, .float] := by decide
/-- V-PARK-4: the partial reception is dropped -/
theorem test_park_reception :
    (after .park (rxBody 2 shortFrame)).rxwr = 0#10 ∧ (after .park (rxBody 2 shortFrame)).seqWord = 0x604#32
      ∧ (after .park (rxBody 2 shortFrame)).rxcnt = 2#16 := by decide
/-- V-CMD-7 -/
theorem test_reserved7 : after .reserved7 State.reset = State.reset.setFlag .cmderr := by decide
/-- V-CMD-7 -/
theorem test_reservedHigh : (after (.reservedHigh 7#3) State.reset).statusWord = 0x200#32 := by decide
/-- 44_host_commands.md R291: bits 31:1 are ignored -/
theorem test_wCtrl :
    (after (.wCtrl 0xFFFFFFFF#32) State.reset).lsbFirst = true
      ∧ (after (.wCtrl 0xFFFFFFFE#32) State.reset).lsbFirst = false := by decide
/-- V-CMD-11 -/
theorem test_wCtrl_refused :
    (after (.wCtrl 1#32) rxFirst).lsbFirst = false ∧ (after (.wCtrl 1#32) rxFirst).statusWord = 0x200#32 := by decide
/-- V-CMD-9 -/
theorem test_wTxlen : (after (.wTxlen 19#32) State.reset).txlen = 19#9 := by decide
/-- V-CMD-8, and the whole word is compared (44_host_commands.md R290) -/
theorem test_wTxlen_refused :
    (after (.wTxlen 20#32) State.reset).statusWord = 0x200#32
      ∧ (after (.wTxlen 0x00010003#32) State.reset).txlen = 0#9 := by decide
/-- 20_memory.md R82: bits 7:0 are stored -/
theorem test_wTxb :
    (after (.wTxb 2 0xFFFFFF77#32) loaded).txb = [(1, 0x02#8), (2, 0x77#8), (3, 0x01#8)] := by decide
/-- V-CMD-10 -/
theorem test_wTxb_refused :
    (after (.wTxb 3 2#32) submitted).statusWord = 0x202#32
      ∧ (after (.wTxb 3 2#32) submitted).txbByte 3 = 0x01#8 := by decide
/-- V-CMD-12 -/
theorem test_wReadonly : (after (.wReadonly .status 0xFFFFFFFF#32) State.reset).statusWord = 0x200#32 := by decide
/-- V-CMD-12 -/
theorem test_wRxb : after (.wRxb 0 0x12#32) oneUnread = oneUnread.setFlag .cmderr := by decide
/-- V-CMD-13 -/
theorem test_wUnmapped : after (.wUnmapped 0x044#13 1#32) State.reset = State.reset := by decide
/-- 10_state.md R53, R54: PARAM0 and PARAM1 of TC -/
theorem test_read_parameters :
    (after (.read (.reg .param0)) State.reset).rdata = 0x0010A5A4#32
      ∧ (after (.read (.reg .param1)) State.reset).rdata = 0x00040020#32 := by decide
/-- 20_memory.md R82, R83, R86: a window word reads its byte zero-extended, an unmapped offset 0 -/
theorem test_read_windows :
    (after (.read (.txb 4)) submitted).rdata = 0x000000B7#32
      ∧ (after (.read (.rxb 2)) oneUnread).rdata = 0x000000A4#32
      ∧ (after (.read (.unmapped 0x044#13)) oneUnread).rdata = 0#32 := by decide
/-- V-RX-5: the frame is accepted, STATUS = 0x001, cursors 3,3,0,1 -/
theorem test_den_fall_accepts :
    (after (.den false) (rxBody 3 shortFrame)).statusWord = 0x001#32
      ∧ (after (.den false) (rxBody 3 shortFrame)).rxparse = 3#10
      ∧ (after (.den false) (rxBody 3 shortFrame)).rxrd = 0#10 := by decide
/-- V-TX-6: STATUS = 0x404, LASTERR = 8, TXRES = ERROR -/
theorem test_den_fall_aborts :
    (after (.den false) waitCts).statusWord = 0x404#32 ∧ (after (.den false) waitCts).lasterr = .txLinkDrop
      ∧ (after (.den false) waitCts).txres = .error := by decide
/-- V-RX-11: LSB first, the wire byte 25 is the logical byte A4 -/
theorem test_byteDone_reversed :
    (after (.byteDone 0x25#8) { rxFirst with lsbFirst := true }).rxb = [(0, 0xA4#8)]
      ∧ (after (.byteDone 0x25#8) { rxFirst with lsbFirst := true }).trace = [.xfer 0x00#8 0x25#8, .pulse] := by
  decide
/-- V-TX-1: trace PULSE XFER(00,A5) HRDY(0) PULSE from the rise of DEN on -/
theorem test_byteDone_grant :
    (after (.byteDone 0xA5#8) { waitCts with trace := [] }).trace = [.xfer 0x00#8 0xA5#8, .hrdy false, .pulse]
      ∧ (after (.byteDone 0xA5#8) waitCts).seqWord = 0x522#32 := by decide
/-- V-TX-8: STATUS = 0x044, LASTERR = 6, TXRES = TIMEOUT -/
theorem test_tb_times_out :
    (after .tb { waitDen with tocnt := 3#16 }).statusWord = 0x044#32
      ∧ (after .tb { waitDen with tocnt := 3#16 }).txres = .timeout
      ∧ (after .tb { waitDen with tocnt := 3#16 }).seq = .aborting := by decide
/-- V-TX-9 -/
theorem test_tb_counts :
    (after .tb { waitDen with tocnt := 2#16 }).tocnt = 3#16 ∧ after .tb parked = parked := by decide
/-- V-PARK-7: SEQ = 0x400, DEN stays 1 -/
theorem test_reset :
    (after .reset { parked with den := true }).seqWord = 0x400#32 ∧ (after .reset waitDenLow).statusWord = 0#32
      ∧ (after .reset submitted).txb = [] := by decide
/-- 41_receive.md R183 -/
theorem test_rxSync :
    (after (.rxSync 0xA4#8) rxFirst).seq = .receiving .rxBody ∧ (after (.rxSync 0xA4#8) rxFirst).rxb = [(0, 0xA4#8)]
      ∧ (after (.rxSync 0xA4#8) rxFirst).rxwr = 1#10 := by decide
/-- V-RX-2: SEQ = 0x521, LASTERR = 1 -/
theorem test_rxUnexpected :
    (after (.rxUnexpected 0xA5#8) rxFirst).seqWord = 0x521#32
      ∧ (after (.rxUnexpected 0xA5#8) rxFirst).lasterr = .unexpectedByte
      ∧ (after (.rxUnexpected 0xA5#8) rxFirst).rxb = [] := by decide
/-- V-RX-8: a full ring drops the byte: SEQ has OVF_CUR, STATUS = 0x100 -/
theorem test_rxBodyByte_overflow :
    (after (.rxBodyByte 0xB9#8) (fullRing (rxBody 31 []))).statusWord = 0x100#32
      ∧ (after (.rxBodyByte 0xB9#8) (fullRing (rxBody 31 []))).seqWord = 0x1511#32
      ∧ (after (.rxBodyByte 0xB9#8) (fullRing (rxBody 31 []))).rxcnt = 32#16 := by decide
/-- 20_memory.md R91: RXWR wraps modulo N -/
theorem test_rxBodyByte_wraps :
    (after (.rxBodyByte 0x10#8) { rxBody 31 [] with rxparse := 30#10, rxrd := 30#10 }).rxwr = 0#10
      ∧ (after (.rxBodyByte 0x10#8) { rxBody 31 [] with rxparse := 30#10, rxrd := 30#10 }).rxb = [(31, 0x10#8)] := by
  decide
/-- V-RX-1, 10_state.md R50: counted, saturating, not stored -/
theorem test_rxDrainByte :
    (after (.rxDrainByte 0x33#8) rxDrain).rxcnt = 2#16 ∧ (after (.rxDrainByte 0x33#8) rxDrain).rxb = []
      ∧ (after (.rxDrainByte 0x33#8) { rxDrain with rxcnt := 0xFFFF#16 }).rxcnt = 0xFFFF#16 := by decide
/-- V-TX-1: TXOUT = 0xA4 -/
theorem test_txGrant :
    (after (.txGrant 0xA5#8) { waitCts with reqOut := false }).seqWord = 0x522#32
      ∧ (after (.txGrant 0xA5#8) { waitCts with reqOut := false }).txout = 0xA4#8 := by decide
/-- V-TX-3: STATUS = 0x084, TXRES = RETRY, RXB[0] = 0xA4, CNT_COLLISION = 1 -/
theorem test_txCollision :
    (after (.txCollision 0xA4#8) waitCts).statusWord = 0x084#32
      ∧ (after (.txCollision 0xA4#8) waitCts).txres = .retry
      ∧ (after (.txCollision 0xA4#8) waitCts).rxb = [(0, 0xA4#8)]
      ∧ (after (.txCollision 0xA4#8) waitCts).cnt.collision = 1#32 := by decide
/-- V-TX-4: STATUS = 0x024, LASTERR = 7, RXCNT = 1 -/
theorem test_txUnexpected :
    (after (.txUnexpected 0x00#8) waitCts).statusWord = 0x024#32
      ∧ (after (.txUnexpected 0x00#8) waitCts).lasterr = .txUnexpected
      ∧ (after (.txUnexpected 0x00#8) waitCts).rxcnt = 1#16 := by decide
/-- 42_transmit_collision.md R230: the next byte of TXB goes out -/
theorem test_txDataByte :
    (after (.txDataByte 0xFF#8) txData).txout = 0x02#8 ∧ (after (.txDataByte 0xFF#8) txData).txidx = 1#9 := by
  decide
/-- 42_transmit_collision.md R231: the last byte -/
theorem test_txDataByte_last :
    (after (.txDataByte 0x00#8) { txData with txidx := 4#9, txout := 0xB7#8 }).txres = .complete
      ∧ (after (.txDataByte 0x00#8) { txData with txidx := 4#9, txout := 0xB7#8 }).cnt.txOk = 1#32
      ∧ (after (.txDataByte 0x00#8) { txData with txidx := 4#9, txout := 0xB7#8 }).txreq = false := by decide
/-- V-RX-16: CNT_STRAY = 1, trace XFER(00,55) -/
theorem test_stray :
    (after (.byteDone 0x55#8) State.reset).cnt.stray = 1#32
      ∧ (after (.byteDone 0x55#8) State.reset).trace = [.xfer 0x00#8 0x55#8]
      ∧ (after (.stray 0x55#8) State.reset).cnt.stray = 1#32 := by decide
/-- V-PARK-6: the byte is ignored, CNT_STRAY stays 0 -/
theorem test_norespByte : after (.byteDone 0x55#8) parked = parked ∧ after (.norespByte 0x55#8) parked = parked := by
  decide
/-- V-VAL-1 to V-VAL-4 -/
theorem test_validate :
    (rxBody 5 longFrame).validate 0 5 false = { verdict := .ok, lenBad := false, ckBad := false }
      ∧ ((rxBody 5 longFrame).setRxb 4 0xB6#8).validate 0 5 false =
        { verdict := .errChecksum, lenBad := false, ckBad := true }
      ∧ (((rxBody 5 longFrame).setRxb 1 0x03#8).setRxb 4 0xB6#8).validate 0 5 false =
        { verdict := .errLength, lenBad := true, ckBad := false }
      ∧ ((rxBody 5 longFrame).setRxb 1 0x03#8).validate 0 5 false =
        { verdict := .errLength, lenBad := true, ckBad := true } := by decide
/-- V-CK-1 to V-CK-5 -/
theorem test_cksum :
    cksum [] = 0x00#8 ∧ cksum [0xA4#8, 0x00#8] = 0xA4#8 ∧ cksum [0xA4#8, 0x02#8, 0x10#8, 0x01#8] = 0xB7#8
      ∧ cksum [0xA4#8, 0x01#8, 0x20#8] = 0x85#8 ∧ cksum [0xFF#8, 0xFF#8] = 0x00#8 := by decide
/-- The word placed for the next step is the instruction the step runs. -/
theorem test_withFetchWord :
    fetch (State.reset.withFetchWord 32 0x6) = .run .park State.reset
      ∧ fetch (State.reset.withFetchWord 8 0x6) = .run .park State.reset
      ∧ fetch (State.reset.withFetchWord 8 0x55) = .run (.byteDone 0x55#8) { State.reset with seq := .noResponse }
      ∧ fetch (State.reset.withFetchWord 16 0x1000) = .run (.wRxb 0 0#32) State.reset := by decide

/-! ## Witnesses: states that meet the hypotheses of the statements -/

theorem reset_ctrl : CtrlInv State.reset := by constructor <;> decide
theorem submitted_ctrl : CtrlInv submitted := by constructor <;> decide
theorem waitDen_ctrl : CtrlInv waitDen := by constructor <;> decide
theorem waitCts_ctrl : CtrlInv waitCts := by constructor <;> decide
theorem txData_ctrl : CtrlInv txData := by constructor <;> decide
theorem waitDenLow_ctrl : CtrlInv waitDenLow := by constructor <;> decide
theorem rxFirst_ctrl : CtrlInv rxFirst := by constructor <;> decide
theorem rxBody_ctrl : CtrlInv (rxBody 2 shortFrame) := by constructor <;> decide
theorem rxDrain_ctrl : CtrlInv rxDrain := by constructor <;> decide
theorem aborting_ctrl : CtrlInv aborting := by constructor <;> decide
theorem parked_ctrl : CtrlInv parked := by constructor <;> decide

/-- A reception in progress behind one unread frame. -/
def unreadAndBody : State :=
  { oneUnread with
    seq := .receiving .rxBody, den := true, reqOut := true, rxcnt := 1#16, rxwr := 4#10
    rxb := [(0, 0xA4#8), (1, 0x00#8), (2, 0xA4#8), (3, 0xA4#8)] }

theorem unreadAndBody_ring : RingInv unreadAndBody where
  wr := by decide
  parse := by decide
  rd := by decide
  path := by decide
  frames := ⟨by decide, by decide, by decide, by unfold State.framesSpan; decide⟩
  first := by decide
  body := by decide
  drain := by decide

theorem unreadAndBody_mem : MemInv unreadAndBody where
  txb := by decide
  rxb := by decide
  txbSize := fun _ _ => rfl
  rxbSize := fun i h => by
    have : 32 ≤ i := h
    simp only [unreadAndBody, Memory.get]
    rw [if_neg (by omega), if_neg (by omega), if_neg (by omega), if_neg (by omega)]

theorem unreadAndBody_good : Good unreadAndBody where
  ctrl := by constructor <;> decide
  ring := unreadAndBody_ring
  mem := unreadAndBody_mem

/-- The pending events change no invariant. -/
theorem good_pending {s : State} (h : Good s) (es : List Event) : Good (pending es s) where
  ctrl := { h.ctrl with }
  ring := { wr := h.ring.wr, parse := h.ring.parse, rd := h.ring.rd, path := h.ring.path
            frames := by
              have key : ∀ n k len, s.framesSpan n k len → (pending es s).framesSpan n k len := by
                intro n
                induction n with
                | zero => exact fun _ _ hs => hs
                | succ n ih => exact fun k len hs => ⟨hs.1, hs.2.1, hs.2.2.1, ih _ _ hs.2.2.2⟩
              exact key _ _ _ h.ring.frames
            first := h.ring.first, body := h.ring.body, drain := h.ring.drain }
  mem := { txb := h.mem.txb, rxb := h.mem.rxb, txbSize := h.mem.txbSize, rxbSize := h.mem.rxbSize }

/-- A state whose two buffers were never written and whose unread count is 0 has the other two invariants. -/
theorem good_of_empty {s : State} (hc : CtrlInv s) (ht : s.txb = [] ∨ s.txb = submitted.txb) (hr : s.rxb = [])
    (hcfg : s.cfg = Config.tc) (hw : s.rxwr = 0#10) (hp : s.rxparse = 0#10) (hd : s.rxrd = 0#10)
    (hu : s.rxunread = 0#10) (hb : s.seq ≠ .receiving .rxBody) (hn : s.rxcnt = 0#16) (ho : s.ovfCur = false) :
    Good s where
  ctrl := hc
  ring :=
    { wr := by rw [hw, hcfg]; decide
      parse := by rw [hp, hcfg]; decide
      rd := by rw [hd, hcfg]; decide
      path := by simp only [State.unreadSpan, State.partialSpan, State.occ, hcfg, hw, hp, hd]; decide
      frames := by
        simp only [hu, State.unreadSpan, hcfg, hp, hd]
        show State.framesSpan s 0 _ _
        unfold State.framesSpan
        decide
      first := fun _ => ⟨by rw [hw, hp], hn, ho⟩
      body := fun h => absurd h hb
      drain := fun _ => by rw [hw, hp] }
  mem :=
    { txb := by rcases ht with h | h <;> rw [h] <;> decide
      rxb := by rw [hr]; decide
      txbSize := fun i hi => by
        rw [hcfg] at hi
        have : 19 ≤ i := hi
        rcases ht with h | h <;> rw [h]
        · rfl
        · simp only [submitted, Memory.get]
          rw [if_neg (by omega), if_neg (by omega), if_neg (by omega), if_neg (by omega), if_neg (by omega)]
      rxbSize := fun i _ => by rw [hr]; rfl }

theorem rxFirst_good : Good rxFirst :=
  good_of_empty rxFirst_ctrl (.inl rfl) rfl rfl rfl rfl rfl rfl (by decide) rfl rfl

theorem waitCts_good : Good waitCts :=
  good_of_empty waitCts_ctrl (.inr rfl) rfl rfl rfl rfl rfl rfl (by decide) rfl rfl

theorem waitDenLow_good : Good waitDenLow :=
  good_of_empty waitDenLow_ctrl (.inr rfl) rfl rfl rfl rfl rfl rfl (by decide) rfl rfl

/-! ### Encoding -/

theorem witness_eventDecodeOfEncode :
    Config.tc.legal = true
      ∧ ((Instr.wTxb 18 0#32).wf Config.tc = true ∧ byteContext (.wTxb 18 0#32) = none)
      ∧ ((Instr.wRxb 31 0#32).wf Config.tc = true ∧ byteContext (.wRxb 31 0#32) = none)
      ∧ ((Instr.read (.unmapped 0x1FFC#13)).wf Config.tc = true
        ∧ byteContext (.read (.unmapped 0x1FFC#13)) = none) := by decide

theorem witness_byteClassDecodeOfEncode :
    Config.tc.legal = true
      ∧ ∀ i ∈ [Instr.rxSync 0xA4#8, .rxUnexpected 0xA5#8, .rxBodyByte 0#8, .rxDrainByte 0#8, .txGrant 0xA5#8,
          .txCollision 0xA4#8, .txUnexpected 0xA6#8, .txDataByte 0xFF#8, .stray 0xFF#8, .norespByte 0#8],
        i.wf Config.tc = true ∧ (byteContext i).isSome = true ∧ ∃ x, encode i = .byteDone x := by
  refine ⟨by decide, fun i hi => ?_⟩
  simp only [List.mem_cons, List.not_mem_nil, or_false] at hi
  rcases hi with rfl | rfl | rfl | rfl | rfl | rfl | rfl | rfl | rfl | rfl <;>
    exact ⟨by decide, by decide, _, rfl⟩

theorem witness_decodeGivesWellFormed :
    Config.tc.legal = true
      ∧ decode Config.tc (.hostWrite .word 0x448#13 0#32) = .ok (.wTxb 18 0#32) := by decide

/-- Boundary offsets of each range of R81 with TC. -/
theorem witness_offsetLayout :
    Config.tc.legal = true
      ∧ ∀ n ∈ [0, 0x40, 0x44, 0x7C, 0x80, 0x9C, 0xA0, 0x3FC, 0x400, 0x448, 0x44C, 0xFFC, 0x1000, 0x107C, 0x1080,
          0x1FFC], (BitVec.ofNat 13 n).toNat = n ∧ n % 4 = 0 := by decide

/-! ### The step -/

theorem witness_stepRunsDecodedInstruction :
    ((pending [.den true, .tb] waitDen).cfg.legal = true ∧ (pending [.den true, .tb] waitDen).inbox = .den true :: [.tb]
      ∧ decode waitDen.cfg (.den true) = .ok (.den true))
      ∧ State.reset.cfg.legal = true ∧ State.reset.inbox = [] := by decide

theorem witness_everyEventIsAnswered :
    (pending [.hostWrite .word 0x1FFC#13 0#32] State.reset).cfg.legal = true
      ∧ (pending [.hostWrite .word 0x1FFC#13 0#32] State.reset).inbox = .hostWrite .word 0x1FFC#13 0#32 :: []
      ∧ (Event.hostWrite .word 0x1FFC#13 0#32).inAlphabet = true := by decide

theorem witness_whatAStepRefuses :
    State.reset.cfg.legal = true
      ∧ ((pending [.hostWrite .half 0#13 0#32] State.reset).inbox = .hostWrite .half 0#13 0#32 :: []
      ∧ AccessWidth.half ≠ .word)
      ∧ ((pending [.hostRead .word 1#13] State.reset).inbox = .hostRead .word 1#13 :: []
        ∧ (1#13 : Offset).toNat % 4 ≠ 0)
      ∧ ({ State.reset with cfg := { Config.tc with ctsByte := 0xA4#8 } } : State).cfg.ctsByte = Config.tc.syncByte := by
  decide

theorem witness_resetIsGood : Config.tc.legal = true := by decide

/-! ### Invariants -/

theorem witness_stepKeepsControl :
    CtrlInv (pending [.den true] waitDen) ∧ ∃ t, step (pending [.den true] waitDen) = .next t :=
  ⟨{ waitDen_ctrl with }, _, rfl⟩

theorem witness_stepKeepsRing :
    CtrlInv (pending [.byteDone 0#8] unreadAndBody) ∧ RingInv (pending [.byteDone 0#8] unreadAndBody)
      ∧ ∃ t, step (pending [.byteDone 0#8] unreadAndBody) = .next t :=
  ⟨(good_pending unreadAndBody_good _).ctrl, (good_pending unreadAndBody_good _).ring, _, rfl⟩

theorem witness_stepKeepsMemory :
    (pending [.byteDone 0#8] unreadAndBody).rxwr.toNat < (pending [.byteDone 0#8] unreadAndBody).cfg.rxbufSize
      ∧ MemInv (pending [.byteDone 0#8] unreadAndBody)
      ∧ ∃ t, step (pending [.byteDone 0#8] unreadAndBody) = .next t :=
  ⟨by decide, (good_pending unreadAndBody_good _).mem, _, rfl⟩

theorem witness_stepKeepsErrorFlag :
    ErrorFlagInv (pending [.den false] rxDrain) ∧ ∃ t, step (pending [.den false] rxDrain) = .next t := by
  refine ⟨fun f h => ?_, _, rfl⟩
  cases h
  decide

/-- A reception that lost a byte ends with RX_OVERFLOW, RXOVF long cleared. -/
theorem witness_whatWritesRxOverflow :
    let s : State := pending [.den false] { rxBody 3 shortFrame with ovfCur := true }
    s.lasterr ≠ .rxOverflow ∧ ∃ t, step s = .next t ∧ t.lasterr = .rxOverflow ∧ t.flags.rxovf = false :=
  ⟨by decide, _, rfl, by decide, by decide⟩

/-! ### Rules over every instruction -/

theorem witness_transientFlagsAreSticky :
    (∃ t, exec .tick waitDenLow = .next t) ∧ waitDenLow.flags.test .txdone = true
      ∧ Instr.tick ≠ .clrFlags ∧ Instr.tick ≠ .reset ∧ Instr.tick ≠ .txSubmit :=
  ⟨⟨_, rfl⟩, by decide⟩

theorem witness_noResponse :
    parked.seq = .noResponse ∧ ∃ t, step (pending [.reset] parked) = .next t ∧ t.seq ≠ .noResponse :=
  ⟨by decide, _, rfl, by decide⟩

/-- HRDY rises at START_TX; it falls at the grant byte, at an abort, at PARK and at RESET. -/
theorem witness_hostReadyChanges :
    (submitted.hrdy = false ∧ ∃ t, exec .tick submitted = .next t ∧ t.hrdy = true)
      ∧ waitCts.hrdy = true
      ∧ (∃ t, exec (.byteDone 0xA5#8) waitCts = .next t ∧ t.hrdy = false)
      ∧ (∃ t, exec (.den false) waitCts = .next t ∧ t.hrdy = false)
      ∧ (∃ t, exec .park waitCts = .next t ∧ t.hrdy = false)
      ∧ ∃ t, exec .reset waitCts = .next t ∧ t.hrdy = false :=
  ⟨⟨by decide, _, rfl, by decide⟩, by decide, ⟨_, rfl, by decide⟩, ⟨_, rfl, by decide⟩, ⟨_, rfl, by decide⟩,
    _, rfl, by decide⟩

theorem witness_onlyATimeoutSetsTmo :
    ∃ t, exec .tb { waitDen with tocnt := 3#16 } = .next t ∧ waitDen.flags.tmo = false ∧ t.flags.tmo = true
      ∧ t.cnt.timeout ≠ waitDen.cnt.timeout :=
  ⟨_, rfl, by decide, by decide, by decide⟩

theorem witness_transmitBufferIsHeld :
    (∃ t, exec (.wTxb 3 2#32) submitted = .next t) ∧ submitted.txreq = true :=
  ⟨⟨_, rfl⟩, by decide⟩

theorem witness_whatStartsATransfer :
    (∃ t, exec .txSubmit { loaded with txlen := 3#9 } = .next t ∧ loaded.txreq = false ∧ t.txreq = true)
      ∧ (∃ t, exec .tick submitted = .next t ∧ submitted.seq.isTransmitting = false ∧ t.seq.isTransmitting = true)
      ∧ (∃ t, exec .tick { submitted with den := true } = .next t ∧ t.seq.isReceiving = true)
      ∧ (∃ t, exec (.byteDone 0xA4#8) waitCts = .next t ∧ t.seq.isReceiving = true)
      ∧ submitted.seq.isReceiving = false ∧ waitCts.seq.isReceiving = false :=
  ⟨⟨_, rfl, by decide, by decide⟩, ⟨_, rfl, by decide, by decide⟩, ⟨_, rfl, by decide⟩, ⟨_, rfl, by decide⟩,
    by decide, by decide⟩

theorem witness_parametersAreConstant : (∃ t, exec .reset waitDen = .next t) ∧ waitDen.cfg.legal = true :=
  ⟨⟨_, rfl⟩, by decide⟩

theorem witness_unreadFramesAreNeverOverwritten :
    Good (pending [.byteDone 0#8] unreadAndBody) ∧ (∃ t, step (pending [.byteDone 0#8] unreadAndBody) = .next t)
      ∧ (pending [.byteDone 0#8] unreadAndBody).inbox.head? ≠ some .reset
      ∧ 2 < (pending [.byteDone 0#8] unreadAndBody).unreadSpan :=
  ⟨good_pending unreadAndBody_good _, ⟨_, rfl⟩, by decide, by decide⟩

/-- A rejected frame, an ended drain and an abort. -/
theorem witness_resyncMakesTheCursorsEqual :
    (∃ t, exec (.den false) unreadAndBody = .next t ∧ t.cnt.resync ≠ unreadAndBody.cnt.resync)
      ∧ (∃ t, exec (.den false) rxDrain = .next t ∧ t.cnt.resync ≠ rxDrain.cnt.resync)
      ∧ (∃ t, exec .tb { waitDen with tocnt := 3#16 } = .next t ∧ t.cnt.resync ≠ waitDen.cnt.resync)
      ∧ byteContext (.den false) = none ∧ byteContext .tb = none :=
  ⟨⟨_, rfl, by decide⟩, ⟨_, rfl, by decide⟩, ⟨_, rfl, by decide⟩, rfl, rfl⟩

theorem witness_abortingIsLeft :
    aborting.seq = .aborting
      ∧ (∃ t, exec .tick aborting = .next t ∧ t.seq ≠ .aborting)
      ∧ (∃ t, exec .park aborting = .next t ∧ t.seq ≠ .aborting)
      ∧ (∃ t, exec .reset aborting = .next t ∧ t.seq ≠ .aborting)
      ∧ ∃ t, exec .tb aborting = .next t :=
  ⟨by decide, ⟨_, rfl, by decide⟩, ⟨_, rfl, by decide⟩, ⟨_, rfl, by decide⟩, _, rfl⟩

/-! ### Commands and accesses -/

theorem witness_tickRunsOneState :
    (rxFirst.seq ≠ .idle ∧ rxFirst.seq ≠ .aborting) ∧ aborting.seq = .aborting
      ∧ (State.reset.seq = .idle ∧ State.reset.den = false ∧ State.reset.txreq = false)
      ∧ (submitted.seq = .idle ∧ submitted.den = false ∧ submitted.txreq = true)
      ∧ (State.powerOn Config.tc true).seq = .idle ∧ (State.powerOn Config.tc true).den = true := by decide

/-- L = MAX_LENGTH is accepted, L = MAX_LENGTH + 1 is refused. -/
theorem witness_encodeBuildsOrRefuses :
    ¬(({ loaded with txb := [(1, 16#8)] } : State).txreq = true ∨ loaded.seq = .noResponse
        ∨ loaded.cfg.maxLength < (({ loaded with txb := [(1, 16#8)] } : State).txbByte 1).toNat)
      ∧ loaded.cfg.maxLength < (({ loaded with txb := [(1, 17#8)] } : State).txbByte 1).toNat := by decide

theorem witness_encodedBufferIsAFrame :
    loaded.txreq = false ∧ loaded.seq ≠ .noResponse ∧ (loaded.txbByte 1).toNat ≤ loaded.cfg.maxLength
      ∧ ∃ t, exec .encode loaded = .next t :=
  ⟨by decide, by decide, by decide, _, rfl⟩

/-- TXREQ = 1; TXLEN one above TXBUF_SIZE; a state other than IDLE. -/
theorem witness_refusedWritesSetCmderr :
    submitted.txreq = true ∧ (State.reset.cfg.txbufSize < (20#32 : Word).toNat) ∧ rxFirst.seq ≠ .idle := by decide

theorem witness_parkEntersNoResponse : parked.seq = .noResponse ∧ waitDen.seq ≠ .noResponse := by decide

theorem witness_txbWrites : submitted.txreq = true ∧ State.reset.txreq = false := by decide

/-! ### DEN and TB -/

theorem witness_denLevelOnly :
    State.reset.seq = .idle ∧ aborting.seq = .aborting ∧ parked.seq = .noResponse := by decide

theorem witness_denEdgesOfATransmit :
    (waitDen.seq = .transmitting .txWaitDen ∧ waitDen.den = false)
      ∧ waitDenLow.seq = .transmitting .txWaitDenLow ∧ waitDenLow.den = true := by decide

theorem witness_denFallAbortsATransmit :
    (waitCts.seq = .transmitting .txWaitCts ∧ waitCts.den = true)
      ∧ txData.seq = .transmitting .txData ∧ txData.den = true := by decide

/-- The shortest frame, and one with a body. -/
theorem witness_validReceptionIsAccepted :
    (∀ s ∈ [rxBody 3 shortFrame, rxBody 5 longFrame], s.seq = .receiving .rxBody ∧ s.den = true ∧ s.ovfCur = false
      ∧ 2 ≤ s.rxcnt.toNat ∧ s.rxcnt.toNat = (s.frameByte s.rxparse.toNat 1).toNat + 3
      ∧ cksum ((List.range (s.rxcnt.toNat - 1)).map (s.frameByte s.rxparse.toNat))
        = s.frameByte s.rxparse.toNat (s.rxcnt.toNat - 1)) := by decide

/-- Each reason for a rejection: overflow; no byte; one byte; one byte short; only the checksum. -/
theorem witness_invalidReceptionIsRejected :
    ({ rxBody 3 shortFrame with ovfCur := true } : State).ovfCur = true
      ∧ (rxFirst.seq = .receiving .rxFirst ∧ rxFirst.den = true ∧ rxFirst.rxcnt.toNat < 2)
      ∧ ((rxBody 1 shortFrame).seq = .receiving .rxBody ∧ (rxBody 1 shortFrame).den = true
        ∧ (rxBody 1 shortFrame).rxcnt.toNat < 2)
      ∧ (rxBody 2 shortFrame).rxcnt.toNat ≠ ((rxBody 2 shortFrame).frameByte 0 1).toNat + 3
      ∧ ((rxBody 3 [(0, 0xA4#8), (1, 0#8), (2, 0xA5#8)]).rxcnt.toNat
          = ((rxBody 3 [(0, 0xA4#8), (1, 0#8), (2, 0xA5#8)]).frameByte 0 1).toNat + 3
        ∧ cksum ((List.range 2).map ((rxBody 3 [(0, 0xA4#8), (1, 0#8), (2, 0xA5#8)]).frameByte 0))
          ≠ (rxBody 3 [(0, 0xA4#8), (1, 0#8), (2, 0xA5#8)]).frameByte 0 2) := by decide

theorem witness_drainedReceptionEnds : rxDrain.seq = .receiving .rxDrain ∧ rxDrain.den = true := by decide

/-- Ignored; counted, the last count before the bound; the bound, in a reception and in a transmit. -/
theorem witness_tbCountsOrAborts :
    State.reset.seq.quiet = true
      ∧ (({ rxFirst with tocnt := 2#16 } : State).seq.quiet = false
        ∧ (({ rxFirst with tocnt := 2#16 } : State).tocnt + 1#16).toNat ≠ rxFirst.cfg.tWait)
      ∧ (({ rxFirst with tocnt := 3#16 } : State).tocnt + 1#16).toNat = rxFirst.cfg.tWait
      ∧ waitDen.seq.quiet = false
      ∧ (({ waitDen with tocnt := 3#16 } : State).tocnt + 1#16).toNat = waitDen.cfg.tWait := by decide

/-! ### Byte transfers -/

theorem witness_byteDoneDispatches :
    parked.seq = .noResponse
      ∧ (State.reset.seq ≠ .noResponse ∧ State.reset.reqOut = false)
      ∧ (({ waitDen with reqOut := true } : State).reqOut = true ∧ waitDen.seq.requestsByte = false)
      ∧ (rxFirst.reqOut = true ∧ rxFirst.seq = .receiving .rxFirst)
      ∧ ((rxBody 2 shortFrame).reqOut = true ∧ (rxBody 2 shortFrame).seq = .receiving .rxBody)
      ∧ (rxDrain.reqOut = true ∧ rxDrain.seq = .receiving .rxDrain)
      ∧ (waitCts.reqOut = true ∧ waitCts.seq = .transmitting .txWaitCts)
      ∧ txData.reqOut = true ∧ txData.seq = .transmitting .txData := by decide

/-- Both instructions, with the last free slot of the ring and with a full ring. -/
theorem witness_storedReceiveBytes :
    (Instr.rxSync 0xA4#8 = .rxSync 0xA4#8 ∨ Instr.rxSync 0xA4#8 = .rxBodyByte 0xA4#8)
      ∧ (Instr.rxBodyByte 0xA4#8 = .rxSync 0xA4#8 ∨ Instr.rxBodyByte 0xA4#8 = .rxBodyByte 0xA4#8)
      ∧ (fullRing rxFirst).occ = rxFirst.cfg.rxbufSize - 1
      ∧ ({ rxFirst with rxwr := 30#10 } : State).occ ≠ rxFirst.cfg.rxbufSize - 1 := by decide

theorem witness_collisionHandsOverToReceive :
    (fullRing waitCts).occ = waitCts.cfg.rxbufSize - 1 ∧ waitCts.occ ≠ waitCts.cfg.rxbufSize - 1 := by decide

/-! ### The codec -/

theorem witness_validateAcceptsEveryFrame :
    [0x10#8, 0x01#8].length ≤ 255
      ∧ (rxBody 5 longFrame).frameBytes 0 5 = frameOf Config.tc [0x10#8, 0x01#8] := by decide

/-- The last byte changed (V-VAL-2), and the first. -/
theorem witness_validateCatchesEveryByteChange :
    (4 < [0x10#8, 0x01#8].length + 3 ∧ (frameOf Config.tc [0x10#8, 0x01#8])[4]? ≠ some 0xB6#8
      ∧ ((rxBody 5 longFrame).setRxb 4 0xB6#8).frameBytes 0 5
        = (frameOf Config.tc [0x10#8, 0x01#8]).set 4 0xB6#8)
      ∧ (frameOf Config.tc [0x10#8, 0x01#8])[0]? ≠ some 0x00#8
      ∧ ((rxBody 5 longFrame).setRxb 0 0x00#8).frameBytes 0 5
        = (frameOf Config.tc [0x10#8, 0x01#8]).set 0 0x00#8 := by decide

/-- No byte, one byte, a count one short; and V-VAL-8, where two changes cancel. -/
theorem witness_validateVerdictOrder :
    (4 : Nat) ≠ ((rxBody 5 longFrame).frameByte 0 1).toNat + 3
      ∧ (frameOf Config.tc [0x10#8, 0x01#8])[2]? = some 0x10#8 ∧ (frameOf Config.tc [0x10#8, 0x01#8])[3]? = some 0x01#8
      ∧ (((rxBody 5 longFrame).setRxb 2 0x11#8).setRxb 3 0x00#8).frameBytes 0 5
        = ((frameOf Config.tc [0x10#8, 0x01#8]).set 2 (0x10#8 ^^^ 0x01#8)).set 3 (0x01#8 ^^^ 0x01#8) := by decide

/-! ### Whole transfers -/

/-- The longest frame that fits the empty ring of TC. -/
theorem witness_receptionOfAnyFrame :
    let body := List.replicate 28 0x5A#8
    let es := transfers rxFirst.lsbFirst (frameOf Config.tc body) ++ .den false :: [.tb]
    Good (pending es rxFirst) ∧ (pending es rxFirst).seq = .receiving .rxFirst ∧ body.length ≤ 255
      ∧ (pending es rxFirst).occ + (frameOf Config.tc body).length = (pending es rxFirst).cfg.rxbufSize - 1
      ∧ (pending es rxFirst).inbox = es :=
  ⟨good_pending rxFirst_good _, rfl, by decide, by decide, rfl⟩

theorem witness_collisionLosesNeitherFrame :
    let body := List.replicate 28 0x5A#8
    let es := transfers waitCts.lsbFirst (frameOf Config.tc body) ++ .den false :: [.tb]
    Good (pending es waitCts) ∧ (pending es waitCts).seq = .transmitting .txWaitCts ∧ body.length ≤ 255
      ∧ (pending es waitCts).occ + (frameOf Config.tc body).length = (pending es waitCts).cfg.rxbufSize - 1
      ∧ (pending es waitCts).inbox = es :=
  ⟨good_pending waitCts_good _, rfl, by decide, by decide, rfl⟩

theorem witness_transmitSendsTheBuffer :
    let inns := List.replicate 5 0xFF#8
    let es := .den true :: transfers waitDen.lsbFirst (waitDen.cfg.ctsByte :: inns) ++ .den false :: [.tb]
    CtrlInv (pending es waitDen) ∧ (pending es waitDen).seq = .transmitting .txWaitDen
      ∧ inns.length = (pending es waitDen).txlen.toNat ∧ (pending es waitDen).inbox = es :=
  ⟨{ waitDen_ctrl with }, rfl, by decide, rfl⟩

/-- Three TB events already counted in one wait, none in another. -/
theorem witness_everyWaitIsBounded :
    let late : State := { rxDrain with tocnt := 3#16 }
    let es (s : State) : List Event :=
      List.replicate (s.cfg.tWait - s.tocnt.toNat) .tb ++ .hostWrite .word 0x004#13 1#32 :: []
    (CtrlInv (pending (es late) late) ∧ late.seq.quiet = false)
      ∧ CtrlInv (pending (es waitDenLow) waitDenLow) ∧ waitDenLow.seq.quiet = false :=
  ⟨⟨by constructor <;> decide, by decide⟩, { waitDenLow_ctrl with }, by decide⟩

end Sys2Proof.Tests
end

/-! PROOFS. Every event of the input alphabet is answered (spec/00_scope.md R15): the decoder reads an instruction
from it, every instruction has a next state, and no instruction touches the pending events. -/

namespace Sys2Proof.Machine

/-! ## What the updates with a condition leave of the inbox -/

@[simp] theorem State.finishRx_inbox (s : State) : s.finishRx.inbox = s.inbox := by
  unfold State.finishRx
  split <;> simp

@[simp] theorem State.buildFrame_inbox (len : Nat) (s : State) : (s.buildFrame len).inbox = s.inbox := (rfl)

@[simp] theorem State.abortReturn_inbox (s : State) : s.abortReturn.inbox = s.inbox := (rfl)

/-! ## The decoder reads every event of the alphabet -/

/-- R84 rejects nothing but a narrow or a misaligned access. -/
theorem accessError_eq_none {w : AccessWidth} {off : Offset} (h : (w == .word && off.toNat % 4 == 0) = true) :
    accessError w off = none := by
  obtain ⟨rfl, ha⟩ : w = .word ∧ alignedOffset off = true := by simpa [alignedOffset] using h
  simp [accessError, ha]

/-- Only a host access can be rejected, and R14 has none of those that are (20_memory.md R84). -/
theorem decode_of_inAlphabet (p : Params) {e : Event} (h : e.inAlphabet = true) :
    ∃ i, decode p e = .ok i := by
  cases e with
  | hostWrite w off v => exact ⟨decodeWrite p off v, by simp [decode, accessError_eq_none h]⟩
  | hostRead w off => exact ⟨.read (locate p off), by simp [decode, accessError_eq_none h]⟩
  | den v => exact ⟨_, rfl⟩
  | byteDone b => exact ⟨_, rfl⟩
  | tb => exact ⟨_, rfl⟩
  | reset => exact ⟨_, rfl⟩

/-! ## Every instruction has a next state, with the same events pending -/

/-- A received byte of any class is answered (41_receive.md R181 to R187; 42_transmit_collision.md R225 to R231). -/
theorem exec_byteClass_answers (c : ByteClass) (x : Byte) (s : State) :
    ∃ t, exec (c.instr x) s = .next t ∧ t.inbox = s.inbox := by
  cases c with
  | rxSync => exact ⟨_, rfl, by simp⟩
  | rxUnexpected => exact ⟨_, rfl, by simp⟩
  | rxBody => exact ⟨_, rfl, by simp⟩
  | rxDrain => exact ⟨_, rfl, by simp⟩
  | txGrant => exact ⟨_, rfl, by simp⟩
  | txCollision => exact ⟨_, rfl, by simp⟩
  | txUnexpected => exact ⟨_, rfl, by simp⟩
  | txData => exact ⟨_, rfl, by split <;> simp⟩
  | stray => exact ⟨_, rfl, rfl⟩
  | noresp => exact ⟨_, rfl, rfl⟩

/-- A classified BYTE_DONE runs the row of its class; what R180 does before it leaves the pending events. -/
theorem exec_byteDone_of_class {b : Byte} {s : State} {c : ByteClass}
    (h : classifyByte s.cfg s.seq s.reqOut (s.wire b) = some c) :
    ∃ u : State, u.inbox = s.inbox ∧ exec (.byteDone b) s = exec (c.instr (s.wire b)) u := by
  have hx : exec (.byteDone b) s = execByteDone b s := rfl
  rw [hx, execByteDone, h]
  cases c with
  | noresp => exact ⟨s, rfl, rfl⟩
  | stray => exact ⟨s.emitXfer b, by simp, rfl⟩
  | _ => exact ⟨s.takeByte b, by simp, rfl⟩

/-- A BYTE_DONE is answered at every point of control (41_receive.md R180). -/
theorem exec_byteDone_answers (b : Byte) (s : State) :
    ∃ t, exec (.byteDone b) s = .next t ∧ t.inbox = s.inbox := by
  cases hc : classifyByte s.cfg s.seq s.reqOut (s.wire b) with
  | none => exact ⟨s, by simp [exec, execByteDone, hc], rfl⟩
  | some c =>
    obtain ⟨u, hu, hx⟩ := exec_byteDone_of_class hc
    obtain ⟨t, ht, hin⟩ := exec_byteClass_answers c (s.wire b) u
    exact ⟨t, hx.trans ht, hin.trans hu⟩

/-- A DEN event is answered in every phase (43_protocol_tick.md R270). -/
theorem exec_den_answers (v : Bool) (s : State) :
    ∃ t, exec (.den v) s = .next t ∧ t.inbox = s.inbox := by
  obtain ⟨t, ht⟩ : ∃ t, exec (.den v) s = .next t := ⟨_, rfl⟩
  refine ⟨t, ht, ?_⟩
  rcases den_cases ht with rfl | ⟨-, ⟨-, rfl⟩ | ⟨-, -, rfl⟩ | ⟨-, -, rfl⟩ | ⟨-, -, rfl⟩ | ⟨-, -, rfl⟩ | ⟨-, -, rfl⟩⟩ <;>
    simp

/-- A TB is answered in every phase (60_exceptions.md R335). -/
theorem exec_tb_answers (s : State) : ∃ t, exec .tb s = .next t ∧ t.inbox = s.inbox := by
  obtain ⟨t, ht⟩ : ∃ t, exec .tb s = .next t := ⟨_, rfl⟩
  refine ⟨t, ht, ?_⟩
  rcases tb_cases ht with ⟨-, rfl⟩ | ⟨-, -, rfl⟩ | ⟨-, -, rfl⟩ | ⟨-, -, rfl⟩ <;> simp

/-- A TICK is answered in every phase (43_protocol_tick.md R260). -/
theorem exec_tick_answers (s : State) : ∃ t, exec .tick s = .next t ∧ t.inbox = s.inbox := by
  obtain ⟨t, ht⟩ : ∃ t, exec .tick s = .next t := ⟨_, rfl⟩
  refine ⟨t, ht, ?_⟩
  rcases tick_cases ht with ⟨-, -, rfl⟩ | ⟨-, -, -, rfl⟩ | ⟨-, rfl⟩ | ⟨-, rfl⟩ <;> simp

/-- No instruction faults or is refused, and none touches the pending events. -/
theorem exec_answers (i : Instr) (s : State) : ∃ t, exec i s = .next t ∧ t.inbox = s.inbox := by
  cases i with
  | tick => exact exec_tick_answers s
  | den v => exact exec_den_answers v s
  | byteDone b => exact exec_byteDone_answers b s
  | tb => exact exec_tb_answers s
  -- an update that depends on a test
  | encode =>
    refine ⟨_, rfl, ?_⟩
    split
    · simp
    · split <;> simp
  | txSubmit => exact ⟨_, rfl, by split <;> simp⟩
  | rxRelease => exact ⟨_, rfl, by split <;> simp⟩
  | park => exact ⟨_, rfl, by split <;> simp⟩
  | wCtrl v => exact ⟨_, rfl, by split <;> simp⟩
  | wTxlen v => exact ⟨_, rfl, by split <;> simp⟩
  | wTxb k v => exact ⟨_, rfl, by split <;> simp⟩
  -- one update, or none
  | nop => exact ⟨_, rfl, rfl⟩
  | clrFlags => exact ⟨_, rfl, rfl⟩
  | reserved7 => exact ⟨_, rfl, rfl⟩
  | reservedHigh low => exact ⟨_, rfl, rfl⟩
  | wReadonly r v => exact ⟨_, rfl, rfl⟩
  | wRxb k v => exact ⟨_, rfl, rfl⟩
  | wUnmapped off v => exact ⟨_, rfl, rfl⟩
  | read loc => exact ⟨_, rfl, rfl⟩
  | reset => exact ⟨_, rfl, rfl⟩
  -- the classes of a received byte
  | rxSync x => exact exec_byteClass_answers .rxSync x s
  | rxUnexpected x => exact exec_byteClass_answers .rxUnexpected x s
  | rxBodyByte x => exact exec_byteClass_answers .rxBody x s
  | rxDrainByte x => exact exec_byteClass_answers .rxDrain x s
  | txGrant x => exact exec_byteClass_answers .txGrant x s
  | txCollision x => exact exec_byteClass_answers .txCollision x s
  | txUnexpected x => exact exec_byteClass_answers .txUnexpected x s
  | txDataByte x => exact exec_byteClass_answers .txData x s
  | stray x => exact exec_byteClass_answers .stray x s
  | norespByte x => exact exec_byteClass_answers .noresp x s

/-! ## The step -/

/-- A step with an event pending runs its instruction on the state without it (20_memory.md R95). -/
theorem step_of_decode {s : State} {e : Event} {rest : List Event} {i : Instr}
    (hl : s.cfg.legal = true) (hi : s.inbox = e :: rest) (hd : decode s.cfg e = .ok i) :
    step s = exec i { s with inbox := rest } := by
  simp [step, fetch, hl, hi, hd]

/-- Settles O8: the event decodes, and its instruction is answered on the state without the event. -/
theorem everyEventIsAnswered : Obligations.EveryEventIsAnswered := by
  intro s e rest hl hi ha
  obtain ⟨i, hd⟩ := decode_of_inAlphabet s.cfg ha
  obtain ⟨t, ht, hin⟩ := exec_answers i { s with inbox := rest }
  exact ⟨t, (step_of_decode hl hi hd).trans ht, hin⟩

end Sys2Proof.Machine

/-! PROOFS. What one instruction can do, said once: `Effect` lists the outcomes of every instruction that carries no
received byte, and `exec_cases` says that these and the byte transfers are all. -/

namespace Sys2Proof.Machine

/-- What an instruction that carries no received byte can do to the state `s`: one constructor, with its guards, for
each outcome a rule gives (20_memory.md R81 to R87; 43_protocol_tick.md R260 to R271; 44_host_commands.md R280 to R292;
60_exceptions.md R335; 70_reset_and_hazards.md R350). `unchanged` and `refused` do not say which instruction or when. -/
inductive Effect (s : State) : Instr → State → Prop
  /-- nothing changes -/
  | unchanged {i : Instr} : Effect s i s
  /-- the host's command or write is refused -/
  | refused {i : Instr} : Effect s i (s.setFlag .cmderr)
  | startRx (hq : s.seq = .idle) (hden : s.den = true) : Effect s .tick s.startRx
  | startTx (hq : s.seq = .idle) (hden : s.den = false) (hreq : s.txreq = true) : Effect s .tick s.startTx
  | abortReturn (hq : s.seq = .aborting) : Effect s .tick s.abortReturn
  | buildFrame (hreq : s.txreq = false) (hlen : s.encodeLen ≤ s.cfg.maxLength) :
    Effect s .encode (s.buildFrame s.encodeLen)
  | submit (hq : s.seq ≠ .noResponse) (hreq : s.txreq = false) (hlen : 3 ≤ s.txlen.toNat) :
    Effect s .txSubmit { s with txreq := true, txres := .pending, flags := { s.flags with txdone := false } }
  | release (hun : s.rxunread ≠ 0#10) :
    Effect s .rxRelease { s with rxrd := s.advance s.rxrd s.releaseStep, rxunread := s.rxunread - 1#10 }
  | clrFlags : Effect s .clrFlags { s with flags := Flags.clear, lasterr := .none }
  | park (hq : s.seq ≠ .noResponse) :
    Effect s .park (((s.parkTransmit.parkReception.clearInFlight).floatLines).goto .noResponse)
  | setLsbFirst (v : Word) (hq : s.seq = .idle) : Effect s (.wCtrl v) { s with lsbFirst := lsbField v }
  | setTxlen (v : Word) (hreq : s.txreq = false) (hlen : v.toNat ≤ s.cfg.txbufSize) :
    Effect s (.wTxlen v) { s with txlen := lenField v }
  | setTxb (k : Nat) (v : Word) (hreq : s.txreq = false) : Effect s (.wTxb k v) (s.setTxb k (byteField v))
  | read (loc : HostLoc) : Effect s (.read loc) { s with rdata := s.locWord loc }
  | setDen (v : Bool) (hv : v ≠ s.den) (hq : s.seq.quiet = true) : Effect s (.den v) (s.setDen v)
  | denGrant (hden : s.den = false) (hq : s.seq = .transmitting .txWaitDen) :
    Effect s (.den true) (State.requestByte { (s.setDen true).goto (.transmitting .txWaitCts) with tocnt := 0#16 })
  | accept (hden : s.den = true) (hq : s.seq = .receiving .rxFirst ∨ s.seq = .receiving .rxBody)
      (hv : s.judge.verdict = .ok) :
    Effect s (.den false)
      (State.goto .idle (State.acceptFrame { s.setDen false with reqOut := false, tocnt := 0#16 }))
  | reject (hden : s.den = true) (hq : s.seq = .receiving .rxFirst ∨ s.seq = .receiving .rxBody)
      (hv : s.judge.verdict ≠ .ok) :
    Effect s (.den false)
      (State.goto .idle (State.rejectFrame s.judge { s.setDen false with reqOut := false, tocnt := 0#16 }))
  | finishDrain (hden : s.den = true) (hq : s.seq = .receiving .rxDrain) :
    Effect s (.den false) (s.setDen false).finishDrain
  | linkDrop (hden : s.den = true) (hq : s.seq = .transmitting .txWaitCts ∨ s.seq = .transmitting .txData) :
    Effect s (.den false) ((s.setDen false).abort .txLinkDrop)
  | denLow (hden : s.den = true) (hq : s.seq = .transmitting .txWaitDenLow) :
    Effect s (.den false) (State.goto .idle { s.setDen false with tocnt := 0#16 })
  | countTb (hq : s.seq.quiet = false) (hto : (s.tocnt + 1#16).toNat ≠ s.cfg.tWait) : Effect s .tb s.countTb
  | rxTimeout (hq : s.seq.isReceiving = true) (hto : (s.tocnt + 1#16).toNat = s.cfg.tWait) :
    Effect s .tb (s.countTb.abort .rxTimeout)
  | txTimeout (hq : s.seq.isTransmitting = true) (hto : (s.tocnt + 1#16).toNat = s.cfg.tWait) :
    Effect s .tb (s.countTb.abort .txTimeout)
  | reset :
    Effect s .reset
      { State.powerOn s.cfg s.den with
        trace := s.trace, inbox := s.inbox, rdata := s.rdata, epoch := s.epoch + 1 }

/-- FINISH_RX by its verdict (41_receive.md R189). -/
theorem State.finishRx_cases (s : State) :
    (s.judge.verdict = .ok
      ∧ s.finishRx = State.goto .idle (State.acceptFrame { s with reqOut := false, tocnt := 0#16 }))
    ∨ (s.judge.verdict ≠ .ok
      ∧ s.finishRx = State.goto .idle (State.rejectFrame s.judge { s with reqOut := false, tocnt := 0#16 })) := by
  unfold State.finishRx
  split
  · next hv => exact .inl ⟨hv, rfl⟩
  · next hv => exact .inr ⟨hv, rfl⟩

theorem tick_effect {s t : State} (h : exec .tick s = .next t) : Effect s .tick t := by
  rcases tick_cases h with ⟨hq, hden, rfl⟩ | ⟨hq, hden, hreq, rfl⟩ | ⟨hq, rfl⟩ | ⟨-, rfl⟩
  · exact .startRx hq hden
  · exact .startTx hq hden hreq
  · exact .abortReturn hq
  · exact .unchanged

theorem den_effect {v : Bool} {s t : State} (h : exec (.den v) s = .next t) : Effect s (.den v) t := by
  rcases den_cases h with rfl | ⟨hv, ⟨hq, rfl⟩ | ⟨rfl, hq, rfl⟩ | ⟨rfl, hq, rfl⟩ | ⟨rfl, hq, rfl⟩ | ⟨rfl, hq, rfl⟩ |
    ⟨rfl, hq, rfl⟩⟩
  · exact .unchanged
  · exact .setDen v hv hq
  · exact .denGrant (by simpa using hv.symm) hq
  · have hden : s.den = true := by simpa using hv.symm
    rcases (s.setDen false).finishRx_cases with ⟨hok, he⟩ | ⟨hbad, he⟩
    · rw [he]; exact .accept hden hq hok
    · rw [he]; exact .reject hden hq hbad
  · exact .finishDrain (by simpa using hv.symm) hq
  · exact .linkDrop (by simpa using hv.symm) hq
  · exact .denLow (by simpa using hv.symm) hq

theorem tb_effect {s t : State} (h : exec .tb s = .next t) : Effect s .tb t := by
  rcases tb_cases h with ⟨-, rfl⟩ | ⟨hq, hto, rfl⟩ | ⟨hq, hto, rfl⟩ | ⟨hq, hto, rfl⟩
  · exact .unchanged
  · exact .countTb hq hto
  · exact .rxTimeout hq hto
  · exact .txTimeout hq hto

/-- An instruction does what its rule says, or it carries a received byte. -/
theorem exec_cases {i : Instr} {s t : State} (h : exec i s = .next t) :
    Effect s i t ∨ (∃ b, i = .byteDone b) ∨ ∃ (c : ByteClass) (x : Byte), i = c.instr x := by
  cases i with
  | tick => exact .inl (tick_effect h)
  | den v => exact .inl (den_effect h)
  | tb => exact .inl (tb_effect h)
  -- an update that depends on a test
  | encode =>
    obtain rfl := Host.Outcome.next.inj h
    left
    split
    · exact .refused
    · next hr =>
      split
      · exact .refused
      · next hl => exact .buildFrame (by simp_all) (by omega)
  | txSubmit =>
    obtain rfl := Host.Outcome.next.inj h
    left
    split
    · exact .refused
    · next hr => simp at hr; exact .submit hr.1.1 hr.1.2 hr.2
  | rxRelease =>
    obtain rfl := Host.Outcome.next.inj h
    left
    split
    · exact .refused
    · next hun => exact .release hun
  | park =>
    obtain rfl := Host.Outcome.next.inj h
    left
    split
    · exact .refused
    · next hq => exact .park hq
  | wCtrl v =>
    obtain rfl := Host.Outcome.next.inj h
    left
    split
    · next hq => exact .setLsbFirst v hq
    · exact .refused
  | wTxlen v =>
    obtain rfl := Host.Outcome.next.inj h
    left
    split
    · next hr => simp at hr; exact .setTxlen v hr.1 hr.2
    · exact .refused
  | wTxb k v =>
    obtain rfl := Host.Outcome.next.inj h
    left
    split
    · exact .refused
    · next hr => exact .setTxb k v (by simpa using hr)
  -- one update, or none
  | nop | wUnmapped _ _ => obtain rfl := Host.Outcome.next.inj h; exact .inl .unchanged
  | reserved7 | reservedHigh _ | wReadonly _ _ | wRxb _ _ =>
    obtain rfl := Host.Outcome.next.inj h; exact .inl .refused
  | clrFlags => obtain rfl := Host.Outcome.next.inj h; exact .inl .clrFlags
  | read loc => obtain rfl := Host.Outcome.next.inj h; exact .inl (.read loc)
  | reset => obtain rfl := Host.Outcome.next.inj h; exact .inl .reset
  -- a received byte
  | byteDone b => exact .inr (.inl ⟨b, rfl⟩)
  | rxSync x => exact .inr (.inr ⟨.rxSync, x, rfl⟩)
  | rxUnexpected x => exact .inr (.inr ⟨.rxUnexpected, x, rfl⟩)
  | rxBodyByte x => exact .inr (.inr ⟨.rxBody, x, rfl⟩)
  | rxDrainByte x => exact .inr (.inr ⟨.rxDrain, x, rfl⟩)
  | txGrant x => exact .inr (.inr ⟨.txGrant, x, rfl⟩)
  | txCollision x => exact .inr (.inr ⟨.txCollision, x, rfl⟩)
  | txUnexpected x => exact .inr (.inr ⟨.txUnexpected, x, rfl⟩)
  | txDataByte x => exact .inr (.inr ⟨.txData, x, rfl⟩)
  | stray x => exact .inr (.inr ⟨.stray, x, rfl⟩)
  | norespByte x => exact .inr (.inr ⟨.noresp, x, rfl⟩)

end Sys2Proof.Machine

/-! PROOFS. Every step keeps the control invariant (spec/10_state.md R60 items 1 to 6 and 9 to 12): what the invariant
says at a point of control, the entry into each kind of phase, and the invariant through every instruction. -/

namespace Sys2Proof

theorem SeqState.needsDen_of_quiet {q : SeqState} (h : q.quiet = true) : q.needsDen = false := by
  cases q with
  | receiving _ | transmitting _ => simp at h
  | idle | aborting | noResponse => rfl

/-- A PENDING result may stand in every phase but a transmit's own and NO_RESPONSE (R60 item 6). -/
theorem SeqState.mayPend_of_not_busyPhase {q : SeqState} (hb : q.busyPhase = false) (hn : q ≠ .noResponse) :
    q.mayPend = true := by
  cases q with
  | transmitting p => cases p <;> simp_all
  | noResponse => exact absurd rfl hn
  | idle | receiving _ | aborting => rfl

theorem SeqState.eq_receiving {q : SeqState} (h : q.isReceiving = true) : ∃ p, q = .receiving p := by
  cases q with
  | receiving p => exact ⟨p, rfl⟩
  | _ => simp at h

theorem SeqState.eq_transmitting {q : SeqState} (h : q.isTransmitting = true) : ∃ p, q = .transmitting p := by
  cases q with
  | transmitting p => exact ⟨p, rfl⟩
  | _ => simp at h

end Sys2Proof

namespace Sys2Proof.Machine

variable {s t : State}

/-! ## What the control invariant says at a point of control -/

theorem CtrlInv.tWait_pos (h : CtrlInv s) : 0 < s.cfg.tWait := by
  have := Params.legal_bounds h.legal
  omega

theorem CtrlInv.lines_driven (h : CtrlInv s) (hq : s.seq ≠ .noResponse) : s.linesFloat = false := by
  simpa using mt h.float.mp hq

theorem CtrlInv.not_busy (h : CtrlInv s) (hq : s.seq.busyPhase = false) : s.txres ≠ .busy := by
  simpa [hq] using h.busy

theorem CtrlInv.busy_of_phase (h : CtrlInv s) (hq : s.seq.busyPhase = true) : s.txres = .busy := h.busy.2 hq

/-- While a transmit is in progress TXREQ is 1 (R38, R60 item 5). -/
theorem CtrlInv.txreq_of_busyPhase (h : CtrlInv s) (hq : s.seq.busyPhase = true) : s.txreq = true := by
  simp [h.txreq, h.busy_of_phase hq]

/-- A wait is counted only while it is below its bound (R51, R335). -/
theorem CtrlInv.tocnt_succ (h : CtrlInv s) : (s.tocnt + 1#16).toNat = s.tocnt.toNat + 1 := by
  have := Params.legal_bounds h.legal
  have := h.tocnt
  rw [BitVec.toNat_add]
  simp
  omega

/-- A wait that goes on or starts again is below its bound. -/
theorem CtrlInv.tocnt_of (h : CtrlInv s) (hcfg : t.cfg = s.cfg) (htocnt : t.tocnt = s.tocnt ∨ t.tocnt = 0#16) :
    t.tocnt.toNat < t.cfg.tWait := by
  rcases htocnt with h0 | h0
  · rw [h0, hcfg]; exact h.tocnt
  · rw [h0, hcfg]; exact h.tWait_pos

/-! ## Entering a phase

The hypotheses about single registers are closed by the laws of the updates (Laws/State). -/

/-- The entry into IDLE from a phase with the lines driven and no transmit in progress, the in-flight registers clear. -/
theorem CtrlInv.enterIdle (h : CtrlInv s) (hb : s.seq.busyPhase = false) (hn : s.seq ≠ .noResponse)
    (hreq : t.reqOut = false) (htxout : t.txout = 0#8) (hcur : t.rxparse = t.rxwr) (hhrdy : t.hrdy = false)
    (htocnt : t.tocnt = 0#16) (hseq : t.seq = .idle := by simp) (hcfg : t.cfg = s.cfg := by simp)
    (hfloat : t.linesFloat = s.linesFloat := by simp) (hres : t.txres = s.txres := by simp)
    (htx : t.txreq = s.txreq := by simp) (hlen : t.txlen = s.txlen := by simp) : CtrlInv t where
  legal := by rw [hcfg]; exact h.legal
  quiet _ := ⟨hreq, htocnt, htxout⟩
  parse _ := hcur
  hrdy := by simp [hhrdy, hseq]
  busy := by simp [hres, hseq, h.not_busy hb]
  txreq := by rw [htx, hres]; exact h.txreq
  pending := by simp [hseq]
  float := by simp [hfloat, hseq, h.lines_driven hn]
  den := by simp [hseq]
  denLow := by simp [hseq]
  reqOut := by simp [hreq, hseq]
  txoutZero _ := htxout
  txoutData := by simp [hseq]
  txlen := by rw [hlen, hcfg]; exact h.txlen
  txlenOpen := by rw [htx, hlen]; exact h.txlenOpen
  tocnt := by rw [htocnt, hcfg]; exact h.tWait_pos

/-- A phase of a reception: a byte is requested, DEN is 1 and no transmit is in progress. -/
theorem CtrlInv.enterReceiving (h : CtrlInv s) (hn : s.seq ≠ .noResponse) (hden : s.den = true)
    (hrecv : t.seq.isReceiving = true) (htocnt : t.tocnt = s.tocnt ∨ t.tocnt = 0#16) (htxout : t.txout = 0#8)
    (hhrdy : t.hrdy = false) (hres : t.txres ≠ .busy) (htx : t.txreq = t.txres.isOpen)
    (hle : t.txreq = true → s.txreq = true) (hcfg : t.cfg = s.cfg := by simp) (hreq : t.reqOut = true := by simp)
    (hfloat : t.linesFloat = s.linesFloat := by simp) (hdent : t.den = s.den := by simp)
    (hlen : t.txlen = s.txlen := by simp) : CtrlInv t := by
  obtain ⟨p, hseq⟩ := SeqState.eq_receiving hrecv
  exact {
    legal := by rw [hcfg]; exact h.legal
    quiet := by simp [hseq]
    parse := by simp [hseq]
    hrdy := by simp [hhrdy, hseq]
    busy := by simp [hres, hseq]
    txreq := htx
    pending := by simp [hseq]
    float := by simp [hfloat, hseq, h.lines_driven hn]
    den := fun _ => hdent.trans hden
    denLow := by simp [hseq]
    reqOut := by simp [hreq, hseq]
    txoutZero := fun _ => htxout
    txoutData := by simp [hseq]
    txlen := by rw [hlen, hcfg]; exact h.txlen
    txlenOpen := fun ht => by rw [hlen]; exact h.txlenOpen (hle ht)
    tocnt := h.tocnt_of hcfg htocnt }

/-- A phase of a transmit in progress: the result is BUSY. -/
theorem CtrlInv.enterTransmitting (h : CtrlInv s) (hn : s.seq ≠ .noResponse) (hcur : s.rxparse = s.rxwr)
    (hopen : s.txreq = true) (hb : t.seq.busyPhase = true) (hres : t.txres = .busy)
    (hreq : t.reqOut = t.seq.requestsByte) (hhrdy : t.hrdy = t.seq.drivesHrdy) (hden : t.den = t.seq.needsDen)
    (htocnt : t.tocnt = s.tocnt ∨ t.tocnt = 0#16) (htxout : t.seq ≠ .transmitting .txData → t.txout = 0#8)
    (hdata : t.seq = .transmitting .txData → t.txout = t.txbByte t.txidx.toNat ∧ t.txidx.toNat < t.txlen.toNat)
    (hcfg : t.cfg = s.cfg := by simp) (hfloat : t.linesFloat = s.linesFloat := by simp)
    (hwr : t.rxwr = s.rxwr := by simp) (hpa : t.rxparse = s.rxparse := by simp)
    (htx : t.txreq = s.txreq := by simp) (hlen : t.txlen = s.txlen := by simp) : CtrlInv t := by
  obtain ⟨p, hseq⟩ := SeqState.eq_transmitting (SeqState.transmitting_of_busyPhase hb)
  exact {
    legal := by rw [hcfg]; exact h.legal
    quiet := by simp [hseq]
    parse := fun _ => by rw [hpa, hwr, hcur]
    hrdy := hhrdy
    busy := by simp [hres, hb]
    txreq := by simp [htx, hres, hopen]
    pending := by simp [hres]
    float := by simp [hfloat, hseq, h.lines_driven hn]
    den := hden.trans
    denLow := fun hd => by simp [hden, hd]
    reqOut := hreq
    txoutZero := htxout
    txoutData := hdata
    txlen := by rw [hlen, hcfg]; exact h.txlen
    txlenOpen := fun _ => by rw [hlen]; exact h.txlenOpen hopen
    tocnt := h.tocnt_of hcfg htocnt }

end Sys2Proof.Machine

namespace Sys2Proof.Machine

variable {s t : State}

/-! ## The control invariant through each instruction without a received byte -/

theorem CtrlInv.startRx (h : CtrlInv s) (hq : s.seq = .idle) (hden : s.den = true) : CtrlInv s.startRx :=
  h.enterReceiving (by simp [hq]) hden (by simp) (.inr (by simp)) (by simp [h.txoutZero, hq]) (by simp [h.hrdy, hq])
    (by simp [h.not_busy, hq]) (by simp [h.txreq]) (by simp)

theorem CtrlInv.startTx (h : CtrlInv s) (hq : s.seq = .idle) (hden : s.den = false) (hreq : s.txreq = true) :
    CtrlInv s.startTx :=
  h.enterTransmitting (by simp [hq]) (h.parse (by simp [hq])) hreq (by simp) (by simp) (by simp [h.reqOut, hq]) (by simp)
    (by simp [hden]) (.inr (by simp)) (by simp) (by simp)

theorem CtrlInv.abortReturn (h : CtrlInv s) (hq : s.seq = .aborting) : CtrlInv s.abortReturn := by
  obtain ⟨hreq, htocnt, htxout⟩ := h.quiet (by simp [hq])
  exact h.enterIdle (by simp [hq]) (by simp [hq]) hreq htxout (h.parse (by simp [hq])) (h.hrdy.trans (by simp [hq]))
    htocnt rfl rfl rfl rfl rfl rfl

/-- TXLEN is free while no transmit is requested (R43, R280). -/
theorem CtrlInv.setTxlen (h : CtrlInv s) (hreq : s.txreq = false) {n : BitVec 9} (hn : n.toNat ≤ s.cfg.txbufSize) :
    CtrlInv { s with txlen := n } :=
  { h with
    txoutData := fun hq => by simp [h.txreq_of_busyPhase (show s.seq.busyPhase = true by rw [hq]; rfl)] at hreq
    txlen := hn
    txlenOpen := fun ht => by simp [hreq] at ht }

/-- TXB is free while no transmit is requested (R82). -/
theorem CtrlInv.setTxb (h : CtrlInv s) (hreq : s.txreq = false) (k : Nat) (b : Byte) : CtrlInv (s.setTxb k b) :=
  h.of_eq rfl rfl rfl rfl rfl (.inr (.inl ⟨rfl, rfl⟩)) rfl rfl rfl rfl rfl (.inr hreq) rfl rfl rfl

theorem CtrlInv.buildFrame (h : CtrlInv s) (hreq : s.txreq = false) {len : Nat} (hlen : len ≤ s.cfg.maxLength) :
    CtrlInv (s.buildFrame len) := by
  refine CtrlInv.setTxlen (s := State.setTxb _ _ (State.setTxb _ _ s)) ((h.setTxb hreq _ _).setTxb hreq _ _) hreq ?_
  have := Params.legal_bounds h.legal
  simp [Params.txbufSize]
  omega

theorem CtrlInv.submit (h : CtrlInv s) (hq : s.seq ≠ .noResponse) (hreq : s.txreq = false) (hlen : 3 ≤ s.txlen.toNat)
    (fl : Flags) : CtrlInv { s with txreq := true, txres := .pending, flags := fl } := by
  have hb : s.seq.busyPhase = false := by
    by_contra hb
    simp [h.txreq_of_busyPhase (by simpa using hb)] at hreq
  exact { h with
    busy := by simp [hb]
    txreq := rfl
    pending := fun _ => SeqState.mayPend_of_not_busyPhase hb hq
    txlenOpen := fun _ => hlen }

/-- PARK drops a partial frame, ends a transmit and floats the lines (R266). -/
theorem CtrlInv.park (h : CtrlInv s) :
    CtrlInv (((s.parkTransmit.parkReception.clearInFlight).floatLines).goto .noResponse) where
  legal := h.legal
  quiet := by simp
  parse _ := by
    cases hr : s.seq.isReceiving with
    | true => simp [hr]
    | false => simpa [hr] using h.parse hr
  hrdy := by simp
  busy := by cases hr : s.txres <;> simp [hr]
  txreq := by cases hr : s.txres <;> simp [hr]
  pending := by cases hr : s.txres <;> simp [hr]
  float := by simp
  den := by simp
  denLow := by simp
  reqOut := by simp
  txoutZero := by simp
  txoutData := by simp
  txlen := h.txlen
  txlenOpen := by simp
  tocnt := h.tWait_pos

theorem CtrlInv.setDen (h : CtrlInv s) (hq : s.seq.quiet = true) (v : Bool) : CtrlInv (s.setDen v) :=
  { h with
    den := fun hn => by simp [SeqState.needsDen_of_quiet hq] at hn
    denLow := fun hw => by
      rw [State.setDen_seq] at hw
      simp [hw] at hq }

/-- The rise of DEN in TX_WAIT_DEN (R222). -/
theorem CtrlInv.denGrant (h : CtrlInv s) (hq : s.seq = .transmitting .txWaitDen) :
    CtrlInv (State.requestByte { (s.setDen true).goto (.transmitting .txWaitCts) with tocnt := 0#16 }) :=
  h.enterTransmitting (by simp [hq]) (h.parse (by simp [hq])) (h.txreq_of_busyPhase (by simp [hq])) (by simp)
    (by simp [h.busy_of_phase, hq]) (by simp) (by simp [h.hrdy, hq]) (by simp) (.inr (by simp))
    (by simp [h.txoutZero, hq]) (by simp)

/-- A reception that ends in IDLE with the parse cursor at the write cursor (R189, R192). -/
theorem CtrlInv.endReception (h : CtrlInv s) (hq : s.seq.isReceiving = true) (hcur : t.rxparse = t.rxwr)
    (hseq : t.seq = .idle := by simp) (hcfg : t.cfg = s.cfg := by simp) (hreq : t.reqOut = false := by simp)
    (htocnt : t.tocnt = 0#16 := by simp) (htxout : t.txout = s.txout := by simp) (hhrdy : t.hrdy = s.hrdy := by simp)
    (hfloat : t.linesFloat = s.linesFloat := by simp) (hres : t.txres = s.txres := by simp)
    (htx : t.txreq = s.txreq := by simp) (hlen : t.txlen = s.txlen := by simp) : CtrlInv t := by
  obtain ⟨p, hp⟩ := SeqState.eq_receiving hq
  exact h.enterIdle (by simp [hp]) (by simp [hp]) hreq (htxout.trans (h.txoutZero (by simp [hp]))) hcur
    (by simp [hhrdy, h.hrdy, hp]) htocnt hseq hcfg hfloat hres htx hlen

/-- The fall of DEN in TX_WAIT_DEN_LOW (R233). -/
theorem CtrlInv.denLowReached (h : CtrlInv s) (hq : s.seq = .transmitting .txWaitDenLow) :
    CtrlInv (State.goto .idle { s.setDen false with tocnt := 0#16 }) :=
  h.enterIdle (by simp [hq]) (by simp [hq]) (by simp [h.reqOut, hq]) (by simp [h.txoutZero, hq])
    (by simp [h.parse, hq]) (by simp [h.hrdy, hq]) (by simp)

/-- A TB below the bound of the wait (R335). -/
theorem CtrlInv.countTb (h : CtrlInv s) (hq : s.seq.quiet = false) (hto : (s.tocnt + 1#16).toNat ≠ s.cfg.tWait) :
    CtrlInv s.countTb :=
  { h with
    quiet := fun hquiet => by simp [hq] at hquiet
    tocnt := by
      have hlt := h.tocnt
      rw [h.tocnt_succ] at hto
      rw [State.countTb_tocnt, State.countTb_cfg, h.tocnt_succ]
      omega }

/-- A machine after power-on has the control invariant (70_reset_and_hazards.md R350). -/
theorem CtrlInv.powerOn {p : Params} (hl : p.legal = true) (denInit : Bool) : CtrlInv (State.powerOn p denInit) where
  legal := hl
  quiet _ := ⟨rfl, rfl, rfl⟩
  parse _ := rfl
  hrdy := rfl
  busy := by simp [State.powerOn]
  txreq := rfl
  pending := by simp [State.powerOn]
  float := by simp [State.powerOn]
  den := by simp [State.powerOn]
  denLow := by simp [State.powerOn]
  reqOut := rfl
  txoutZero _ := rfl
  txoutData := by simp [State.powerOn]
  txlen := Nat.zero_le _
  txlenOpen := by simp [State.powerOn]
  tocnt := by
    have := Params.legal_bounds hl
    simp [State.powerOn]
    omega

/-- Every instruction without a received byte keeps the control invariant. -/
theorem Effect.ctrl {i : Instr} (h : CtrlInv s) (he : Effect s i t) : CtrlInv t := by
  cases he with
  | unchanged => exact h
  | refused | clrFlags | setLsbFirst _ _ | read _ | release _ => exact { h with }
  | startRx hq hden => exact h.startRx hq hden
  | startTx hq hden hreq => exact h.startTx hq hden hreq
  | abortReturn hq => exact h.abortReturn hq
  | buildFrame hreq hlen => exact h.buildFrame hreq hlen
  | submit hq hreq hlen => exact h.submit hq hreq hlen _
  | park _ => exact h.park
  | setTxlen v hreq hlen =>
    refine h.setTxlen hreq (Nat.le_trans ?_ hlen)
    simpa [lenField] using Nat.mod_le _ _
  | setTxb k v hreq => exact h.setTxb hreq k _
  | setDen v _ hq => exact h.setDen hq v
  | denGrant _ hq => exact h.denGrant hq
  | accept _ hq _ | reject _ hq _ => exact h.endReception (by rcases hq with hq | hq <;> simp [hq]) (by simp)
  | finishDrain _ hq => exact h.endReception (by simp [hq]) (by simp)
  | linkDrop _ hq =>
    refine h.abort .txLinkDrop (.inr ⟨?_, by simp⟩) ?_ ?_ ?_ ?_ ?_
    · rcases hq with hq | hq <;> simp [hq]
    all_goals simp
  | denLow _ hq => exact h.denLowReached hq
  | countTb hq hto => exact h.countTb hq hto
  | rxTimeout hq _ => exact h.abort .rxTimeout (.inl ⟨hq, rfl⟩) rfl rfl rfl rfl rfl
  | txTimeout hq _ => exact h.abort .txTimeout (.inr ⟨hq, by simp⟩) rfl rfl rfl rfl rfl
  | reset => exact { CtrlInv.powerOn h.legal s.den with txoutData := fun hq => by simp [State.powerOn] at hq }

/-! ## The control invariant through a byte transfer -/

/-- A byte of a reception in progress leads to a phase of the reception (R183 to R186). -/
theorem CtrlInv.stayReceiving (h : CtrlInv s) {p : RxPhase} (hq : s.seq = .receiving p)
    (hrecv : t.seq.isReceiving = true) (hcfg : t.cfg = s.cfg := by simp) (hreq : t.reqOut = true := by simp)
    (htocnt : t.tocnt = s.tocnt := by simp) (htxout : t.txout = s.txout := by simp) (hhrdy : t.hrdy = s.hrdy := by simp)
    (hfloat : t.linesFloat = s.linesFloat := by simp) (hden : t.den = s.den := by simp)
    (hres : t.txres = s.txres := by simp) (htx : t.txreq = s.txreq := by simp) (hlen : t.txlen = s.txlen := by simp) :
    CtrlInv t :=
  h.enterReceiving (by simp [hq]) (h.den (by simp [hq])) hrecv (.inl htocnt)
    (htxout.trans (h.txoutZero (by simp [hq]))) (by simp [hhrdy, h.hrdy, hq])
    (by simp [hres, h.not_busy, hq]) (by rw [htx, hres]; exact h.txreq) (by simp [htx]) hcfg hreq hfloat hden hlen

/-- The first byte of a grant other than CTS turns the transmit into a reception (R227, R228). -/
theorem CtrlInv.grantToReception (h : CtrlInv s) (hq : s.seq = .transmitting .txWaitCts)
    (hclosed : t.txres.isOpen = false) (hrecv : t.seq.isReceiving = true := by simp) (hcfg : t.cfg = s.cfg := by simp)
    (hreq : t.reqOut = true := by simp) (htocnt : t.tocnt = 0#16 := by simp) (htxout : t.txout = s.txout := by simp)
    (hhrdy : t.hrdy = false := by simp) (hfloat : t.linesFloat = s.linesFloat := by simp)
    (hden : t.den = s.den := by simp) (htx : t.txreq = false := by simp) (hlen : t.txlen = s.txlen := by simp) :
    CtrlInv t :=
  h.enterReceiving (by simp [hq]) (h.den (by simp [hq])) hrecv (.inr htocnt)
    (htxout.trans (h.txoutZero (by simp [hq]))) hhrdy (by rintro hb; simp [hb] at hclosed) (htx.trans hclosed.symm)
    (by simp [htx]) hcfg hreq hfloat hden hlen

/-- The grant byte puts TXB[0] out; an accepted frame has at least 3 bytes (R225). -/
theorem CtrlInv.txGrant (h : CtrlInv s) (hq : s.seq = .transmitting .txWaitCts) (b x : Byte)
    (ht : exec (.txGrant x) (s.takeByte b) = .next t) : CtrlInv t := by
  obtain rfl := Host.Outcome.next.inj ht
  have hopen := h.txreq_of_busyPhase (by simp [hq])
  have hlen := h.txlenOpen hopen
  refine h.enterTransmitting (by simp [hq]) (h.parse (by simp [hq])) hopen (by simp) (by simp [h.busy_of_phase, hq])
    (by simp) (by simp) (by simp [h.den, hq]) (.inr (by simp)) (by simp) (fun _ => ⟨?_, ?_⟩)
  · simp [State.txbByte]
  · simp
    omega

/-- The end of the data phase: the transmit is complete and waits for DEN to fall (R231). -/
theorem CtrlInv.lastByteDone (h : CtrlInv s) (hq : s.seq = .transmitting .txData) (hreq : t.reqOut = false)
    (hcfg : t.cfg = s.cfg) (hwr : t.rxwr = s.rxwr) (hpa : t.rxparse = s.rxparse) (hhrdy : t.hrdy = s.hrdy)
    (hfloat : t.linesFloat = s.linesFloat) (hden : t.den = s.den) (hlen : t.txlen = s.txlen) :
    CtrlInv t.lastByteDone where
  legal := hcfg ▸ h.legal
  quiet := by simp
  parse _ := by simpa [hwr, hpa] using h.parse (by simp [hq])
  hrdy := by simp [hhrdy, h.hrdy, hq]
  busy := by simp
  txreq := by simp
  pending := by simp
  float := by simp [hfloat, h.lines_driven, hq]
  den _ := hden.trans (h.den (by simp [hq]))
  denLow := by simp
  reqOut := by simp [hreq]
  txoutZero := by simp
  txoutData := by simp
  txlen := by simpa [hlen, hcfg] using h.txlen
  txlenOpen := by simp
  tocnt := by simpa [hcfg] using h.tWait_pos

/-- A byte of the data phase puts the next byte of TXB out, or ends the transmit after the last (R230, R231). -/
theorem CtrlInv.txDataByte (h : CtrlInv s) (hq : s.seq = .transmitting .txData) (b x : Byte)
    (ht : exec (.txDataByte x) (s.takeByte b) = .next t) : CtrlInv t := by
  obtain rfl := Host.Outcome.next.inj ht
  split
  · next hlt =>
    exact h.enterTransmitting (by simp [hq]) (h.parse (by simp [hq])) (h.txreq_of_busyPhase (by simp [hq]))
      (by simp [hq]) (by simp [h.busy_of_phase, hq]) (by simp [hq]) (by simp [h.hrdy, hq]) (by simp [h.den, hq])
      (.inl (by simp)) (by simp [hq]) (fun _ => ⟨by simp [State.txbByte], by simpa [BitVec.lt_def] using hlt⟩)
  · refine h.lastByteDone hq ?_ ?_ ?_ ?_ ?_ ?_ ?_ ?_ <;> simp

/-- Every byte transfer keeps the control invariant. -/
theorem CtrlInv.byteDone (h : CtrlInv s) {b : Byte} (ht : exec (.byteDone b) s = .next t) : CtrlInv t := by
  rcases byteDone_cases ht with ⟨rfl, -⟩ | ⟨-, -, hx⟩ | ⟨-, hq, -, hx⟩ | ⟨-, hq, -, hx⟩ | ⟨-, hq, hx⟩ | ⟨-, hq, hx⟩ |
    ⟨-, hq, -, hx⟩ | ⟨-, hq, -, -, hx⟩ | ⟨-, hq, -, -, hx⟩ | ⟨-, hq, hx⟩
  -- ignored
  · exact h
  -- STRAY
  · obtain rfl := Host.Outcome.next.inj hx
    exact { h with }
  -- RX_SYNC
  · obtain rfl := Host.Outcome.next.inj hx
    exact h.stayReceiving hq (by simp)
  -- RX_UNEXPECTED
  · obtain rfl := Host.Outcome.next.inj hx
    exact h.stayReceiving hq (by simp)
  -- RX_BODY_BYTE
  · obtain rfl := Host.Outcome.next.inj hx
    exact h.stayReceiving hq (by simp [hq])
  -- RX_DRAIN_BYTE
  · obtain rfl := Host.Outcome.next.inj hx
    exact h.stayReceiving hq (by simp [hq])
  -- TX_GRANT
  · exact h.txGrant hq b _ hx
  -- TX_COLLISION
  · obtain rfl := Host.Outcome.next.inj hx
    exact h.grantToReception hq (by simp)
  -- TX_UNEXPECTED
  · obtain rfl := Host.Outcome.next.inj hx
    exact h.grantToReception hq (by simp)
  -- TX_DATA_BYTE
  · exact h.txDataByte hq b _ hx

/-! ## The step -/

/-- An event that the decoder reads runs an instruction whose outcomes `Effect` lists, or it is a byte transfer. -/
theorem exec_decoded_cases {p : Params} {e : Event} {i : Instr} (hd : decode p e = .ok i) (hx : exec i s = .next t) :
    Effect s i t ∨ ∃ b, exec (.byteDone b) s = .next t := by
  rcases exec_cases hx with he | ⟨b, rfl⟩ | ⟨c, x, rfl⟩
  · exact .inl he
  · exact .inr ⟨b, hx⟩
  · have := decode_no_byteContext hd
    cases c <;> simp [ByteClass.instr, byteContext] at this

/-- Settles O11: the instruction of the step's event keeps the invariant, which does not read the pending events. -/
theorem stepKeepsControl : Obligations.StepKeepsControl := by
  intro s t h hstep
  rcases step_next_cases hstep with ⟨-, ⟨-, rfl⟩ | ⟨e, rest, i, -, hd, hx⟩⟩
  · exact h
  · have hu : CtrlInv { s with inbox := rest } := { h with }
    rcases exec_decoded_cases hd hx with he | ⟨b, hb⟩
    · exact he.ctrl hu
    · exact hu.byteDone hb

end Sys2Proof.Machine

/-! PROOFS. Every step keeps the ring invariant (spec/10_state.md R60 items 7 and 8), given the control invariant: the
cursors' moves through every instruction, by the laws of Laws/RingInv. -/

namespace Sys2Proof.Machine

variable {s t : State}

/-! ## The ring invariant through each instruction without a received byte -/

/-- Outside a reception no byte of a frame in progress is stored. -/
theorem CtrlInv.partialSpan_zero (hc : CtrlInv s) (h : RingCursors s) (hq : s.seq.isReceiving = false) :
    s.partialSpan = 0 := by
  rw [State.partialSpan, hc.parse hq, ringDist_self h.wr]

/-- A reception starts with nothing stored and nothing counted (R261). -/
theorem RingInv.startRx (h : RingInv s) (hc : CtrlInv s) (hq : s.seq = .idle) : RingInv s.startRx :=
  RingInv.mk (h.toRingCursors.of_eq rfl rfl rfl rfl rfl rfl rfl)
    { first := fun _ => ⟨by simpa using (hc.parse (by simp [hq])).symm, by simp, by simp⟩
      body := by simp
      drain := by simp }

/-- PARK from any phase: outside a reception the partial frame is empty (R266). -/
theorem RingInv.parked (h : RingInv s) (hc : CtrlInv s) :
    RingInv (((s.parkTransmit.parkReception.clearInFlight).floatLines).goto .noResponse) := by
  have hwr : (if s.seq.isReceiving then s.rxparse else s.rxwr) = s.rxparse := by
    cases hr : s.seq.isReceiving with
    | true => rfl
    | false => simp [hc.parse hr]
  refine h.park ?_ ?_ ?_ ?_ ?_ ?_ ?_ ?_ <;> simp [hwr]

/-- A step that ends in RESYNC: the ring is empty afterwards (R191, R192, R320). -/
theorem RingInv.resynced (h : RingInv s) (hcfg : t.cfg = s.cfg := by simp) (hpa : t.rxparse = t.rxwr := by simp)
    (hrd : t.rxrd = t.rxwr := by simp) (hun : t.rxunread = 0#10 := by simp) (hwr : t.rxwr = s.rxwr := by simp)
    (hq : t.seq.isReceiving = false := by simp) : RingInv t :=
  RingInv.of_resync hpa hrd hun (by rw [hwr, hcfg]; exact h.wr) hq

/-- After RESET every cursor is 0 (70_reset_and_hazards.md R350). -/
theorem RingInv.cursorsZero (hl : t.cfg.legal = true) (hwr : t.rxwr = 0#10) (hpa : t.rxparse = 0#10)
    (hrd : t.rxrd = 0#10) (hun : t.rxunread = 0#10) (hq : t.seq = .idle) : RingInv t := by
  have := Params.legal_bounds hl
  refine RingInv.of_resync (hpa.trans hwr.symm) (hrd.trans hwr.symm) hun ?_ (by simp [hq])
  simp [hwr]
  omega

/-- Every instruction without a received byte keeps the ring invariant. -/
theorem Effect.ring {i : Instr} (hc : CtrlInv s) (h : RingInv s) (he : Effect s i t) : RingInv t := by
  cases he with
  | unchanged => exact h
  | startRx hq _ => exact h.startRx hc hq
  | release hun => exact h.release hc.legal hun rfl rfl rfl rfl rfl rfl rfl rfl rfl rfl
  | park _ => exact h.parked hc
  | accept _ hq hv => refine h.accept hc.legal hq hv ?_ ?_ ?_ ?_ ?_ ?_ ?_ ?_ <;> simp
  | reject _ _ _ | finishDrain _ _ | linkDrop _ _ | rxTimeout _ _ | txTimeout _ _ => exact h.resynced
  | reset => exact RingInv.cursorsZero hc.legal rfl rfl rfl rfl rfl
  -- the ring and the reception in progress stay
  | refused | buildFrame _ _ | submit _ _ _ | clrFlags | setLsbFirst _ _ | setTxlen _ _ _ | setTxb _ _ _ | read _
  | setDen _ _ _ | countTb _ _ => exact h.of_eq rfl rfl rfl rfl rfl rfl rfl (.inr ⟨rfl, rfl, rfl⟩)
  -- the ring stays and no reception is in progress
  | startTx _ _ _ | abortReturn _ | denGrant _ _ | denLow _ _ =>
    exact h.of_eq rfl rfl rfl rfl rfl rfl rfl (.inl rfl)

/-! ## The ring invariant through a byte transfer -/

/-- A drain stores nothing, so the cursors stay where they are (R184, R185, R228). -/
theorem RingCursors.draining (h : RingCursors s) (hcur : s.rxwr = s.rxparse)
    (hq : t.seq = .receiving .rxDrain := by simp) (hc : t.cfg = s.cfg := by simp) (hb : t.rxb = s.rxb := by simp)
    (he : t.epoch = s.epoch := by simp) (hwr : t.rxwr = s.rxwr := by simp) (hpa : t.rxparse = s.rxparse := by simp)
    (hrd : t.rxrd = s.rxrd := by simp) (hun : t.rxunread = s.rxunread := by simp) : RingInv t :=
  RingInv.mk (h.of_eq hc hb he hwr hpa hrd hun)
    { first := by simp [hq]
      body := by simp [hq]
      drain := fun _ => by rw [hwr, hpa, hcur] }

/-- SYNC is stored as the first byte of a reception that has stored none (R183, R227). -/
theorem RingCursors.storeFirst (h : RingCursors s) (hl : s.cfg.legal = true) (hn : s.rxcnt = 0#16)
    (hp : s.partialSpan = 0) {x : Byte} (hx : x = s.cfg.syncByte) :
    RingInv ((s.ringPut x).goto (.receiving .rxBody)).requestByte := by
  refine RingInv.store hl h x (fun _ => ⟨by simp [hp, hn], .inl ⟨hn, hx⟩⟩) ?_ ?_ ?_ ?_ ?_ ?_ ?_ ?_ ?_ ?_ <;> simp

/-- A body byte is stored behind the ones before it (R186). -/
theorem RingInv.storeBody (h : RingInv s) (hl : s.cfg.legal = true) (hq : s.seq = .receiving .rxBody) (x : Byte) :
    RingInv (s.ringPut x).requestByte := by
  have hstored (hov : s.ovfCur = false) : s.partialSpan = s.rxcnt.toNat ∧
      ((s.rxcnt = 0#16 ∧ x = s.cfg.syncByte) ∨
        (1 ≤ s.rxcnt.toNat ∧ s.frameByte s.rxparse.toNat 0 = s.cfg.syncByte)) := by
    obtain ⟨hspan, hpos, hsync⟩ := h.body hq hov
    exact ⟨hspan, .inr ⟨hpos, hsync⟩⟩
  refine RingInv.store hl h.toRingCursors x hstored ?_ ?_ ?_ ?_ ?_ ?_ ?_ ?_ ?_ ?_ <;> simp [hq]

/-- Taking a byte from the link leaves the ring alone. -/
theorem RingInv.takeByte (h : RingInv s) (b : Byte) : RingInv (s.takeByte b) :=
  h.of_eq rfl rfl rfl rfl rfl rfl rfl (.inr ⟨rfl, rfl, rfl⟩)

/-- The SYNC byte of a grant goes into the ring as the first byte of a reception that starts with it (R227). -/
theorem RingCursors.txCollision (h : RingCursors s) (hl : s.cfg.legal = true) (hp : s.partialSpan = 0) {x : Byte}
    (hx : x = s.cfg.syncByte) (ht : exec (.txCollision x) s = .next t) : RingInv t := by
  obtain rfl := Host.Outcome.next.inj ht
  have hr : RingCursors (((s.setHrdy false).endTransmit .retry).noteCollision.beginReception) :=
    h.of_eq rfl rfl rfl rfl rfl rfl rfl
  exact hr.storeFirst hl rfl hp hx

/-- Every byte transfer keeps the ring invariant. -/
theorem RingInv.byteDone (h : RingInv s) (hc : CtrlInv s) {b : Byte} (ht : exec (.byteDone b) s = .next t) :
    RingInv t := by
  have hu := h.takeByte b
  have hl : (s.takeByte b).cfg.legal = true := hc.legal
  rcases byteDone_cases ht with ⟨rfl, -⟩ | ⟨-, -, hx⟩ | ⟨-, hq, hsync, hx⟩ | ⟨-, hq, -, hx⟩ | ⟨-, hq, hx⟩ | ⟨-, hq, hx⟩ |
    ⟨-, hq, -, hx⟩ | ⟨-, hq, -, hsync, hx⟩ | ⟨-, hq, -, -, hx⟩ | ⟨-, hq, hx⟩
  -- ignored
  · exact h
  -- STRAY
  · obtain rfl := Host.Outcome.next.inj hx
    exact h.of_eq rfl rfl rfl rfl rfl rfl rfl (.inr ⟨rfl, rfl, rfl⟩)
  -- RX_SYNC
  · obtain rfl := Host.Outcome.next.inj hx
    obtain ⟨hcur, hn, -⟩ := h.first hq
    exact hu.toRingCursors.storeFirst hl hn (by simp [State.partialSpan, hcur, ringDist_self h.parse]) hsync
  -- RX_UNEXPECTED
  · obtain rfl := Host.Outcome.next.inj hx
    obtain ⟨hcur, -, -⟩ := h.first hq
    exact h.toRingCursors.draining hcur
  -- RX_BODY_BYTE
  · obtain rfl := Host.Outcome.next.inj hx
    exact hu.storeBody hl hq _
  -- RX_DRAIN_BYTE
  · obtain rfl := Host.Outcome.next.inj hx
    exact h.toRingCursors.draining (h.drain hq) (by simp [hq])
  -- TX_GRANT
  · obtain rfl := Host.Outcome.next.inj hx
    refine h.of_eq ?_ ?_ ?_ ?_ ?_ ?_ ?_ (.inl ?_) <;> simp
  -- TX_COLLISION
  · exact hu.toRingCursors.txCollision hl (hc.partialSpan_zero h.toRingCursors (by simp [hq])) hsync hx
  -- TX_UNEXPECTED
  · obtain rfl := Host.Outcome.next.inj hx
    exact h.toRingCursors.draining (hc.parse (by simp [hq])).symm
  -- TX_DATA_BYTE
  · obtain rfl := Host.Outcome.next.inj hx
    split
    · refine h.of_eq ?_ ?_ ?_ ?_ ?_ ?_ ?_ (.inl ?_) <;> simp [hq]
    · refine h.of_eq ?_ ?_ ?_ ?_ ?_ ?_ ?_ (.inl ?_) <;> simp

/-- Settles O12: the control invariant puts the cursors where the ring invariant needs them. -/
theorem stepKeepsRing : Obligations.StepKeepsRing := by
  intro s t hc h hstep
  rcases step_next_cases hstep with ⟨-, ⟨-, rfl⟩ | ⟨e, rest, i, -, hd, hx⟩⟩
  · exact h
  · have hcu : CtrlInv { s with inbox := rest } := { hc with }
    have hu : RingInv { s with inbox := rest } := h.of_eq rfl rfl rfl rfl rfl rfl rfl (.inr ⟨rfl, rfl, rfl⟩)
    rcases exec_decoded_cases hd hx with he | ⟨b, hb⟩
    · exact he.ring hcu hu
    · exact hu.byteDone hcu hb

end Sys2Proof.Machine

/-! PROOFS. Every step keeps both buffers canonical and inside their size (spec/10_state.md R59): who writes TXB and RXB,
and at which index. -/

namespace Sys2Proof

theorem locate_txb_lt {p : Params} {off : Offset} {k : Nat} (h : locate p off = .txb k) : k < p.txbufSize := by
  by_cases hreg : ∃ r : Reg, r.offset = off
  · obtain ⟨r, rfl⟩ := hreg
    simp at h
  · rw [locate_not_reg (by simpa using hreg)] at h
    split at h
    · simp at h
      omega
    · split at h <;> simp at h

/-- A host write that decodes to a TXB write selects a word of the window (20_memory.md R81, R82). -/
theorem decode_wTxb_lt {p : Params} {e : Event} {k : Nat} {v : Word} (h : decode p e = .ok (.wTxb k v)) :
    k < p.txbufSize := by
  cases e with
  | hostWrite w off v' =>
    simp only [decode] at h
    split at h
    · simp at h
    · simp only [Decoded.ok.injEq, decodeWrite] at h
      split at h <;> try simp at h
      · unfold decodeCommand at h
        split at h <;> simp at h
      · next hloc => exact h.1 ▸ locate_txb_lt hloc
  | hostRead w off =>
    simp only [decode] at h
    split at h <;> simp at h
  | den _ | byteDone _ | tb | reset => simp [decode] at h

namespace Machine

variable {s t : State}

/-! ## Writes to the buffers -/

/-- A write inside the size keeps a buffer canonical and inside its size. -/
theorem Memory.put_inside {m : Memory} {n k : Nat} (b : Byte) (hk : k < n)
    (h : Memory.wf m = true ∧ ∀ i, n ≤ i → Memory.get m i = none) :
    Memory.wf (Memory.put m k b) = true ∧ ∀ i, n ≤ i → Memory.get (Memory.put m k b) i = none := by
  refine ⟨Memory.wf_put m k b h.1, fun i hi => ?_⟩
  rw [Memory.get_put_other m b (by omega)]
  exact h.2 i hi

theorem MemInv.of_eq (h : MemInv s) (hcfg : t.cfg = s.cfg := by simp) (htxb : t.txb = s.txb := by simp)
    (hrxb : t.rxb = s.rxb := by simp) : MemInv t where
  txb := by rw [htxb]; exact h.txb
  rxb := by rw [hrxb]; exact h.rxb
  txbSize := by rw [htxb, hcfg]; exact h.txbSize
  rxbSize := by rw [hrxb, hcfg]; exact h.rxbSize

theorem MemInv.setTxb (h : MemInv s) {k : Nat} (hk : k < s.cfg.txbufSize) (b : Byte) : MemInv (s.setTxb k b) :=
  have hput := Memory.put_inside b hk ⟨h.txb, h.txbSize⟩
  { h with txb := hput.1, txbSize := hput.2 }

theorem MemInv.setRxb (h : MemInv s) {k : Nat} (hk : k < s.cfg.rxbufSize) (b : Byte) : MemInv (s.setRxb k b) :=
  have hput := Memory.put_inside b hk ⟨h.rxb, h.rxbSize⟩
  { h with rxb := hput.1, rxbSize := hput.2 }

/-- ENCODE writes the first and the last byte of the frame (40_codec.md R160). -/
theorem MemInv.buildFrame (h : MemInv s) {len : Nat} (hlen : len ≤ s.cfg.maxLength) : MemInv (s.buildFrame len) := by
  have h0 : MemInv (s.setTxb 0 s.cfg.syncByte) := h.setTxb (by simp [Params.txbufSize]) _
  exact { h0.setTxb (k := len + 2) (by simp [Params.txbufSize]; omega) _ with }

/-! ## The buffers through every instruction -/

/-- Every instruction without a received byte keeps the buffers' form, given that a TXB write is one of the window. -/
theorem Effect.mem {i : Instr} (h : MemInv s) (hw : ∀ k v, i = .wTxb k v → k < s.cfg.txbufSize) (he : Effect s i t) :
    MemInv t := by
  cases he with
  | unchanged => exact h
  | buildFrame _ hlen => exact h.buildFrame hlen
  | setTxb k v _ => exact h.setTxb (hw k v rfl) _
  | reset => exact ⟨rfl, rfl, fun _ _ => rfl, fun _ _ => rfl⟩
  -- neither buffer is written
  | abortReturn _ => exact h.of_eq rfl rfl rfl
  | _ => exact h.of_eq

/-- RING_PUT stores the byte at RXWR or drops it (20_memory.md R92). -/
theorem State.ringPut_stores_or_drops (x : Byte) (s : State) :
    (s.ringPut x).rxb = s.rxb ∨ (s.ringPut x).rxb = Memory.put s.rxb s.rxwr.toNat x := by
  rw [State.ringPut_rxb]
  split
  · exact .inl rfl
  · exact .inr rfl

/-- The row of a received byte can write the byte at RXWR and nothing else of the buffers. -/
theorem exec_byteClass_memory {c : ByteClass} {x : Byte} (ht : exec (c.instr x) s = .next t) :
    t.cfg = s.cfg ∧ t.txb = s.txb ∧ (t.rxb = s.rxb ∨ t.rxb = Memory.put s.rxb s.rxwr.toNat x) := by
  cases c with
  | rxSync | rxBody =>
    obtain rfl := Host.Outcome.next.inj ht
    simpa using State.ringPut_stores_or_drops x s
  | txCollision =>
    obtain rfl := Host.Outcome.next.inj ht
    simpa using State.ringPut_stores_or_drops x
      (((s.setHrdy false).endTransmit .retry).noteCollision.beginReception)
  | txData =>
    obtain rfl := Host.Outcome.next.inj ht
    split <;> simp
  | rxUnexpected | rxDrain | txGrant | txUnexpected | stray | noresp =>
    obtain rfl := Host.Outcome.next.inj ht
    simp

/-- A BYTE_DONE changes nothing, or runs the row of its class on the state in which R180 has traced the transfer. -/
theorem byteDone_row {b : Byte} (ht : exec (.byteDone b) s = .next t) :
    t = s ∨ ∃ (c : ByteClass) (u : State),
      (u = s.emitXfer b ∨ u = s.takeByte b) ∧ exec (c.instr (s.wire b)) u = .next t := by
  rcases byteDone_cases ht with ⟨rfl, -⟩ | ⟨-, -, hx⟩ | ⟨-, -, -, hx⟩ | ⟨-, -, -, hx⟩ | ⟨-, -, hx⟩ | ⟨-, -, hx⟩ |
    ⟨-, -, -, hx⟩ | ⟨-, -, -, -, hx⟩ | ⟨-, -, -, -, hx⟩ | ⟨-, -, hx⟩
  · exact .inl rfl
  · exact .inr ⟨.stray, _, .inl rfl, hx⟩
  · exact .inr ⟨.rxSync, _, .inr rfl, hx⟩
  · exact .inr ⟨.rxUnexpected, _, .inr rfl, hx⟩
  · exact .inr ⟨.rxBody, _, .inr rfl, hx⟩
  · exact .inr ⟨.rxDrain, _, .inr rfl, hx⟩
  · exact .inr ⟨.txGrant, _, .inr rfl, hx⟩
  · exact .inr ⟨.txCollision, _, .inr rfl, hx⟩
  · exact .inr ⟨.txUnexpected, _, .inr rfl, hx⟩
  · exact .inr ⟨.txData, _, .inr rfl, hx⟩

/-- Every byte transfer keeps the buffers' form, given the range of RXWR. -/
theorem MemInv.byteDone (h : MemInv s) (hwr : s.rxwr.toNat < s.cfg.rxbufSize) {b : Byte}
    (ht : exec (.byteDone b) s = .next t) : MemInv t := by
  rcases byteDone_row ht with rfl | ⟨c, u, hu, hx⟩
  · exact h
  · have hm : MemInv u ∧ u.rxwr.toNat < u.cfg.rxbufSize := by
      rcases hu with rfl | rfl <;> exact ⟨h.of_eq, by simpa using hwr⟩
    obtain ⟨hcfg, htxb, hrxb⟩ := exec_byteClass_memory hx
    rcases hrxb with hrxb | hrxb
    · exact hm.1.of_eq hcfg htxb hrxb
    · exact (hm.1.setRxb hm.2 (s.wire b)).of_eq hcfg htxb hrxb

/-- Settles O13: a TXB write decodes to an index of the window, and RING_PUT writes at RXWR. -/
theorem stepKeepsMemory : Obligations.StepKeepsMemory := by
  intro s t hwr h hstep
  rcases step_next_cases hstep with ⟨-, ⟨-, rfl⟩ | ⟨e, rest, i, -, hd, hx⟩⟩
  · exact h
  · have hu : MemInv { s with inbox := rest } := { h with }
    rcases exec_decoded_cases hd hx with he | ⟨b, hb⟩
    · exact he.mem hu (fun k v hi => decode_wTxb_lt (hi ▸ hd))
    · exact hu.byteDone hwr hb

end Machine
end Sys2Proof

/-! PROOFS. What every instruction leaves alone (spec/10_state.md R36, R53): the parameters, and a transient flag
that is set. -/

namespace Sys2Proof.Machine

variable {s t : State}

/-! ## The parameters -/

theorem Effect.cfg {i : Instr} (he : Effect s i t) : t.cfg = s.cfg := by
  cases he with
  | abortReturn _ | buildFrame _ _ | reset => rfl
  | _ => simp

/-- No instruction changes the parameters (R53, R54). -/
theorem exec_cfg {i : Instr} (hx : exec i s = .next t) : t.cfg = s.cfg := by
  rcases exec_cases hx with he | ⟨b, rfl⟩ | ⟨c, x, rfl⟩
  · exact he.cfg
  · rcases byteDone_row hx with rfl | ⟨c, u, hu, hrow⟩
    · rfl
    · rw [(exec_byteClass_memory hrow).1]
      rcases hu with rfl | rfl <;> simp
  · exact (exec_byteClass_memory hx).1

/-! ## The transient flags -/

theorem Flags.test_withoutTxdone {fl : Flags} {f : Flag} (hf : f ≠ .txdone) :
    Flags.test { fl with txdone := false } f = fl.test f := by
  cases f with
  | txdone => exact absurd rfl hf
  | _ => rfl

theorem Effect.keeps_flag {i : Instr} {f : Flag} (hf : s.flags.test f = true) (hclr : i ≠ .clrFlags)
    (hreset : i ≠ .reset) (hsub : f = .txdone → i ≠ .txSubmit) (he : Effect s i t) : t.flags.test f = true := by
  cases he with
  | clrFlags => exact absurd rfl hclr
  | reset => exact absurd rfl hreset
  | submit _ _ _ =>
    show Flags.test { s.flags with txdone := false } f = true
    rw [Flags.test_withoutTxdone fun he => hsub he rfl]
    exact hf
  -- no flag is touched
  | abortReturn _ | buildFrame _ _ => exact hf
  -- flags are only raised
  | _ => simp [hf]

theorem exec_byteClass_keeps_flag {c : ByteClass} {x : Byte} {f : Flag} (hf : s.flags.test f = true)
    (hx : exec (c.instr x) s = .next t) : t.flags.test f = true := by
  cases c with
  | txData =>
    obtain rfl := Host.Outcome.next.inj hx
    split <;> simp [hf]
  | rxSync | rxUnexpected | rxBody | rxDrain | txGrant | txCollision | txUnexpected | stray | noresp =>
    obtain rfl := Host.Outcome.next.inj hx
    simp [hf]

/-- Settles O15: only CLR_FLAGS, RESET and TX_SUBMIT write a 0 to a flag; every other outcome raises flags or leaves them. -/
theorem transientFlagsAreSticky : Obligations.TransientFlagsAreSticky := by
  intro i s t f hx hf hclr hreset hsub
  rcases exec_cases hx with he | ⟨b, rfl⟩ | ⟨c, x, rfl⟩
  · exact he.keeps_flag hf hclr hreset hsub
  · rcases byteDone_row hx with rfl | ⟨c, u, hu, hrow⟩
    · exact hf
    · refine exec_byteClass_keeps_flag ?_ hrow
      rcases hu with rfl | rfl <;> simpa using hf
  · exact exec_byteClass_keeps_flag hf hx

end Sys2Proof.Machine

/-! PROOFS. The words a host read returns, bit by bit: PARAM0 and PARAM1 (spec/10_state.md R53, R54), STATUS and SEQ
(R35, R37, R39 to R41, R56). -/

namespace Sys2Proof

/-! ## Accesses to a register by its offset -/

theorem accessError_word_reg (r : Reg) : accessError .word r.offset = none := by
  simp [accessError, alignedOffset, r.offset_range.2]

theorem decode_read_reg (p : Params) (r : Reg) : decode p (.hostRead .word r.offset) = .ok (.read (.reg r)) := by
  simp [decode, accessError_word_reg]

/-- A write to a register that the host cannot write (20_memory.md R86, R292). -/
theorem decode_write_readonly (p : Params) {r : Reg} (hr : r.writable = false) (v : Word) :
    decode p (.hostWrite .word r.offset v) = .ok (.wReadonly r v) := by
  simp only [decode, accessError_word_reg, decodeWrite, locate_reg]
  cases r with
  | ctrl | cmd | txlen => simp [Reg.writable] at hr
  | _ => rfl

namespace Machine

/-! ## Fields of a register word

A field of width `n` at bit `m` is `x.setWidth 32 <<< m`; a word is an OR of fields that do not overlap. -/

section Fields

variable {n : Nat} (x : BitVec n) {m : Nat}

/-- A field is read back at its place. -/
theorem extract_field (hm : m + n ≤ 32) : (x.setWidth 32 <<< m).extractLsb' m n = x := by
  ext k hk
  have : m + k < 32 := by omega
  simp [this, BitVec.getLsbD_eq_getElem hk]

/-- A field is read back at the bottom of the word. -/
theorem extract_lowest_field (hn : n ≤ 32) : (x.setWidth 32).extractLsb' 0 n = x := by
  simpa using extract_field x (m := 0) (by omega)

/-- A field leaves the bits outside its place 0. -/
theorem extract_outside_field {lo w : Nat} (h : lo + w ≤ m ∨ m + n ≤ lo) :
    (x.setWidth 32 <<< m).extractLsb' lo w = 0#w := by
  ext k hk
  simp
  intro _ hle _
  exact BitVec.getLsbD_of_ge _ _ (by omega)

theorem extract_outside_lowest_field {lo w : Nat} (h : n ≤ lo) : (x.setWidth 32).extractLsb' lo w = 0#w := by
  simpa using extract_outside_field x (m := 0) (w := w) (.inr (by simpa using h))

end Fields

/-- A register bit is where the word's layout puts it. -/
theorem getLsbD_bitAt (b : Bool) {k : Nat} (hk : k < 32) (j : Nat) :
    (bitAt b k).getLsbD j = (b && decide (j = k)) := by
  by_cases h : j = k
  · subst h
    simp [bitAt, hk]
  · have hout : j < k ∨ j - k ≠ 0 := by omega
    rcases hout with hlt | hne
    · simp [bitAt, h, hlt]
    · simp [bitAt, h, hne]

/-! ## PARAM0 and PARAM1 -/

theorem param0Word_syncByte (p : Params) : (param0Word p).extractLsb' 0 8 = p.syncByte := by
  simp [param0Word, BitVec.extractLsb'_or, extract_lowest_field, extract_outside_field]

theorem param0Word_ctsByte (p : Params) : (param0Word p).extractLsb' 8 8 = p.ctsByte := by
  simp [param0Word, BitVec.extractLsb'_or, extract_field, extract_outside_field, extract_outside_lowest_field]

theorem param0Word_maxLength (p : Params) : (param0Word p).extractLsb' 16 8 = BitVec.ofNat 8 p.maxLength := by
  simp [param0Word, BitVec.extractLsb'_or, extract_field, extract_outside_field, extract_outside_lowest_field]

theorem param0Word_reserved (p : Params) : (param0Word p).extractLsb' 24 8 = 0#8 := by
  simp [param0Word, BitVec.extractLsb'_or, extract_outside_field, extract_outside_lowest_field]

theorem param1Word_rxbufSize (p : Params) : (param1Word p).extractLsb' 0 16 = BitVec.ofNat 16 p.rxbufSize := by
  simp [param1Word, BitVec.extractLsb'_or, extract_lowest_field, extract_outside_field]

theorem param1Word_tWait (p : Params) : (param1Word p).extractLsb' 16 16 = BitVec.ofNat 16 p.tWait := by
  simp [param1Word, BitVec.extractLsb'_or, extract_field, extract_outside_lowest_field]

/-- Settles O21: no instruction writes the parameters, and in a legal configuration each fits its field. -/
theorem parametersAreConstant : Obligations.ParametersAreConstant := by
  refine ⟨fun i s t hx => exec_cfg hx, fun p v => ⟨decode_read_reg p .param0, decode_read_reg p .param1,
    decode_write_readonly p (r := .param0) rfl v, decode_write_readonly p (r := .param1) rfl v⟩, fun s hl => ?_⟩
  obtain ⟨-, -, hmax, -, hbuf, -, hwait⟩ := Params.legal_bounds hl
  refine ⟨param0Word s.cfg, param1Word s.cfg, rfl, param0Word_syncByte _, param0Word_ctsByte _, ?_,
    param0Word_reserved _, rfl, ?_, ?_⟩
  · rw [param0Word_maxLength, BitVec.toNat_ofNat]; omega
  · rw [param1Word_rxbufSize, BitVec.toNat_ofNat]; omega
  · rw [param1Word_tWait, BitVec.toNat_ofNat]; omega

/-! ## STATUS and SEQ -/

/-- Each bit of STATUS (R35, R37). -/
theorem statusWord_getLsbD (s : State) (k : Nat) :
    s.statusWord.getLsbD k =
      (decide (s.rxunread ≠ 0#10) && decide (k = 0) || s.txreq && decide (k = 1) || s.flags.txdone && decide (k = 2)
        || s.flags.lenerr && decide (k = 3) || s.flags.ckerr && decide (k = 4) || s.flags.unexp && decide (k = 5)
        || s.flags.tmo && decide (k = 6) || s.flags.coll && decide (k = 7) || s.flags.rxovf && decide (k = 8)
        || s.flags.cmderr && decide (k = 9) || s.flags.linkdrop && decide (k = 10)) := by
  have hrxv : (s.rxunread != 0#10) = decide (s.rxunread ≠ 0#10) := by
    by_cases h : s.rxunread = 0#10 <;> simp [h]
  simp only [State.statusWord, BitVec.getLsbD_or, getLsbD_bitAt, Nat.reduceLT, hrxv]

/-- Each bit of SEQ above the two codes. -/
theorem seqWord_getLsbD (s : State) {k : Nat} (hk : 8 ≤ k) :
    s.seqWord.getLsbD k =
      (s.reqOut && decide (k = 8) || s.linesFloat && decide (k = 9) || s.den && decide (k = 10)
        || (s.hrdy && !s.linesFloat) && decide (k = 11) || s.ovfCur && decide (k = 12)) := by
  have hcodes : (s.seq.stateCode.setWidth 32).getLsbD k = false
      ∧ (s.seq.phaseCode.setWidth 32 <<< 4).getLsbD k = false := by
    constructor
    · simp [BitVec.getLsbD_of_ge _ k (show 3 ≤ k by omega)]
    · simp [BitVec.getLsbD_of_ge _ (k - 4) (show 3 ≤ k - 4 by omega)]
  simp only [State.seqWord, BitVec.getLsbD_or, hcodes.1, hcodes.2, getLsbD_bitAt, Nat.reduceLT, Bool.false_or]

theorem seqWord_stateCode (s : State) : s.seqWord.extractLsb' 0 3 = s.seq.stateCode := by
  simp [State.seqWord, bitAt, BitVec.extractLsb'_or, extract_lowest_field, extract_outside_field]

theorem seqWord_phaseCode (s : State) : s.seqWord.extractLsb' 4 3 = s.seq.phaseCode := by
  simp [State.seqWord, bitAt, BitVec.extractLsb'_or, extract_field, extract_outside_field, extract_outside_lowest_field]

/-- Bits 3 and 7 of SEQ are reserved (R39). -/
theorem seqWord_reserved (s : State) : s.seqWord.getLsbD 3 = false ∧ s.seqWord.getLsbD 7 = false := by
  constructor <;>
    simp only [State.seqWord, BitVec.getLsbD_or, getLsbD_bitAt, Nat.reduceLT] <;>
    simp [BitVec.getLsbD_of_ge]

/-- Settles O37: each bit of the two words is read off the OR of its fields. -/
theorem statusAndSeqBits : Obligations.StatusAndSeqBits := by
  intro s
  refine ⟨s.statusWord, s.seqWord, rfl, rfl, fun k => ?_, ?_, ?_, (seqWord_reserved s).1, (seqWord_reserved s).2,
    ?_, ?_, ?_, ?_, ?_, fun k hk => ?_⟩
  · rw [statusWord_getLsbD]
    split <;> simp_all
  · rw [seqWord_stateCode]
    cases s.seq <;> rfl
  · rw [seqWord_phaseCode]
    cases s.seq with
    | receiving p => cases p <;> rfl
    | transmitting p => cases p <;> rfl
    | idle | aborting | noResponse => rfl
  · rw [seqWord_getLsbD s (by omega)]; simp
  · rw [seqWord_getLsbD s (by omega)]; simp
  · rw [seqWord_getLsbD s (by omega)]; simp
  · rw [seqWord_getLsbD s (by omega)]; simp
  · rw [seqWord_getLsbD s (by omega)]; simp
  · rw [seqWord_getLsbD s (by omega)]
    simp [show k ≠ 8 by omega, show k ≠ 9 by omega, show k ≠ 10 by omega, show k ≠ 11 by omega, show k ≠ 12 by omega]

end Machine
end Sys2Proof

/-! PROOFS. The host register space (spec/20_memory.md R81, R84) through the decoder, and what a step refuses. -/

namespace Sys2Proof

/-! ## Accesses by width and alignment -/

/-- The accesses of R84 that have an outcome are those of the input alphabet (00_scope.md R14). -/
theorem accessError_eq_none_iff {w : AccessWidth} {off : Offset} :
    accessError w off = none ↔ w = .word ∧ off.toNat % 4 = 0 := by
  cases w with
  | word => simp [accessError, alignedOffset]
  | byte | half => simp [accessError]

theorem accessError_of_narrow {w : AccessWidth} (hw : w ≠ .word) (off : Offset) :
    accessError w off = some .narrowAccess := by
  cases w with
  | word => exact absurd rfl hw
  | byte | half => rfl

theorem accessError_of_misaligned {off : Offset} (h : off.toNat % 4 ≠ 0) :
    accessError .word off = some .misalignedAccess := by
  simp [accessError, alignedOffset, h]

/-- An access without an outcome is rejected, whether it reads or writes. -/
theorem decode_of_accessError {p : Params} {w : AccessWidth} {off : Offset} {err : DecodeError} {e : Event} {v : Word}
    (h : accessError w off = some err) (he : e = .hostWrite w off v ∨ e = .hostRead w off) :
    decode p e = .rejected err := by
  rcases he with rfl | rfl <;> simp [decode, h]

/-! ## The decoder gives well-formed instructions -/

theorem decodeCommand_wf (p : Params) (v : Word) : (decodeCommand v).wf p = true := by
  unfold decodeCommand
  split <;> rfl

/-- A write selects a well-formed location, and each location has its own row (20_memory.md R81 to R87). -/
theorem decodeWrite_wf {p : Params} (hl : p.legal = true) {off : Offset} (ha : off.toNat % 4 = 0) (v : Word) :
    (decodeWrite p off v).wf p = true := by
  have hloc := locate_wf hl ha
  rw [decodeWrite]
  cases h : locate p off with
  | reg r =>
    cases r with
    | cmd => exact decodeCommand_wf p v
    | _ => rfl
  | txb i | rxb i | unmapped o => rw [h] at hloc; exact hloc

/-- Settles O4: a host access that the decoder reads is an aligned word access, so it selects a well-formed location. -/
theorem decodeGivesWellFormed : Obligations.DecodeGivesWellFormed := by
  intro p e i hl hd
  suffices h : i.wf p = true ∧ e.inAlphabet = true from ⟨h.1, Machine.decode_no_byteContext hd, h.2⟩
  cases e with
  | hostWrite w off v =>
    simp only [decode] at hd
    split at hd
    · simp at hd
    · next hn =>
      obtain rfl := Decoded.ok.inj hd
      obtain ⟨rfl, ha⟩ := accessError_eq_none_iff.mp hn
      exact ⟨decodeWrite_wf hl ha v, by simp [Event.inAlphabet, ha]⟩
  | hostRead w off =>
    simp only [decode] at hd
    split at hd
    · simp at hd
    · next hn =>
      obtain rfl := Decoded.ok.inj hd
      obtain ⟨rfl, ha⟩ := accessError_eq_none_iff.mp hn
      exact ⟨locate_wf hl ha, by simp [Event.inAlphabet, ha]⟩
  | den v | byteDone b | tb | reset => obtain rfl := Decoded.ok.inj hd; exact ⟨rfl, rfl⟩

/-! ## The layout of the register space -/

theorem decode_read_word (p : Params) {off : Offset} (ha : off.toNat % 4 = 0) :
    decode p (.hostRead .word off) = .ok (.read (locate p off)) := by
  simp [decode, accessError_eq_none_iff.mpr ⟨rfl, ha⟩]

/-- Settles O5: the register ranges hold one register at each multiple of 4, and no register lies outside them. -/
theorem offsetLayout : Obligations.OffsetLayout := by
  intro p off _ ha n
  rw [decode_read_word p ha]
  by_cases hreg : n < 0x44 ∨ (0x80 ≤ n ∧ n < 0xA0)
  · obtain ⟨r, rfl⟩ := Reg.exists_offset ha hreg
    rw [if_pos hreg]
    exact ⟨r, rfl, by rw [locate_reg]⟩
  · have hne : ∀ r : Reg, r.offset ≠ off := by
      rintro r rfl
      exact hreg r.offset_range.1
    rw [if_neg hreg, locate_not_reg hne]
    split
    · rfl
    · split <;> rfl

namespace Machine

/-! ## The step -/

theorem step_of_rejected {s : State} {e : Event} {rest : List Event} {err : DecodeError}
    (hl : s.cfg.legal = true) (hi : s.inbox = e :: rest) (hd : decode s.cfg e = .rejected err) :
    step s = .refused (refusalOf err) := by
  simp [step, fetch, hl, hi, hd]

theorem step_of_illegal {s : State} (hl : s.cfg.legal = false) : step s = .refused .illegalConfig := by
  simp [step, fetch, hl]

/-- Settles O7: the step runs what the decoder reads from the oldest event, and waits where there is none. -/
theorem stepRunsDecodedInstruction : Obligations.StepRunsDecodedInstruction :=
  ⟨fun _ _ _ _ hl hi hd => step_of_decode hl hi hd, fun _ hl hi => step_waits hl hi⟩

/-- Settles O9: the decoder rejects the two kinds of access by name, and R8 makes equal sentinels an illegal
configuration. -/
theorem whatAStepRefuses : Obligations.WhatAStepRefuses := by
  refine ⟨fun s w off v rest hl hi => ?_, fun s heq => step_of_illegal ?_⟩
  · obtain ⟨e, he, hin⟩ : ∃ e, (e = .hostWrite w off v ∨ e = .hostRead w off) ∧ s.inbox = e :: rest := by
      rcases hi with hi | hi
      · exact ⟨_, .inl rfl, hi⟩
      · exact ⟨_, .inr rfl, hi⟩
    refine ⟨fun hw => ?_, ?_⟩
    · exact step_of_rejected hl hin (decode_of_accessError (accessError_of_narrow hw off) he)
    · rintro rfl hmis
      exact step_of_rejected hl hin (decode_of_accessError (accessError_of_misaligned hmis) he)
  · by_contra hl
    exact (Params.legal_bounds (by simpa using hl)).1 heq

end Machine
end Sys2Proof

/-! PROOFS. Host accesses to the TXB window and host reads (spec/20_memory.md R82, R83, R85, R86). -/

namespace Sys2Proof.Machine

/-! ## The TXB window -/

/-- Settles O35: W_TXB is one write of the buffer, or the refusal of R82. -/
theorem txbWrites : Obligations.TxbWrites := by
  intro i v s
  refine ⟨fun hreq => ?_, fun hreq => ⟨s.setTxb i (byteField v), ?_, fun k => ?_, rfl⟩⟩
  · simp [exec, execWTxb, hreq, State.setFlag, State.setFlagIf, Flags.raiseIf]
  · simp [exec, execWTxb, hreq]
  · exact State.txbByte_setTxb i _ s k

/-! ## Host reads -/

/-- A read answers the value of its location, and the model shows it in `rdata` (R85, log 5). -/
theorem exec_read {s : State} {loc : HostLoc} {v : Word} (h : s.locWord loc = v) :
    exec (.read loc) s = .next { s with rdata := v } := by
  rw [← h]
  rfl

theorem locWord_ctrl (s : State) : s.locWord (.reg .ctrl) = if s.lsbFirst then 1#32 else 0#32 := by
  show bitAt s.lsbFirst 0 = _
  cases s.lsbFirst <;> rfl

/-- Settles O36: each location's value is the field it shows, zero-extended; a code is read as its number. -/
theorem readsReturnTheirLocation : Obligations.ReadsReturnTheirLocation := by
  intro s reads
  have lasterr_code : s.locWord (.reg .lasterr) = s.lasterr.code.setWidth 32 := rfl
  have txres_code : s.locWord (.reg .txres) = s.txres.code.setWidth 32 := rfl
  refine ⟨fun i => exec_read rfl, fun i => exec_read rfl, fun off => exec_read rfl, fun loc => ⟨_, exec_read rfl⟩,
    exec_read (locWord_ctrl s), exec_read rfl, exec_read ?_, exec_read rfl, exec_read rfl, exec_read ?_, exec_read rfl,
    exec_read rfl, exec_read rfl, exec_read rfl, exec_read rfl, exec_read rfl, exec_read rfl, exec_read rfl,
    exec_read rfl, exec_read rfl, exec_read rfl, exec_read rfl, exec_read rfl, exec_read rfl, exec_read rfl⟩
  · rw [lasterr_code]
    cases s.lasterr <;> rfl
  · rw [txres_code]
    cases s.txres <;> rfl

end Sys2Proof.Machine

/-! PROOFS. A byte transfer runs the row of its class (spec/41_receive.md R180), and the transmit buffer is held while a
transmit is requested (spec/20_memory.md R98; spec/70_reset_and_hazards.md R360). -/

namespace Sys2Proof

/-- A requested byte is never a stray, nor one of NO_RESPONSE. -/
theorem classifyByte_requested {p : Params} {q : SeqState} {x : Byte} {c : ByteClass} (hb : q.requestsByte = true)
    (hc : classifyByte p q true x = some c) : c ≠ .stray ∧ c ≠ .noresp := by
  cases q with
  | receiving ph =>
    cases ph with
    | rxFirst => obtain rfl := Option.some.inj hc; split <;> simp
    | rxBody | rxDrain => obtain rfl := Option.some.inj hc; simp
  | transmitting ph =>
    cases ph with
    | txWaitCts =>
      obtain rfl := Option.some.inj hc
      split
      · simp
      · split <;> simp
    | txData => obtain rfl := Option.some.inj hc; simp
    | txWaitDen | txWaitDenLow => simp at hb
  | idle | aborting | noResponse => simp at hb

/-- Bit i of the reversed byte is bit 7 - i (00_scope.md R11). -/
theorem rev8_getLsbD (x : Byte) {i : Nat} (hi : i < 8) : (rev8 x).getLsbD i = x.getLsbD (7 - i) := by
  simp only [rev8, BitVec.getLsbD_append]
  interval_cases i <;> simp

namespace Machine

variable {s t : State}

/-! ## The dispatch of a BYTE_DONE -/

/-- A parked machine ignores the byte (43_protocol_tick.md R267). -/
theorem exec_byteDone_parked (b : Byte) (hq : s.seq = .noResponse) : exec (.byteDone b) s = .next s := by
  simp [exec, execByteDone, hq, classifyByte, execNorespByte]

/-- A byte that nobody requested is traced and counted (41_receive.md R181). -/
theorem exec_byteDone_stray (b : Byte) (hn : s.seq ≠ .noResponse) (hr : s.reqOut = false) :
    exec (.byteDone b) s = exec (.stray (s.wire b)) (s.emitXfer b) := by
  have hc : classifyByte s.cfg s.seq s.reqOut (s.wire b) = some .stray := by
    rw [hr]
    cases hq : s.seq with
    | noResponse => exact absurd hq hn
    | idle | receiving _ | transmitting _ | aborting => rfl
  simp [exec, execByteDone, hc]

/-- The combinations of R270 that no reachable state has (log 8). -/
theorem exec_byteDone_unreachable (b : Byte) (hr : s.reqOut = true) (hb : s.seq.requestsByte = false) :
    exec (.byteDone b) s = .next s := by
  cases hq : s.seq with
  | noResponse => exact exec_byteDone_parked b hq
  | idle | aborting => simp [exec, execByteDone, hq, hr, classifyByte]
  | receiving p => simp [hq] at hb
  | transmitting p =>
    cases p with
    | txWaitDen | txWaitDenLow => simp [exec, execByteDone, hq, hr, classifyByte]
    | txWaitCts | txData => simp [hq] at hb

/-- A requested byte runs the row of its class once the transfer is traced and REQ_OUT cleared (R180). -/
theorem exec_byteDone_requested {b : Byte} {c : ByteClass} (hr : s.reqOut = true) {q : SeqState} (hq : s.seq = q)
    (hb : q.requestsByte = true) (hc : classifyByte s.cfg q true (s.wire b) = some c) :
    exec (.byteDone b) s = exec (c.instr (s.wire b)) (s.takeByte b) := by
  obtain ⟨hstray, hnoresp⟩ := classifyByte_requested hb hc
  have hx : exec (.byteDone b) s = execByteDone b s := rfl
  rw [hx, execByteDone, hr, hq, hc]
  cases c with
  | stray => exact absurd rfl hstray
  | noresp => exact absurd rfl hnoresp
  | _ => rfl

/-- Settles O46: each clause is the dispatch at its point of control, the transfer traced as R180 says. -/
theorem byteDoneDispatches : Obligations.ByteDoneDispatches := by
  refine ⟨fun x => ⟨rfl, fun lsb => wireByte_wireByte lsb x, fun i hi => rev8_getLsbD x hi⟩, ?_⟩
  intro b s x traced taken
  refine ⟨exec_byteDone_answers b s, exec_byteDone_parked b, exec_byteDone_stray b, exec_byteDone_unreachable b,
    fun hr hq => ?_, fun hr hq => exec_byteDone_requested hr hq rfl rfl,
    fun hr hq => exec_byteDone_requested hr hq rfl rfl, fun hr hq => ?_,
    fun hr hq => exec_byteDone_requested hr hq rfl rfl⟩
  · show _ = if s.wire b = s.cfg.syncByte then _ else _
    rw [exec_byteDone_requested hr hq rfl rfl]
    split <;> rfl
  · show _ = if s.wire b = s.cfg.ctsByte then _ else if s.wire b = s.cfg.syncByte then _ else _
    rw [exec_byteDone_requested hr hq rfl rfl]
    split
    · rfl
    · split <;> rfl

/-! ## The transmit buffer while a transmit is requested -/

/-- The instructions without a received byte that write TXB or TXLEN are refused while TXREQ is 1, but RESET. -/
theorem Effect.holds_txBuffer {i : Instr} (hreq : s.txreq = true) (hreset : i ≠ .reset) (he : Effect s i t) :
    t.txb = s.txb ∧ t.epoch = s.epoch ∧ t.txlen = s.txlen := by
  cases he with
  | buildFrame hfree _ | setTxlen _ hfree _ | setTxb _ _ hfree => simp [hreq] at hfree
  | reset => exact absurd rfl hreset
  | abortReturn _ => exact ⟨rfl, rfl, rfl⟩
  | _ => simp

/-- No row of a received byte writes TXB or TXLEN. -/
theorem exec_byteClass_holds_txBuffer {c : ByteClass} {x : Byte} (hx : exec (c.instr x) s = .next t) :
    t.txb = s.txb ∧ t.epoch = s.epoch ∧ t.txlen = s.txlen := by
  cases c with
  | txData =>
    obtain rfl := Host.Outcome.next.inj hx
    split <;> simp
  | rxSync | rxUnexpected | rxBody | rxDrain | txGrant | txCollision | txUnexpected | stray | noresp =>
    obtain rfl := Host.Outcome.next.inj hx
    simp

theorem exec_holds_txBuffer {i : Instr} (hx : exec i s = .next t) (hreq : s.txreq = true) (hreset : i ≠ .reset) :
    t.txb = s.txb ∧ t.epoch = s.epoch ∧ t.txlen = s.txlen := by
  rcases exec_cases hx with he | ⟨b, rfl⟩ | ⟨c, x, rfl⟩
  · exact he.holds_txBuffer hreq hreset
  · rcases byteDone_row hx with rfl | ⟨c, u, hu, hrow⟩
    · exact ⟨rfl, rfl, rfl⟩
    · have hheld := exec_byteClass_holds_txBuffer hrow
      rcases hu with rfl | rfl <;> simpa using hheld
  · exact exec_byteClass_holds_txBuffer hx

/-- Settles O19: what TXB shows depends on the array and the number of RESETs alone. -/
theorem transmitBufferIsHeld : Obligations.TransmitBufferIsHeld := by
  intro i s t hx hreq hreset
  obtain ⟨htxb, hepoch, htxlen⟩ := exec_holds_txBuffer hx hreq hreset
  exact ⟨fun k => State.txbByte_congr htxb hepoch k, htxlen⟩

end Machine
end Sys2Proof

/-! PROOFS. A granted transmit (spec/42_transmit_collision.md R222, R225, R230 to R232): the grant, the data phase and the
fall of DEN, each said once as a run with the state it ends in. -/

namespace Sys2Proof.Machine

variable {s : State}

/-! ## What the wire shows of a list of transfers -/

theorem exchanges_append (lsb : Bool) {outs inns : List Byte} (h : outs.length = inns.length) (outs' inns' : List Byte) :
    exchanges lsb (outs ++ outs') (inns ++ inns') = exchanges lsb outs inns ++ exchanges lsb outs' inns' := by
  simp [exchanges, List.zipWith_append h]

theorem transfers_append (lsb : Bool) (bs bs' : List Byte) :
    transfers lsb (bs ++ bs') = transfers lsb bs ++ transfers lsb bs' :=
  List.map_append

theorem State.txbBytes_succ (s : State) (n : Nat) : s.txbBytes (n + 1) = s.txbBytes n ++ [s.txbByte n] := by
  simp [State.txbBytes, List.range_succ]

/-! ## The grant -/

/-- The rise of DEN in TX_WAIT_DEN (R222). -/
theorem exec_den_rise (hq : s.seq = .transmitting .txWaitDen) (hden : s.den = false) :
    exec (.den true) s =
      .next (State.requestByte { (s.setDen true).goto (.transmitting .txWaitCts) with tocnt := 0#16 }) := by
  simp [exec, execDen, hden, State.denRise, hq]

/-- The clear-to-send byte in TX_WAIT_CTS (R225), in the bit order of the port. -/
theorem exec_byteDone_cts (hq : s.seq = .transmitting .txWaitCts) (hr : s.reqOut = true) :
    exec (.byteDone (wireByte s.lsbFirst s.cfg.ctsByte)) s =
      exec (.txGrant s.cfg.ctsByte) (s.takeByte (wireByte s.lsbFirst s.cfg.ctsByte)) := by
  have hx : s.wire (wireByte s.lsbFirst s.cfg.ctsByte) = s.cfg.ctsByte := wireByte_wireByte _ _
  rw [exec_byteDone_requested (c := .txGrant) hr hq rfl (by simp [classifyByte, hx]), hx]
  rfl

/-- The state in which the data phase of `s` starts, its grant taken from the inbox: TXB[0] is put out and requested. -/
def State.granted (s : State) (rest : List Event) : State :=
  { s with
    inbox := rest, seq := .transmitting .txData, den := true, hrdy := false, reqOut := true, tocnt := 0#16
    txidx := 0#9, txout := s.txbByte 0
    trace := s.trace ++
      [.pulse, .xfer (wireByte s.lsbFirst 0x00#8) (wireByte s.lsbFirst s.cfg.ctsByte), .hrdy false, .pulse] }

/-- The data phase starts with the control invariant: an accepted frame has at least 3 bytes (R280). -/
theorem CtrlInv.granted (h : CtrlInv s) (hq : s.seq = .transmitting .txWaitDen) (rest : List Event) :
    CtrlInv (s.granted rest) := by
  have hopen : s.txreq = true := h.txreq_of_busyPhase (by simp [hq])
  have hmin : 3 ≤ s.txlen.toNat := h.txlenOpen hopen
  exact h.enterTransmitting (by simp [hq]) (h.parse (by simp [hq])) hopen rfl (h.busy_of_phase (by simp [hq])) rfl rfl rfl
    (.inr rfl) (fun hne => absurd rfl hne) (fun _ => ⟨rfl, show 0 < s.txlen.toNat by omega⟩) rfl rfl rfl rfl rfl rfl

/-- The rise of DEN and the clear-to-send byte start the data phase. -/
theorem run_grant {rest : List Event} (h : CtrlInv s) (hq : s.seq = .transmitting .txWaitDen)
    (hi : s.inbox = .den true :: .byteDone (wireByte s.lsbFirst s.cfg.ctsByte) :: rest) (k : Nat) :
    Host.Core.run Sys2Proof.core (k + 2) s = Host.Core.run Sys2Proof.core k (s.granted rest) := by
  have hfloat : s.linesFloat = false := h.lines_driven (by simp [hq])
  have htxout : s.txout = 0#8 := h.txoutZero (by simp [hq])
  have hhrdy : s.hrdy = true := by simp [h.hrdy, hq]
  rw [run_event h.legal hi rfl (exec_den_rise hq (h.denLow hq)),
    run_event (by exact h.legal) rfl rfl ((exec_byteDone_cts rfl rfl).trans rfl)]
  simp [State.granted, State.requestByte, State.pulseDrdy, State.goto, State.setHrdy, State.takeByte, State.emitXfer,
    State.emit, State.setDen, State.wire, State.txbByte, hfloat, htxout, hhrdy]

/-! ## The data phase -/

/-- The byte transfer that answers the last byte of the buffer (R231, R235). -/
theorem exec_byteDone_last (hq : s.seq = .transmitting .txData) (hr : s.reqOut = true)
    (hlast : s.txidx + 1#9 = s.txlen) (b : Byte) :
    exec (.byteDone b) s = .next (State.lastByteDone { s.takeByte b with txidx := s.txlen }) := by
  rw [exec_byteDone_requested hr hq rfl rfl]
  simp [exec, ByteClass.instr, execTxDataByte, hlast]

/-- The fall of DEN after the last byte (R232). -/
theorem exec_den_fall (hq : s.seq = .transmitting .txWaitDenLow) (hden : s.den = true) :
    exec (.den false) s = .next (State.goto .idle { s.setDen false with tocnt := 0#16 }) := by
  simp [exec, execDen, hden, State.denFall, hq]

/-- The state in which the transmit of `s` is complete, after transfers that show as `shown`. -/
def State.transmitted (s : State) (shown : List WireEvent) (rest : List Event) : State :=
  { s with
    inbox := rest, seq := .idle, den := false, hrdy := false, reqOut := false, tocnt := 0#16
    txidx := s.txlen, txout := 0x00#8, txreq := false, txres := .complete
    flags := { s.flags with txdone := true }
    cnt := { s.cnt with txOk := s.cnt.txOk + 1#32 }
    trace := s.trace ++ shown }

/-- The last byte and the fall of DEN complete the transmit. -/
theorem run_last {x : Byte} {rest : List Event} (h : CtrlInv s) (hq : s.seq = .transmitting .txData)
    (hlast : s.txidx + 1#9 = s.txlen) (hi : s.inbox = transfers s.lsbFirst [x] ++ .den false :: rest) :
    Host.Core.run Sys2Proof.core 2 s = .next (s.transmitted (exchanges s.lsbFirst [s.txout] [x]) rest) := by
  have hr : s.reqOut = true := by simp [h.reqOut, hq]
  have hden : s.den = true := h.den (by simp [hq])
  have hhrdy : s.hrdy = false := by simp [h.hrdy, hq]
  have hfloat : s.linesFloat = false := h.lines_driven (by simp [hq])
  rw [run_event h.legal hi rfl (exec_byteDone_last (by exact hq) (by exact hr) (by exact hlast) _),
    run_event (by exact h.legal) rfl rfl (exec_den_fall rfl (by exact hden)), run_zero]
  simp [State.transmitted, State.lastByteDone, State.endTransmit, State.pulseDrdy, State.goto, State.takeByte,
    State.emitXfer, State.emit, State.setDen, State.wire, Flags.raiseIf, hfloat, hhrdy]

/-- The state of the data phase of `s` after the transfers that shifted in `inns`: the byte behind them is put out. -/
def State.sending (s : State) (inns : List Byte) (rest : List Event) : State :=
  { s with
    inbox := rest, txidx := BitVec.ofNat 9 inns.length, txout := s.txbByte inns.length
    trace := s.trace ++ exchanges s.lsbFirst (s.txbBytes inns.length) inns }

theorem txidx_toNat_of_lt {n : Nat} {len : BitVec 9} (h : n < len.toNat) : (BitVec.ofNat 9 n).toNat = n := by
  have := len.isLt
  rw [BitVec.toNat_ofNat]
  omega

theorem CtrlInv.sending (h : CtrlInv s) (hq : s.seq = .transmitting .txData) {inns : List Byte}
    (hlen : inns.length < s.txlen.toNat) (rest : List Event) : CtrlInv (s.sending inns rest) :=
  { h with
    quiet := fun hquiet => by
      rw [show (s.sending inns rest).seq = .transmitting .txData from hq] at hquiet
      simp at hquiet
    txoutZero := fun hne => absurd hq hne
    txoutData := fun _ => by
      have hidx : (s.sending inns rest).txidx.toNat = inns.length := txidx_toNat_of_lt hlen
      rw [hidx]
      exact ⟨rfl, hlen⟩ }

/-- The transfers of the data phase from its first byte to any byte before the last: the state `run_data` ends in. -/
theorem run_sending {inns : List Byte} {rest : List Event} (h : CtrlInv s) (hq : s.seq = .transmitting .txData)
    (hidx : s.txidx = 0#9) (hlen : inns.length < s.txlen.toNat) (hi : s.inbox = transfers s.lsbFirst inns ++ rest) :
    Host.Core.run Sys2Proof.core inns.length s = .next (s.sending inns rest) := by
  have hzero : s.txidx.toNat = 0 := by simp [hidx]
  obtain ⟨t, hrun, hti, hte, htidx, htout, httr⟩ :=
    run_data inns s rest h.legal hq (by simp [h.reqOut, hq]) (h.lines_driven (by simp [hq])) (by omega)
      (h.txoutData hq).1 hi
  simp only [hzero, Nat.zero_add] at htidx htout httr
  have hbv : t.txidx = BitVec.ofNat 9 inns.length := by rw [← htidx, BitVec.ofNat_toNat, BitVec.setWidth_eq]
  have ht : t = { s with txidx := t.txidx, txout := t.txout, trace := t.trace, inbox := t.inbox } :=
    congrArg (fun v : State =>
      { v with txidx := t.txidx, txout := t.txout, trace := t.trace, inbox := t.inbox }) hte
  refine hrun.trans (congrArg Host.Outcome.next (ht.trans ?_))
  rw [hbv, htout, httr, hti]
  rfl

/-- The data phase from its first byte to the fall of DEN puts out the whole buffer, whatever the device shifts in. -/
theorem run_data_phase {inns : List Byte} {rest : List Event} (h : CtrlInv s) (hq : s.seq = .transmitting .txData)
    (hidx : s.txidx = 0#9) (hlen : inns.length = s.txlen.toNat)
    (hi : s.inbox = transfers s.lsbFirst inns ++ .den false :: rest) :
    Host.Core.run Sys2Proof.core (inns.length + 1) s =
      .next (s.transmitted (exchanges s.lsbFirst (s.txbBytes s.txlen.toNat) inns) rest) := by
  have hpos := (h.txoutData hq).2
  obtain ⟨init, x, rfl⟩ : ∃ init x, inns = init ++ [x] :=
    ⟨_, _, (List.dropLast_append_getLast (List.ne_nil_of_length_pos (by omega))).symm⟩
  have hn : init.length + 1 = s.txlen.toNat := by simpa using hlen
  have hlast : BitVec.ofNat 9 init.length + 1#9 = s.txlen := by
    rw [← BitVec.ofNat_add, hn, BitVec.ofNat_toNat, BitVec.setWidth_eq]
  have hshown : exchanges s.lsbFirst (s.txbBytes s.txlen.toNat) (init ++ [x]) =
      exchanges s.lsbFirst (s.txbBytes init.length) init ++ exchanges s.lsbFirst [s.txbByte init.length] [x] := by
    rw [← hn, State.txbBytes_succ, exchanges_append _ (by simp [State.txbBytes])]
  rw [transfers_append, List.append_assoc] at hi
  have hrun := run_sending h hq hidx (by omega) hi
  have hend := run_last (h.sending hq (by omega) (transfers s.lsbFirst [x] ++ .den false :: rest)) hq hlast rfl
  rw [List.length_append, List.length_singleton, Nat.add_assoc, run_add hrun, hend]
  simp [State.transmitted, State.sending, hshown]

/-- Settles O59: the grant, then the data phase to the fall of DEN. -/
theorem transmitSendsTheBuffer : Obligations.TransmitSendsTheBuffer := by
  intro s inns rest n h hq hlen hi
  refine ⟨(s.granted (transfers s.lsbFirst inns ++ .den false :: rest)).transmitted
    (exchanges s.lsbFirst (s.txbBytes n) inns) rest, ?_, rfl, fun k => rfl, fun k => rfl, rfl⟩
  rw [show n + 3 = (inns.length + 1) + 2 by omega, run_grant h hq hi]
  exact run_data_phase (h.granted hq _) rfl rfl hlen rfl

end Sys2Proof.Machine

/-! PROOFS. The encoder against the decoder (spec/30_encoding.md R118, R119, R125 to R129; spec/20_memory.md R81 to
R83): the command map, the event of each instruction decoded again, and the byte of each class classified again. -/

namespace Sys2Proof

/-! ## Command words -/

/-- Every word written to CMD goes through the opcode map (R125). -/
theorem decode_write_cmd (p : Params) (v : Word) :
    decode p (.hostWrite .word Reg.cmd.offset v) = .ok (decodeCommand v) := by
  simp [decode, accessError_word_reg, decodeWrite]

/-- OP is the value of bits 3:0, as a mask reads it (R126). -/
theorem opField_toNat (v : Word) : (opField v).toNat = (v &&& 0xF#32).toNat := by
  have hmask : v.toNat &&& 15 = v.toNat % 16 := Nat.and_two_pow_sub_one_eq_mod v.toNat 4
  simp [opField, hmask]

/-- The operand of a reserved opcode 0x8..0xF is OP - 8 (R126). -/
theorem extract_of_opField_high {v : Word} (h : 8 ≤ (opField v).toNat) :
    v.extractLsb' 0 3 = BitVec.ofNat 3 ((opField v).toNat - 8) := by
  apply BitVec.eq_of_toNat_eq
  simp [opField] at h ⊢
  omega

/-- Settles O3: both maps are read off the value of OP, and only the operand of 0x8..0xF needs arithmetic. -/
theorem commandWordMap : Obligations.CommandWordMap := by
  intro p v
  show decode p (.hostWrite .word Reg.cmd.offset v) = _
  rw [decode_write_cmd, decodeCommand, ← opField_toNat]
  generalize hop : (opField v).toNat = n
  match n with
  | 0 | 1 | 2 | 3 | 4 | 5 | 6 | 7 => rfl
  | n + 8 =>
    have hlow := extract_of_opField_high (v := v) (by omega)
    rw [hop] at hlow
    exact congrArg (fun low => Decoded.ok (.reservedHigh low)) hlow

/-! ## The events -/

/-- A reserved opcode 0x8..0xF carries its three low bits (R126). -/
theorem decodeCommand_reservedHigh (low : BitVec 3) :
    decodeCommand ((1#1 ++ low).setWidth 32) = .reservedHigh low := by
  revert low
  decide

/-- A write to a location's own offset is the row that any offset selecting the location has (R81, R129). -/
theorem decode_write_loc {p : Params} (hl : p.legal = true) (loc : HostLoc) (h : loc.wf p = true) {v : Word} {i : Instr}
    (hrow : ∀ off, locate p off = loc → decodeWrite p off v = i) :
    decode p (.hostWrite .word loc.offset v) = .ok i := by
  obtain ⟨hloc, -⟩ := locate_offset hl loc h
  rw [decode_write_offset hl loc h, hrow _ hloc]

/-- A read of a location's own offset reads that location (R81, R85). -/
theorem decode_read_loc {p : Params} (hl : p.legal = true) (loc : HostLoc) (h : loc.wf p = true) :
    decode p (.hostRead .word loc.offset) = .ok (.read loc) := by
  obtain ⟨hloc, hal⟩ := locate_offset hl loc h
  rw [decode_read_word p (by simpa [alignedOffset] using hal), hloc]

/-- Settles O1: a command word goes through the opcode map, a host access through the location of its offset, and every
other event is its own instruction. -/
theorem eventDecodeOfEncode : Obligations.EventDecodeOfEncode := by
  intro p i hl hw hc
  cases i with
  | nop | tick | encode | txSubmit | rxRelease | clrFlags | park | reserved7 => exact decode_commandWord p _
  | reservedHigh low => exact (decode_commandWord p _).trans (congrArg _ (decodeCommand_reservedHigh low))
  | wCtrl v => exact decode_write_loc hl (.reg .ctrl) rfl fun off ho => by rw [decodeWrite, ho]
  | wTxlen v => exact decode_write_loc hl (.reg .txlen) rfl fun off ho => by rw [decodeWrite, ho]
  | wTxb k v => exact decode_write_loc hl (.txb k) hw fun off ho => by rw [decodeWrite, ho]
  | wRxb k v => exact decode_write_loc hl (.rxb k) hw fun off ho => by rw [decodeWrite, ho]
  | wUnmapped o v => exact decode_write_loc hl (.unmapped o) hw fun off ho => by rw [decodeWrite, ho]
  | wReadonly r v => exact decode_write_readonly p (by simpa [Instr.wf] using hw) v
  | read loc => exact decode_read_loc hl loc hw
  | den v | byteDone b | tb | reset => rfl
  | rxSync x | rxUnexpected x | rxBodyByte x | rxDrainByte x | txGrant x | txCollision x | txUnexpected x
  | txDataByte x | stray x | norespByte x => simp [byteContext] at hc

/-! ## Byte classes -/

/-- The instructions with a point of control are the byte-class rows (R118, R119). -/
theorem exists_byteClass {i : Instr} {ctx : SeqState × Bool} (hc : byteContext i = some ctx) :
    ∃ (c : ByteClass) (x : Byte), i = c.instr x := by
  cases i with
  | rxSync x => exact ⟨.rxSync, x, rfl⟩
  | rxUnexpected x => exact ⟨.rxUnexpected, x, rfl⟩
  | rxBodyByte x => exact ⟨.rxBody, x, rfl⟩
  | rxDrainByte x => exact ⟨.rxDrain, x, rfl⟩
  | txGrant x => exact ⟨.txGrant, x, rfl⟩
  | txCollision x => exact ⟨.txCollision, x, rfl⟩
  | txUnexpected x => exact ⟨.txUnexpected, x, rfl⟩
  | txDataByte x => exact ⟨.txData, x, rfl⟩
  | stray x => exact ⟨.stray, x, rfl⟩
  | norespByte x => exact ⟨.noresp, x, rfl⟩
  | _ => simp [byteContext] at hc

/-- A byte-class row is carried by the BYTE_DONE of its own byte. -/
theorem encode_byteClass (c : ByteClass) (x : Byte) : encode (c.instr x) = .byteDone x := by
  cases c <;> rfl

/-- At a row's point of control its byte has the row's class. A COLLISION is no grant because CTS_BYTE differs from
SYNC_BYTE (R8). -/
theorem classifyByte_of_context {p : Params} (hl : p.legal = true) {c : ByteClass} {x : Byte} {q : SeqState} {r : Bool}
    (hw : (c.instr x).wf p = true) (hc : byteContext (c.instr x) = some (q, r)) : classifyByte p q r x = some c := by
  obtain ⟨hne, -⟩ := Params.legal_bounds hl
  cases c with
  | rxBody | rxDrain | txData | stray | noresp => cases hc; rfl
  | rxSync =>
    cases hc
    have hx : x = p.syncByte := by simpa [ByteClass.instr, Instr.wf] using hw
    simp [classifyByte, hx]
  | rxUnexpected =>
    cases hc
    have hx : x ≠ p.syncByte := by simpa [ByteClass.instr, Instr.wf] using hw
    simp [classifyByte, hx]
  | txGrant =>
    cases hc
    have hx : x = p.ctsByte := by simpa [ByteClass.instr, Instr.wf] using hw
    simp [classifyByte, hx]
  | txCollision =>
    cases hc
    have hx : x = p.syncByte := by simpa [ByteClass.instr, Instr.wf] using hw
    simp [classifyByte, hx, hne.symm]
  | txUnexpected =>
    cases hc
    have hx : x ≠ p.syncByte ∧ x ≠ p.ctsByte := by simpa [ByteClass.instr, Instr.wf] using hw
    simp [classifyByte, hx]

/-- Settles O2: the row is the one of its class and its byte, and at its point of control the byte has that class. -/
theorem byteClassDecodeOfEncode : Obligations.ByteClassDecodeOfEncode := by
  intro p i q r x hl hw hc hx
  obtain ⟨c, y, rfl⟩ := exists_byteClass hc
  obtain rfl : y = x := Event.byteDone.inj ((encode_byteClass c y).symm.trans hx)
  rw [classifyByte_of_context hl hw hc]
  rfl

/-! ## Words of the opcode table -/

/-- A 32-bit word of the table is written to CMD (log 13). -/
theorem decodeTableWord_command (w : Nat) : decodeTableWord 32 w = some (decodeCommand (BitVec.ofNat 32 w)) := by
  simp [decodeTableWord, tableEvent, tableCommand, decode_write_cmd]

/-- A 16-bit word of the table is the offset of a write of 0 (log 13). -/
theorem decodeTableWord_offset {w : Nat} (ha : w % 4 = 0) :
    decodeTableWord 16 w = some (decodeWrite Config.tc (BitVec.ofNat 13 w) 0#32) := by
  have hoff : (BitVec.ofNat 13 w).toNat % 4 = 0 := by simp; omega
  simp [decodeTableWord, tableEvent, tableCommand, decode, accessError_eq_none_iff.mpr ⟨rfl, hoff⟩]

/-- Settles O6: each word goes through the opcode map or the layout of R81, evaluated with TC. -/
theorem sampleWordsDecode : Obligations.SampleWordsDecode := by
  unfold Obligations.SampleWordsDecode
  simp only [decodeTableWord_command, decodeTableWord_offset]
  decide

end Sys2Proof

/-! PROOFS. The frame codec (spec/40_codec.md R150 to R160): the frame ENCODE leaves in the transmit buffer, and what
VALIDATE answers on a frame in the ring, whole or changed. -/

namespace Sys2Proof.Machine

variable {s : State}

/-! ## ENCODE -/

/-- MESSAGE_ID and payload as the host wrote them for ENCODE: TXB[2..L+1] (R160). -/
def State.txbBody (s : State) : List Byte := (List.range s.encodeLen).map fun j => s.txbByte (j + 2)

@[simp] theorem State.txbBody_length (s : State) : s.txbBody.length = s.encodeLen := by simp [State.txbBody]

theorem State.txbBytes_succ_cons (s : State) (n : Nat) :
    s.txbBytes (n + 1) = s.txbByte 0 :: (List.range n).map fun j => s.txbByte (j + 1) := by
  simp [State.txbBytes, List.range_succ_eq_map, Function.comp_def]

/-- The bytes ENCODE checksums are SYNC_BYTE, TXB[1] and the body: the new TXB[0], then TXB[1..L+1] (R151, R160). -/
theorem State.frameHead_txbBody (s : State) :
    frameHead s.cfg s.txbBody
      = s.cfg.syncByte :: (List.range (s.encodeLen + 1)).map fun j => s.txbByte (j + 1) := by
  have hlen : BitVec.ofNat 8 s.encodeLen = s.txbByte 1 := by simp [State.encodeLen]
  simp [frameHead, hlen, State.txbBody, List.range_succ_eq_map, Function.comp_def]

/-- ENCODE's first write, TXB[0] <- SYNC_BYTE, completes the head of the frame (R160). -/
theorem State.txbBytes_setTxb_sync (s : State) :
    (s.setTxb 0 s.cfg.syncByte).txbBytes (s.encodeLen + 2) = frameHead s.cfg s.txbBody := by
  simp [State.txbBytes_succ_cons, State.frameHead_txbBody]

/-- TXB after ENCODE's two writes: the checksum is that of the frame's head (R160). -/
theorem State.buildFrame_txbByte (s : State) (k : Nat) :
    (s.buildFrame s.encodeLen).txbByte k =
      if k = 0 then s.cfg.syncByte
      else if k = s.encodeLen + 2 then cksum (frameHead s.cfg s.txbBody) else s.txbByte k := by
  have hread : (s.buildFrame s.encodeLen).txbByte k
      = ((s.setTxb 0 s.cfg.syncByte).setTxb (s.encodeLen + 2)
          (cksum ((s.setTxb 0 s.cfg.syncByte).txbBytes (s.encodeLen + 2)))).txbByte k := rfl
  rw [hread, State.txbBytes_setTxb_sync, State.txbByte_setTxb, State.txbByte_setTxb]
  by_cases h0 : k = 0 <;> simp [h0]

/-- The buffer up to the checksum is the head of the frame. -/
theorem State.buildFrame_txbBytes_head (s : State) :
    (s.buildFrame s.encodeLen).txbBytes (s.encodeLen + 2) = frameHead s.cfg s.txbBody := by
  rw [← State.txbBytes_setTxb_sync]
  refine List.map_congr_left fun k hk => ?_
  have hlt : k < s.encodeLen + 2 := List.mem_range.mp hk
  rw [State.buildFrame_txbByte, State.txbByte_setTxb, if_neg (show k ≠ s.encodeLen + 2 by omega)]

/-- ENCODE leaves the frame of the host's body in the buffer. -/
theorem State.buildFrame_txbBytes (s : State) :
    (s.buildFrame s.encodeLen).txbBytes (s.encodeLen + 3) = frameOf s.cfg s.txbBody := by
  rw [State.txbBytes_succ, State.buildFrame_txbBytes_head, State.buildFrame_txbByte, frameOf_eq]
  simp

/-- A length byte and 3 never wrap in the nine bits of TXLEN. -/
theorem State.buildFrame_txlen_toNat (s : State) : (s.buildFrame s.encodeLen).txlen.toNat = s.encodeLen + 3 := by
  have hbyte : s.encodeLen < 256 := (s.txbByte 1).isLt
  show (BitVec.ofNat 9 (s.encodeLen + 3)).toNat = _
  rw [BitVec.toNat_ofNat]
  omega

/-- ENCODE is refused while a transmit is requested, when parked, or with a length too large (R160). -/
theorem exec_encode_refused (h : s.txreq = true ∨ s.seq = .noResponse ∨ s.cfg.maxLength < s.encodeLen) :
    exec .encode s = .next (s.setFlag .cmderr) := by
  rcases h with h | h | h <;> simp [exec, execEncode, h]

/-- Otherwise ENCODE builds the frame (R160). -/
theorem exec_encode_accepted (hreq : s.txreq = false) (hq : s.seq ≠ .noResponse)
    (hlen : s.encodeLen ≤ s.cfg.maxLength) :
    exec .encode s = .next (s.buildFrame s.encodeLen) := by
  simp [exec, execEncode, hreq, hq, Nat.not_lt.mpr hlen]

/-- Settles O28: one clause for the refusals, one for the frame that is built. -/
theorem encodeBuildsOrRefuses : Obligations.EncodeBuildsOrRefuses := by
  intro s len
  split
  · next hrefused =>
    rw [exec_encode_refused hrefused]
    simp [State.setFlag, State.setFlagIf, Flags.raiseIf]
  · next hfree =>
    obtain ⟨hreq, hq, hlen⟩ := not_or.mp hfree |>.imp_right not_or.mp
    have haccepted := exec_encode_accepted (Bool.eq_false_of_not_eq_true hreq) hq (Nat.le_of_not_lt hlen)
    refine ⟨s.buildFrame s.encodeLen, haccepted, rfl, fun k => ?_, rfl⟩
    rw [State.buildFrame_txbByte, State.frameHead_txbBody]
    rfl

/-- Settles O29: an accepted ENCODE is `buildFrame`, whose buffer is the frame of the host's body. -/
theorem encodedBufferIsAFrame : Obligations.EncodedBufferIsAFrame := by
  intro s t hreq hq hlen hx
  obtain rfl := Host.Outcome.next.inj ((exec_encode_accepted hreq hq hlen).symm.trans hx)
  rw [State.buildFrame_txlen_toNat]
  exact ⟨rfl, s.buildFrame_txbBytes⟩

/-! ## VALIDATE on a frame -/

variable {k n : Nat}

/-- A verdict OK comes with neither flag (R152). -/
theorem State.validate_eq_of_ok {ovf : Bool} (h : (s.validate k n ovf).verdict = .ok) :
    s.validate k n ovf = { verdict := .ok, lenBad := false, ckBad := false } := by
  obtain ⟨rfl, hn, hsize, hck⟩ := State.validate_ok h
  rw [State.validate_judged hn, ← hsize, hck]
  simp

/-- Settles O54: one more byte is one more step of the fold, and the verdict OK on a frame leaves no flag. -/
theorem validateAcceptsEveryFrame : Obligations.ValidateAcceptsEveryFrame := by
  refine ⟨⟨cksum_nil, fun bs x => ?_⟩, fun s k body hb h => State.validate_eq_of_ok (State.validate_frame hb h)⟩
  rw [cksum_append_list, cksum_cons, cksum_nil, BitVec.xor_zero]

/-! ## VALIDATE on a changed frame -/

/-- The checksum test of VALIDATE on bytes that end in `c`. -/
theorem State.validate_ckBad {front : List Byte} {c : Byte} (hn : front.length = n) (hpos : 1 ≤ n)
    (h : s.frameBytes k (n + 1) = front ++ [c]) : (s.validate k (n + 1) false).ckBad = (cksum front != c) := by
  obtain ⟨hfront, hlast⟩ := State.frameBytes_split hn h
  rw [State.validate_judged (by omega), Nat.add_sub_cancel, hfront, hlast]

/-- Changing one byte to a different one changes the fold. -/
theorem cksum_set_ne {l : List Byte} {i : Nat} {b : Byte} (hi : i < l.length) (h : l[i]? ≠ some b) :
    cksum (l.set i b) ≠ cksum l := by
  have hget : l[i]? = some l[i] := List.getElem?_eq_getElem hi
  intro heq
  rw [cksum_set l i b _ hget, BitVec.xor_assoc] at heq
  have hx : l[i] ^^^ b = 0#8 := by simpa using heq
  exact h (hget.trans (congrArg some (BitVec.xor_eq_zero_iff.mp hx)))

/-- In a frame with one byte changed, the last byte is not the checksum of the others: either one of them changed and
the last byte did not, or the other way round (R156 law 2). -/
theorem frameOf_set_breaks_cksum {p : Params} {body : List Byte} {j : Nat} {b : Byte} (hj : j < body.length + 3)
    (h : (frameOf p body)[j]? ≠ some b) :
    ∃ front c, (frameOf p body).set j b = front ++ [c] ∧ front.length = body.length + 2 ∧ cksum front ≠ c := by
  rw [frameOf_eq] at h ⊢
  by_cases hlt : j < (frameHead p body).length
  · rw [List.getElem?_append_left hlt] at h
    exact ⟨(frameHead p body).set j b, _, List.set_append_left _ _ hlt, by simp, cksum_set_ne hlt h⟩
  · obtain rfl : j = (frameHead p body).length := by rw [frameHead_length] at hlt ⊢; omega
    have hset : (frameHead p body ++ [cksum (frameHead p body)]).set (frameHead p body).length b
        = frameHead p body ++ [b] := by
      rw [List.set_append_right _ _ (Nat.le_refl _), Nat.sub_self]
      rfl
    exact ⟨frameHead p body, b, hset, rfl, fun heq => h (by rw [List.getElem?_concat_length, heq])⟩

/-- Settles O55: wherever the byte is, the checksum test fails, and a verdict OK would say that it does not. -/
theorem validateCatchesEveryByteChange : Obligations.ValidateCatchesEveryByteChange := by
  intro s k body j b _ hj hne h
  obtain ⟨front, c, hset, hfront, hck⟩ := frameOf_set_breaks_cksum hj hne
  have hbad : (s.validate k (body.length + 3) false).ckBad = true := by
    rw [State.validate_ckBad hfront (by omega) (h.trans hset)]
    simpa using hck
  refine ⟨fun hok => ?_, hbad⟩
  rw [State.validate_eq_of_ok hok] at hbad
  exact Bool.false_ne_true hbad

/-! ## The order of the tests, and two changes that cancel -/

/-- A count below 2 or other than LENGTH + 3 is a length error, whatever the checksum (R152, R156 law 4). -/
theorem State.validate_length (h : n < 2 ∨ n ≠ s.frameSize k) :
    (s.validate k n false).verdict = .errLength ∧ (s.validate k n false).lenBad = true := by
  by_cases hshort : n < 2
  · simp [State.validate_short hshort]
  · have hsize : n ≠ s.frameSize k := h.resolve_left hshort
    simp [State.validate_judged (Nat.not_lt.mp hshort), hsize]

/-- The same XOR change of two bytes leaves the fold as it was. -/
theorem cksum_set_set {l : List Byte} {i j : Nat} {m x y : Byte} (hij : i ≠ j) (hx : l[i]? = some x)
    (hy : l[j]? = some y) : cksum ((l.set i (x ^^^ m)).set j (y ^^^ m)) = cksum l := by
  have cancel (a b : Byte) : a ^^^ b ^^^ (b ^^^ m) = a ^^^ m := by
    rw [BitVec.xor_assoc, ← BitVec.xor_assoc b b m, BitVec.xor_self, BitVec.zero_xor]
  rw [cksum_set _ j _ y (by rw [List.getElem?_set_ne hij, hy]), cksum_set l i _ x hx, cancel, cancel, BitVec.xor_assoc,
    BitVec.xor_self, BitVec.xor_zero]

/-- The byte at index i + 2 of a frame, up to the last but one, is byte i of its body. -/
theorem frameOf_body_get (p : Params) {body : List Byte} {i : Nat} (hi : i < body.length) :
    (frameOf p body)[i + 2]? = body[i]? :=
  List.getElem?_append_left (Nat.add_lt_add_right hi 2)

/-- A frame with the same XOR change of two bytes of its body is the frame of the changed body (R156 law 3). -/
theorem frameOf_set_set {p : Params} {body : List Byte} {i j : Nat} {m x y : Byte} (hi : i < body.length)
    (hj : j < body.length) (hij : i ≠ j) (hx : body[i]? = some x) (hy : body[j]? = some y) :
    ((frameOf p body).set (i + 2) (x ^^^ m)).set (j + 2) (y ^^^ m)
      = frameOf p ((body.set i (x ^^^ m)).set j (y ^^^ m)) := by
  have hck := cksum_set_set (m := m) hij hx hy
  simp [frameOf, hck, List.set_append_left, hi, hj]

/-- Settles O56: the tests in their order, and law 3 by law 1 on the changed body. -/
theorem validateVerdictOrder : Obligations.ValidateVerdictOrder := by
  refine ⟨fun s k n => State.validate_overflow, fun s k n h => State.validate_length h, ?_⟩
  intro s k body i j m x y hb hi hij hj hx hy h
  obtain ⟨i, rfl⟩ : ∃ a, i = a + 2 := ⟨i - 2, by omega⟩
  obtain ⟨j, rfl⟩ : ∃ a, j = a + 2 := ⟨j - 2, by omega⟩
  have hi' : i < body.length := by omega
  have hj' : j < body.length := by omega
  rw [frameOf_body_get _ hi'] at hx
  rw [frameOf_body_get _ hj'] at hy
  rw [frameOf_set_set hi' hj' (by omega) hx hy] at h
  have hsize : ((body.set i (x ^^^ m)).set j (y ^^^ m)).length = body.length := by simp
  rw [← hsize] at hb h ⊢
  exact State.validate_eq_of_ok (State.validate_frame hb h)

end Sys2Proof.Machine

/-! PROOFS. Reception (spec/41_receive.md R180 to R192): what stands in the ring stays there, and what a received byte
and the fall of DEN do. -/

namespace Sys2Proof

/-- Only a RESET event decodes to RESET. -/
theorem decode_eq_reset {p : Params} {e : Event} (h : decode p e = .ok .reset) : e = .reset := by
  cases e with
  | reset => rfl
  | hostWrite w off v =>
    simp only [decode] at h
    split at h
    · simp at h
    · have hw : decodeWrite p off v = .reset := Decoded.ok.inj h
      unfold decodeWrite at hw
      split at hw
      · unfold decodeCommand at hw
        split at hw <;> simp at hw
      all_goals simp at hw
  | hostRead w off =>
    simp only [decode] at h
    split at h <;> simp at h
  | den _ | byteDone _ | tb => simp [decode] at h

namespace Machine

variable {s t : State}

/-! ## What the ring holds -/

/-- No instruction without a received byte writes RXB, but RESET. -/
theorem Effect.keeps_rxb {i : Instr} (hreset : i ≠ .reset) (he : Effect s i t) :
    t.rxb = s.rxb ∧ t.epoch = s.epoch := by
  cases he with
  | reset => exact absurd rfl hreset
  | abortReturn _ | buildFrame _ _ => exact ⟨rfl, rfl⟩
  | _ => simp

/-- A byte transfer writes no byte of RXB but the one at RXWR (20_memory.md R92). -/
theorem exec_byteDone_rxb {b : Byte} (hx : exec (.byteDone b) s = .next t) :
    t.epoch = s.epoch ∧ (t.rxb = s.rxb ∨ t.rxb = Memory.put s.rxb s.rxwr.toNat (s.wire b)) := by
  rcases byteDone_row hx with rfl | ⟨c, u, hu, hrow⟩
  · exact ⟨rfl, .inl rfl⟩
  · obtain ⟨-, hepoch, -⟩ := exec_byteClass_holds_txBuffer hrow
    obtain ⟨-, -, hrxb⟩ := exec_byteClass_memory hrow
    rcases hu with rfl | rfl <;> exact ⟨by simpa using hepoch, by simpa using hrxb⟩

/-- RXWR is no index of a stored byte, so a write there leaves every byte from RXRD up to RXWR. -/
theorem State.frameByte_of_write (hl : s.cfg.legal = true) (h : RingCursors s) (hcfg : t.cfg = s.cfg)
    (hepoch : t.epoch = s.epoch) {x : Byte} (hrxb : t.rxb = s.rxb ∨ t.rxb = Memory.put s.rxb s.rxwr.toNat x) {k : Nat}
    (hk : k < s.occ) : t.frameByte s.rxrd.toNat k = s.frameByte s.rxrd.toNat k := by
  rcases hrxb with hrxb | hrxb
  · exact State.frameByte_congr hcfg hrxb hepoch _ _
  · have hocc := State.occ_lt hl
    have hne : ringAdd s.cfg.rxbufSize s.rxrd.toNat k ≠ s.rxwr.toNat := by
      rw [h.wr_from_rd]
      intro he
      have := ringAdd_inj h.rd (by omega) hocc he
      omega
    simp [State.frameByte, State.rxbByte, hcfg, hepoch, hrxb, Memory.get_put_other _ _ hne]

/-- No step but a RESET changes a byte that the ring holds. -/
theorem step_keeps_stored (hl : s.cfg.legal = true) (h : RingCursors s) (hstep : step s = .next t)
    (hne : s.inbox.head? ≠ some .reset) {k : Nat} (hk : k < s.occ) :
    t.frameByte s.rxrd.toNat k = s.frameByte s.rxrd.toNat k := by
  rcases step_next_cases hstep with ⟨-, ⟨-, rfl⟩ | ⟨e, rest, i, hi, hd, hx⟩⟩
  · rfl
  · have hcfg : t.cfg = s.cfg := (exec_cfg hx).trans rfl
    rcases exec_decoded_cases hd hx with he | ⟨b, hb⟩
    · have hreset : i ≠ .reset := by
        rintro rfl
        simp [hi, decode_eq_reset hd] at hne
      obtain ⟨hrxb, hepoch⟩ := he.keeps_rxb hreset
      exact State.frameByte_congr hcfg hrxb hepoch _ _
    · obtain ⟨hepoch, hrxb⟩ := exec_byteDone_rxb hb
      exact State.frameByte_of_write hl h hcfg hepoch hrxb hk

/-- Settles O22: the unread frames are the first of the bytes the ring holds. -/
theorem unreadFramesAreNeverOverwritten : Obligations.UnreadFramesAreNeverOverwritten := by
  intro s t h hstep hne k hk
  have hpath := h.ring.path
  exact step_keeps_stored h.ctrl.legal h.ring.toRingCursors hstep hne (by omega)

/-! ## A received byte -/

/-- RING_PUT on a full ring drops the byte (20_memory.md R92). -/
theorem State.ringPut_of_full (x : Byte) (h : s.occ = s.cfg.rxbufSize - 1) :
    s.ringPut x =
      { s with ovfCur := true, flags := { s.flags with rxovf := true }, rxcnt := sat16Succ s.rxcnt } := by
  have hf : s.ringFull = true := by simp [State.ringFull, h]
  simp [State.ringPut, hf, Flags.raiseIf]

/-- RING_PUT on a ring with room stores the byte at RXWR (20_memory.md R92). -/
theorem State.ringPut_of_room (x : Byte) (h : s.occ ≠ s.cfg.rxbufSize - 1) :
    s.ringPut x =
      { s.setRxb s.rxwr.toNat x with rxwr := s.advance s.rxwr 1, rxcnt := sat16Succ s.rxcnt } := by
  have hf : s.ringFull = false := by simp [State.ringFull, h]
  simp [State.ringPut, State.setRxb, hf]

/-- RX_SYNC and RX_BODY_BYTE put the byte in the ring and request the next one (R183, R186). -/
theorem exec_stored_byte {x : Byte} {i : Instr} (hi : i = .rxSync x ∨ i = .rxBodyByte x) (s : State) :
    exec i s =
      .next ((s.ringPut x).goto (if i = .rxSync x then .receiving .rxBody else s.seq)).requestByte := by
  rcases hi with rfl | rfl
  · rw [if_pos rfl]; rfl
  · rw [if_neg (by simp)]; rfl

/-- Settles O47: one case for each side of RING_PUT. -/
theorem storedReceiveBytes : Obligations.StoredReceiveBytes := by
  intro x s i hi after
  rw [exec_stored_byte hi]
  refine ⟨fun hfull => ?_, fun hroom => ⟨_, rfl, ?_, fun k => ?_, ?_⟩⟩
  · rw [State.ringPut_of_full x hfull]; rfl
  · rw [State.ringPut_of_room x hroom]; rfl
  · rw [State.ringPut_of_room x hroom]
    exact s.rxbByte_setRxb s.rxwr.toNat x k
  · rw [State.ringPut_of_room x hroom]; rfl

/-- Settles O48: neither row stores its byte. -/
theorem drainedReceiveBytes : Obligations.DrainedReceiveBytes := by
  intro x s counted
  refine ⟨rfl, ?_⟩
  show Host.Outcome.next _ = _
  simp [State.unexpectedFirst, State.countRxByte, State.goto, State.requestByte, State.pulseDrdy, Flags.raiseIf, counted,
    sat16Succ]

/-- Settles O49: STRAY is one update of one counter. -/
theorem strayIsCounted : Obligations.StrayIsCounted := fun _ _ => rfl

/-! ## VALIDATE by flag -/

section Validate

variable {k n : Nat} (ovf : Bool)

/-- The length flag (40_codec.md R152). -/
theorem State.validate_lenBad_eq :
    (s.validate k n ovf).lenBad = decide (ovf = false ∧ (n < 2 ∨ n ≠ s.frameSize k)) := by
  cases ovf with
  | true => simp [State.validate_overflow]
  | false =>
    by_cases hn : n < 2
    · simp [State.validate_short hn, hn]
    · rw [State.validate_judged (Nat.not_lt.mp hn), Bool.eq_iff_iff]; simp [hn]

/-- The checksum flag (40_codec.md R152). -/
theorem State.validate_ckBad_eq :
    (s.validate k n ovf).ckBad =
      decide (ovf = false ∧ 2 ≤ n ∧ cksum (s.frameBytes k (n - 1)) ≠ s.frameByte k (n - 1)) := by
  cases ovf with
  | true => simp [State.validate_overflow]
  | false =>
    by_cases hn : n < 2
    · simp [State.validate_short hn, Nat.not_le.mpr hn]
    · have hn : 2 ≤ n := Nat.not_lt.mp hn
      rw [State.validate_judged hn, Bool.eq_iff_iff]; simp [hn]

/-- The verdict by its flags, in the order of R153. -/
theorem State.validate_verdict :
    (s.validate k n ovf).verdict =
      if ovf then .errOverflow
      else if (s.validate k n ovf).lenBad then .errLength
      else if (s.validate k n ovf).ckBad then .errChecksum
      else .ok := by
  cases ovf with
  | true => rfl
  | false =>
    by_cases hn : n < 2
    · simp [State.validate_short hn]
    · simp [State.validate_judged (Nat.not_lt.mp hn)]

end Validate

/-! ## The fall of DEN -/

/-- The fall of DEN in RX_FIRST and RX_BODY runs FINISH_RX (R188). -/
theorem exec_den_fall_receiving (hq : s.seq = .receiving .rxFirst ∨ s.seq = .receiving .rxBody) (hden : s.den = true) :
    exec (.den false) s = .next (s.setDen false).finishRx := by
  rcases hq with hq | hq <;> simp [exec, execDen, hden, State.denFall, hq]

/-- The fall of DEN in RX_DRAIN runs FINISH_DRAIN (R188). -/
theorem exec_den_fall_draining (hq : s.seq = .receiving .rxDrain) (hden : s.den = true) :
    exec (.den false) s = .next (s.setDen false).finishDrain := by
  simp [exec, execDen, hden, State.denFall, hq]

/-- With the verdict OK the fall of DEN accepts the frame (R189, R190). -/
theorem exec_den_fall_accepted (hq : s.seq = .receiving .rxFirst ∨ s.seq = .receiving .rxBody) (hden : s.den = true)
    (hok : s.judge.verdict = .ok) :
    exec (.den false) s =
      .next (State.goto .idle (State.acceptFrame { s.setDen false with reqOut := false, tocnt := 0#16 })) := by
  have hjudge : (s.setDen false).judge = s.judge := rfl
  rw [exec_den_fall_receiving hq hden, State.finishRx, hjudge, if_pos hok]

/-- With any other verdict it rejects the frame (R189, R191). -/
theorem exec_den_fall_rejected (hq : s.seq = .receiving .rxFirst ∨ s.seq = .receiving .rxBody) (hden : s.den = true)
    (hbad : s.judge.verdict ≠ .ok) :
    exec (.den false) s =
      .next (State.goto .idle (State.rejectFrame s.judge { s.setDen false with reqOut := false, tocnt := 0#16 })) := by
  have hjudge : (s.setDen false).judge = s.judge := rfl
  rw [exec_den_fall_receiving hq hden, State.finishRx, hjudge, if_neg hbad]

/-- Settles O41: the three conditions are VALIDATE's, and ACCEPT_FRAME does the rest. -/
theorem validReceptionIsAccepted : Obligations.ValidReceptionIsAccepted := by
  intro s k n hq hden hovf hmin hsize hck
  have hok : s.judge.verdict = .ok := by
    have hsize : n = s.frameSize k := hsize
    have hck : cksum (s.frameBytes k (n - 1)) = s.frameByte k (n - 1) := hck
    rw [State.judge, hovf, State.validate_judged hmin, if_neg (not_not_intro hsize), if_neg (not_not_intro hck)]
  rw [exec_den_fall_accepted hq hden hok]
  rfl

/-- Settles O42: the flags and the code are VALIDATE's, in the order of R153, and REJECT_FRAME does the rest. -/
theorem invalidReceptionIsRejected : Obligations.InvalidReceptionIsRejected := by
  intro s k n lenBad ckBad hq hden hbad
  have hlen : s.judge.lenBad = lenBad := State.validate_lenBad_eq s.ovfCur
  have hck : s.judge.ckBad = ckBad := State.validate_ckBad_eq s.ovfCur
  clear_value lenBad ckBad
  have hverdict : s.judge.verdict =
      if s.ovfCur then .errOverflow else if lenBad then .errLength else .errChecksum := by
    rw [State.judge, State.validate_verdict, ← State.judge, hlen, hck]
    split
    · rfl
    · split
      · rfl
      · next hovf hsize => rw [if_pos (by simpa [hovf, hsize] using hbad)]
  have hnot : s.judge.verdict ≠ .ok := by
    rw [hverdict]
    split
    · simp
    · split <;> simp
  have hcode : s.judge.verdict.errCode =
      if s.ovfCur then .rxOverflow else if lenBad then .lengthMismatch else .checksumMismatch := by
    rw [hverdict, apply_ite Verdict.errCode, apply_ite Verdict.errCode]
    rfl
  rw [exec_den_fall_rejected hq hden hnot, State.rejectFrame, hlen, hck, hcode]
  rfl

/-- Settles O43: FINISH_DRAIN on the state with DEN low. -/
theorem drainedReceptionEnds : Obligations.DrainedReceptionEnds := by
  intro s hq hden
  rw [exec_den_fall_draining hq hden]
  rfl

end Machine
end Sys2Proof

/-! PROOFS. The reception of a whole frame (spec/41_receive.md R183 to R190): its SYNC byte, said once as a step with the
state it ends in, then the rest of the frame and the fall of DEN by `run_frame`. -/

namespace Sys2Proof.Machine

variable {s : State}

/-! ## The SYNC byte -/

/-- The state in which the reception of `s` has stored its SYNC byte, the transfer taken from the inbox (R183). -/
def State.synced (s : State) (rest : List Event) : State :=
  { s.setRxb s.rxwr.toNat s.cfg.syncByte with
    inbox := rest, seq := .receiving .rxBody, rxwr := s.advance s.rxwr 1, rxcnt := 1#16
    trace := s.trace ++ exchanges s.lsbFirst [0x00#8] [s.cfg.syncByte] }

/-- The SYNC byte in RX_FIRST, in the bit order of the port (R180, R183). -/
theorem exec_byteDone_sync (hq : s.seq = .receiving .rxFirst) (hr : s.reqOut = true) :
    exec (.byteDone (wireByte s.lsbFirst s.cfg.syncByte)) s =
      exec (.rxSync s.cfg.syncByte) (s.takeByte (wireByte s.lsbFirst s.cfg.syncByte)) := by
  have hx : s.wire (wireByte s.lsbFirst s.cfg.syncByte) = s.cfg.syncByte := wireByte_wireByte _ _
  rw [exec_byteDone_requested (c := .rxSync) hr hq rfl (by simp [classifyByte, hx]), hx]
  rfl

/-- On a ring with room the SYNC byte is stored and the next byte requested. -/
theorem step_sync {rest : List Event} (h : Good s) (hq : s.seq = .receiving .rxFirst)
    (hroom : s.occ ≠ s.cfg.rxbufSize - 1)
    (hi : s.inbox = .byteDone (wireByte s.lsbFirst s.cfg.syncByte) :: rest) : step s = .next (s.synced rest) := by
  have hr : s.reqOut = true := by simp [h.ctrl.reqOut, hq]
  have hfloat : s.linesFloat = false := h.ctrl.lines_driven (by simp [hq])
  have htxout : s.txout = 0#8 := h.ctrl.txoutZero (by simp [hq])
  obtain ⟨-, hcnt, -⟩ := h.ring.first hq
  refine (step_of_decode h.ctrl.legal hi rfl).trans
    ((exec_byteDone_sync (s := { s with inbox := rest }) hq hr).trans ?_)
  rw [exec_stored_byte (.inl rfl), if_pos rfl, State.ringPut_of_room _ (by exact hroom)]
  simp [State.synced, State.requestByte, State.pulseDrdy, State.goto, State.takeByte, State.emitXfer, State.emit,
    State.setRxb, State.advance, State.wire, sat16Succ, hr, hfloat, htxout, hcnt]

/-- The state after the SYNC byte is good again, with one byte stored and counted. -/
theorem Good.synced {rest : List Event} (h : Good s) (hq : s.seq = .receiving .rxFirst)
    (hstep : step s = .next (s.synced rest)) :
    Good (s.synced rest) ∧ (s.synced rest).partialSpan = 1 ∧ (s.synced rest).occ = s.occ + 1
      ∧ (s.synced rest).frameByte s.rxparse.toNat 0 = s.cfg.syncByte := by
  obtain ⟨hcur, -, hovf⟩ := h.ring.first hq
  have hring : RingInv (s.synced rest) := stepKeepsRing _ _ h.ctrl h.ring hstep
  have hgood : Good (s.synced rest) :=
    ⟨stepKeepsControl _ _ h.ctrl hstep, hring, stepKeepsMemory _ _ h.ring.wr h.mem hstep⟩
  obtain ⟨hspan, -, hsync⟩ := hring.body rfl hovf
  have hspan : (s.synced rest).partialSpan = 1 := hspan
  have hempty : s.partialSpan = 0 := by rw [State.partialSpan, hcur, ringDist_self h.ring.parse]
  have hpath := h.ring.path
  have hpath' := hring.path
  have hunread : (s.synced rest).unreadSpan = s.unreadSpan := rfl
  exact ⟨hgood, hspan, by omega, hsync⟩

@[simp] theorem State.synced_seq (s : State) (rest : List Event) : (s.synced rest).seq = .receiving .rxBody := rfl

theorem State.synced_rxbByte (s : State) (rest : List Event) (k : Nat) :
    (s.synced rest).rxbByte k = if k = s.rxwr.toNat then s.cfg.syncByte else s.rxbByte k :=
  s.rxbByte_setRxb s.rxwr.toNat s.cfg.syncByte k

/-- A byte of the ring outside the `n + 1` from RXPARSE on is none of those the SYNC byte and `n` more are stored at. -/
theorem State.synced_outside (h : Good s) (hcur : s.rxwr = s.rxparse) (rest : List Event) {n k : Nat}
    (hk : ∀ i, i < n + 1 → ringAdd s.cfg.rxbufSize s.rxparse.toNat i ≠ k) :
    (s.synced rest).rxbByte k = s.rxbByte k
      ∧ ∀ i, i < n → ringAdd s.cfg.rxbufSize (s.synced rest).rxwr.toNat i ≠ k := by
  constructor
  · have hfirst : k ≠ s.rxwr.toNat := by
      rw [hcur, ← ringAdd_zero h.ring.parse]
      exact (hk 0 (by omega)).symm
    rw [State.synced_rxbByte, if_neg hfirst]
  · intro i hi
    have hwr : (s.synced rest).rxwr.toNat = ringAdd s.cfg.rxbufSize s.rxparse.toNat 1 := by
      rw [← hcur]
      exact State.advance_toNat h.ctrl.legal s.rxwr 1
    rw [hwr, ringAdd_ringAdd]
    exact hk (1 + i) (by omega)

/-! ## The frame -/

/-- The bytes of a frame behind its SYNC byte (30_encoding.md R110). -/
def frameTail (p : Params) (body : List Byte) : List Byte :=
  BitVec.ofNat 8 body.length :: body ++ [cksum (frameHead p body)]

theorem frameOf_eq_cons (p : Params) (body : List Byte) : frameOf p body = p.syncByte :: frameTail p body := rfl

/-- Settles O57: the SYNC byte starts a body, and `run_frame` says how the rest of the frame is received. -/
theorem receptionOfAnyFrame : Obligations.ReceptionOfAnyFrame := by
  intro s body rest frame h hq hbody hfits hi
  have hlen : frame.length = body.length + 3 := frameOf_length s.cfg body
  have hsyncFirst : s.inbox = .byteDone (wireByte s.lsbFirst s.cfg.syncByte) ::
    (transfers s.lsbFirst (frameTail s.cfg body) ++ .den false :: rest) := hi
  let u := s.synced (transfers s.lsbFirst (frameTail s.cfg body) ++ .den false :: rest)
  have hstep : step s = .next u := step_sync h hq (by omega) hsyncFirst
  obtain ⟨hu, hspan, hocc, hsync⟩ := h.synced hq hstep
  obtain ⟨hcur, -, hovf⟩ := h.ring.first hq
  have hroom : u.occ + (body.length + 2) ≤ s.cfg.rxbufSize - 1 := by rw [hocc]; omega
  obtain ⟨t, hrun, htin, htcur, htwr, htstored, htframe, httrace, htcnt, htother, hte⟩ :=
    run_frame (s := u) hu.ctrl.legal hu.ring.toRingCursors rfl hu.ctrl.reqOut (hu.ctrl.lines_driven (by simp))
      (hu.ctrl.den rfl) hovf rfl hspan hsync hbody (frameOf_eq_cons s.cfg body) hroom rfl
  have htxb : t.txb = s.txb := (congrArg State.txb hte :)
  have hepoch : t.epoch = s.epoch := (congrArg State.epoch hte :)
  rw [← hlen] at htwr htframe htcnt hrun
  refine ⟨t, (run_succ hstep).trans hrun, ?_, htcnt, htcur, htwr, htframe, fun k hk => ?_, fun k hk => ?_,
    State.txbByte_congr htxb hepoch, ?_⟩
  -- the other fields
  · rw [htin]
    exact congrArg (fun w : State =>
      { w with
        rxb := s.rxb, rxwr := s.rxwr, rxparse := s.rxparse, rxcnt := s.rxcnt, trace := s.trace, inbox := rest }) hte
  -- the other bytes of the ring
  · obtain ⟨hkept, houtside⟩ := State.synced_outside h hcur _ (n := body.length + 2) fun i hi => hk i (by omega)
    exact (htother k houtside).trans hkept
  -- the unread frames
  · have hpath := h.ring.path
    exact (htstored k (by rw [hocc]; omega)).trans
      (step_keeps_stored h.ctrl.legal h.ring.toRingCursors hstep (by simp [hsyncFirst]) (by omega))
  -- the wire
  · have htxout : u.txout = 0#8 := hu.ctrl.txoutZero (by simp)
    have hframe : frame = s.cfg.syncByte :: frameTail s.cfg body := rfl
    rw [httrace, htxout, hlen, hframe, List.replicate_succ (n := body.length + 2), exchanges_cons]
    simp [u, State.synced]

end Sys2Proof.Machine

/-! PROOFS. The steps of a transmit (spec/42_transmit_collision.md R222 to R233): the edges of DEN, the first byte after
the grant of DEN, and the bytes of the data phase. -/

namespace Sys2Proof.Machine

variable {s t : State}

/-! ## HRDY lowered -/

/-- `HRDY <- 0` shows on the trace if the level was 1 (10_state.md R57). -/
theorem State.setHrdy_false (s : State) :
    s.setHrdy false =
      { s with hrdy := false, trace := if s.hrdy then s.trace ++ [.hrdy false] else s.trace } := by
  cases h : s.hrdy <;> simp [State.setHrdy, h]

/-! ## The edges of DEN -/

/-- Settles O39: both edges are one update. -/
theorem denEdgesOfATransmit : Obligations.DenEdgesOfATransmit :=
  fun _ => ⟨fun hq hden => exec_den_rise hq hden, fun hq hden => exec_den_fall hq hden⟩

/-- The fall of DEN before the last byte takes an abort (R224, R233). -/
theorem exec_den_fall_aborts (hq : s.seq = .transmitting .txWaitCts ∨ s.seq = .transmitting .txData)
    (hden : s.den = true) : exec (.den false) s = .next ((s.setDen false).abort .txLinkDrop) := by
  rcases hq with hq | hq <;> simp [exec, execDen, hden, State.denFall, hq]

/-- ABORT as one update of the state it is taken in (60_exceptions.md R320 to R322). -/
theorem State.abort_eq (c : Cause) (s : State) :
    let busy : Bool := s.txres = .busy
    s.abort c =
      { s with
        hrdy := false, reqOut := false, txout := 0#8, tocnt := 0#16
        trace := if s.hrdy then s.trace ++ [.hrdy false] else s.trace
        txres := if busy then c.txResult else s.txres
        txreq := s.txreq && !busy
        flags := (s.flags.raiseIf busy .txdone).raiseIf true c.flag
        lasterr := c.errCode
        rxparse := s.rxwr, rxrd := s.rxwr, rxunread := 0#10
        cnt := { c.count s.cnt with resync := (c.count s.cnt).resync + 1#32 }
        seq := .aborting } := by
  intro busy
  have hres : (if busy then c.txResult else s.txres) = if s.txres = .busy then c.txResult else s.txres := by
    simp [busy]
  rw [hres, State.abort, State.clearInFlight, State.setHrdy_false]
  rfl

/-- Settles O40: ABORT on the state with DEN low, written out. -/
theorem denFallAbortsATransmit : Obligations.DenFallAbortsATransmit := by
  intro s hq hden busy
  rw [exec_den_fall_aborts hq hden, State.abort_eq]
  simp only [Cause.flag, Flags.raiseIf, Bool.or_true]
  rfl

/-! ## The first byte after DEN rises -/

/-- Settles O50: GRANT is one update after HRDY is lowered. -/
theorem grantStartsTheData : Obligations.GrantStartsTheData := by
  intro x s lowered
  simp only [exec, execTxGrant, State.setHrdy_false]
  rfl

/-- Settles O52: TX_UNEXPECTED is the end of the transmit and the start of a drain. -/
theorem unexpectedGrantByteDrains : Obligations.UnexpectedGrantByteDrains := by
  intro x s lowered
  simp [exec, execTxUnexpected, State.setHrdy_false, State.endTransmit, State.unexpectedFirst, State.beginReception,
    State.countRxByte, State.goto, State.requestByte, State.pulseDrdy, Flags.raiseIf, sat16Succ, lowered]

/-- What COLLIDE does before it stores its byte: the transmit ends with RETRY and a reception starts (R227). -/
def State.retried (s : State) : State :=
  (((s.setHrdy false).endTransmit .retry).noteCollision).beginReception

theorem State.retried_eq (s : State) :
    s.retried =
      { s with
        hrdy := false, txreq := false, txres := .retry
        flags := { s.flags with txdone := true, coll := true }
        cnt := { s.cnt with collision := s.cnt.collision + 1#32 }
        rxcnt := 0#16, ovfCur := false, tocnt := 0#16
        trace := if s.hrdy then s.trace ++ [.hrdy false] else s.trace } := by
  simp [State.retried, State.setHrdy_false, State.endTransmit, State.noteCollision, State.beginReception, Flags.raiseIf]

/-- COLLIDE goes on from there as the reception of its byte (R227). -/
theorem exec_txCollision (x : Byte) (s : State) :
    exec (.txCollision x) s = .next ((s.retried.ringPut x).goto (.receiving .rxBody)).requestByte := rfl

/-- Settles O51: one case for each side of RING_PUT. -/
theorem collisionHandsOverToReceive : Obligations.CollisionHandsOverToReceive := by
  intro x s lowered after
  rw [exec_txCollision]
  refine ⟨fun hfull => ?_, fun hroom => ⟨_, rfl, ?_, fun k => ?_, ?_⟩⟩
  · rw [State.ringPut_of_full (s := s.retried) x hfull, State.retried_eq]; rfl
  · rw [State.ringPut_of_room (s := s.retried) x hroom]; rfl
  · rw [State.ringPut_of_room (s := s.retried) x hroom]
    exact s.rxbByte_setRxb s.rxwr.toNat x k
  · rw [State.ringPut_of_room (s := s.retried) x hroom, State.retried_eq]; rfl

/-! ## The data phase -/

/-- Settles O53: TXIDX and TXLEN compare as numbers. -/
theorem dataBytesAdvanceTheTransmit : Obligations.DataBytesAdvanceTheTransmit := by
  intro x s pulsed
  simp only [exec, execTxDataByte, BitVec.lt_def]
  split
  · rfl
  · simp [State.lastByteDone, State.endTransmit, State.pulseDrdy, State.goto, Flags.raiseIf, pulsed]

end Sys2Proof.Machine

/-! PROOFS. What moves HRDY (spec/42_transmit_collision.md R236). -/

namespace Sys2Proof.Machine

variable {s t : State}

/-- How an event-level instruction can treat HRDY: it leaves the level and takes no abort, it starts a transmit, or it is
one of the four causes of a fall. -/
inductive HrdyChange (s : State) (i : Instr) (t : State) : Prop
  | kept (hhrdy : t.hrdy = s.hrdy) (hseq : t.seq = .aborting → s.seq = .aborting)
  | raised (hi : i = .tick) (hq : s.seq = .idle) (hden : s.den = false) (hreq : s.txreq = true) (ht : t = s.startTx)
  | lowered (hhrdy : t.hrdy = false)
      (hcause : (∃ b, i = .byteDone b ∧ s.seq = .transmitting .txWaitCts) ∨ (t.seq = .aborting ∧ s.seq ≠ .aborting) ∨
        i = .park ∨ i = .reset)

theorem Effect.hrdy {i : Instr} (he : Effect s i t) : HrdyChange s i t := by
  cases he with
  | startTx hq hden hreq => exact .raised rfl hq hden hreq rfl
  | linkDrop _ hq =>
    have hne : s.seq ≠ .aborting := by rcases hq with hq | hq <;> simp [hq]
    exact .lowered (by simp) (.inr (.inl ⟨by simp, hne⟩))
  | rxTimeout hq _ | txTimeout hq _ =>
    have hne : s.seq ≠ .aborting := fun ha => by simp [ha] at hq
    exact .lowered (by simp) (.inr (.inl ⟨by simp, hne⟩))
  | park _ => exact .lowered (by simp) (.inr (.inr (.inl rfl)))
  | reset => exact .lowered rfl (.inr (.inr (.inr rfl)))
  | abortReturn hq => exact .kept rfl fun _ => hq
  | buildFrame _ _ => exact .kept rfl id
  | _ => exact .kept (by simp) (by simp)

/-- A byte transfer lowers HRDY in TX_WAIT_CTS and leaves it in every other phase; it takes no abort. -/
theorem exec_byteDone_hrdy {b : Byte} (hx : exec (.byteDone b) s = .next t) :
    (t.seq = .aborting → s.seq = .aborting)
      ∧ t.hrdy = if s.seq = .transmitting .txWaitCts ∧ s.reqOut = true then false else s.hrdy := by
  rcases byteDone_cases hx with ⟨rfl, hq⟩ | ⟨-, hr, hx⟩ | ⟨-, hq, -, hx⟩ | ⟨-, hq, -, hx⟩ | ⟨-, hq, hx⟩ | ⟨-, hq, hx⟩ |
    ⟨hr, hq, -, hx⟩ | ⟨hr, hq, -, -, hx⟩ | ⟨hr, hq, -, -, hx⟩ | ⟨-, hq, hx⟩
  -- ignored
  · refine ⟨fun ha => ha, ?_⟩
    rcases hq with hq | ⟨-, hq⟩
    · simp [hq]
    · have hne : t.seq ≠ .transmitting .txWaitCts := fun he => by simp [he] at hq
      simp [hne]
  -- STRAY
  · obtain rfl := Host.Outcome.next.inj hx
    simp [hr]
  -- the bytes of a reception
  iterate 4
    obtain rfl := Host.Outcome.next.inj hx
    simp [hq]
  -- TX_GRANT, TX_COLLISION, TX_UNEXPECTED
  iterate 3
    obtain rfl := Host.Outcome.next.inj hx
    simp [hq, hr]
  -- TX_DATA_BYTE
  · obtain rfl := Host.Outcome.next.inj hx
    split <;> simp [hq]

/-- PARK outside NO_RESPONSE drives HRDY low before it floats the lines (43_protocol_tick.md R266). -/
theorem exec_park_hrdy (hq : s.seq ≠ .noResponse) (hx : exec .park s = .next t) : t.hrdy = false := by
  obtain rfl := Host.Outcome.next.inj hx
  simp [hq]

/-- START_TX drives HRDY high (43_protocol_tick.md R262). -/
theorem exec_tick_hrdy (hq : s.seq = .idle) (hden : s.den = false) (hreq : s.txreq = true)
    (hx : exec .tick s = .next t) : t.hrdy = true := by
  obtain rfl := Host.Outcome.next.inj hx
  simp [hq, hden, hreq]

theorem exec_hrdy {i : Instr} (hc : byteContext i = none) (hx : exec i s = .next t) : HrdyChange s i t := by
  rcases exec_cases hx with he | ⟨b, rfl⟩ | ⟨c, x, rfl⟩
  · exact he.hrdy
  · obtain ⟨hseq, hhrdy⟩ := exec_byteDone_hrdy hx
    by_cases hq : s.seq = .transmitting .txWaitCts ∧ s.reqOut = true
    · rw [if_pos hq] at hhrdy
      exact .lowered hhrdy (.inl ⟨b, rfl, hq.1⟩)
    · rw [if_neg hq] at hhrdy
      exact .kept hhrdy hseq
  · cases c <;> simp [ByteClass.instr, byteContext] at hc

/-- Settles O17: three clauses read off what can change HRDY, the other four are the instruction's own effect. -/
theorem hostReadyChanges : Obligations.HostReadyChanges := by
  intro i s t hc hx
  have hchange := exec_hrdy hc hx
  refine ⟨fun hlow hhigh => ?_, fun hhigh hlow => ?_, ?_, ?_, fun hq hne => ?_, ?_, ?_⟩
  · cases hchange with
    | kept hhrdy _ => simp [hhrdy, hlow] at hhigh
    | raised hi hq hden hreq _ => exact ⟨hi, hq, hden, hreq⟩
    | lowered hhrdy _ => simp [hhrdy] at hhigh
  · cases hchange with
    | kept hhrdy _ => simp [hhrdy, hhigh] at hlow
    | raised _ _ _ _ ht => simp [ht] at hlow
    | lowered _ hcause => exact hcause
  · rintro rfl hq hden hreq
    exact exec_tick_hrdy hq hden hreq hx
  · rintro b rfl hq hr
    rw [(exec_byteDone_hrdy hx).2, if_pos ⟨hq, hr⟩]
  · cases hchange with
    | kept _ hseq => exact absurd (hseq hq) hne
    | raised _ _ _ _ ht => simp [ht] at hq
    | lowered hhrdy _ => exact hhrdy
  · rintro rfl hq
    exact exec_park_hrdy hq hx
  · rintro rfl
    obtain rfl := Host.Outcome.next.inj hx
    rfl

end Sys2Proof.Machine

/-! PROOFS. A collision with a whole frame behind it (spec/42_transmit_collision.md R227, R229): the SYNC byte ends the
transmit and starts a reception with one byte stored, and `run_frame` receives the rest. -/

namespace Sys2Proof.Machine

variable {s : State}

/-- The SYNC byte in TX_WAIT_CTS is no grant (R8), in either bit order of the port (R180, R227). -/
theorem exec_byteDone_collision (hl : s.cfg.legal = true) (hq : s.seq = .transmitting .txWaitCts)
    (hr : s.reqOut = true) :
    exec (.byteDone (wireByte s.lsbFirst s.cfg.syncByte)) s =
      exec (.txCollision s.cfg.syncByte) (s.takeByte (wireByte s.lsbFirst s.cfg.syncByte)) := by
  obtain ⟨hne, -⟩ := Params.legal_bounds hl
  have hx : s.wire (wireByte s.lsbFirst s.cfg.syncByte) = s.cfg.syncByte := wireByte_wireByte _ _
  rw [exec_byteDone_requested (c := .txCollision) hr hq rfl (by simp [classifyByte, hx, hne.symm]), hx]
  rfl

/-- The state in which the collision of `s` has stored its SYNC byte, the transfer taken from the inbox (R227). -/
def State.collided (s : State) (rest : List Event) : State :=
  { s.setRxb s.rxwr.toNat s.cfg.syncByte with
    inbox := rest, seq := .receiving .rxBody, reqOut := true, hrdy := false, txreq := false, txres := .retry
    flags := { s.flags with txdone := true, coll := true }
    cnt := { s.cnt with collision := s.cnt.collision + 1#32 }
    rxwr := s.advance s.rxwr 1, rxcnt := 1#16, ovfCur := false, tocnt := 0#16
    trace := s.trace ++
      [.xfer (wireByte s.lsbFirst 0x00#8) (wireByte s.lsbFirst s.cfg.syncByte), .hrdy false, .pulse] }

/-- On a ring with room the collision stores the SYNC byte and requests the next one. -/
theorem step_collision {rest : List Event} (h : CtrlInv s) (hq : s.seq = .transmitting .txWaitCts)
    (hroom : s.occ ≠ s.cfg.rxbufSize - 1)
    (hi : s.inbox = .byteDone (wireByte s.lsbFirst s.cfg.syncByte) :: rest) : step s = .next (s.collided rest) := by
  have hr : s.reqOut = true := by simp [h.reqOut, hq]
  have hhrdy : s.hrdy = true := by simp [h.hrdy, hq]
  have hfloat : s.linesFloat = false := h.lines_driven (by simp [hq])
  have htxout : s.txout = 0#8 := h.txoutZero (by simp [hq])
  let u : State := State.takeByte (wireByte s.lsbFirst s.cfg.syncByte) { s with inbox := rest }
  refine (step_of_decode h.legal hi rfl).trans
    ((exec_byteDone_collision (s := { s with inbox := rest }) h.legal hq hr).trans ?_)
  rw [exec_txCollision, State.ringPut_of_room (s := u.retried) _ hroom, State.retried_eq]
  simp [State.collided, u, State.requestByte, State.pulseDrdy, State.goto, State.takeByte, State.emitXfer, State.emit,
    State.setRxb, State.advance, State.wire, sat16Succ, hfloat, htxout, hhrdy]

/-- The state after the collision is good again, with one byte stored and counted. -/
theorem Good.collided {rest : List Event} (h : Good s) (hq : s.seq = .transmitting .txWaitCts)
    (hstep : step s = .next (s.collided rest)) :
    Good (s.collided rest) ∧ (s.collided rest).partialSpan = 1 ∧ (s.collided rest).occ = s.occ + 1
      ∧ (s.collided rest).frameByte s.rxparse.toNat 0 = s.cfg.syncByte := by
  have hring : RingInv (s.collided rest) := stepKeepsRing _ _ h.ctrl h.ring hstep
  have hgood : Good (s.collided rest) :=
    ⟨stepKeepsControl _ _ h.ctrl hstep, hring, stepKeepsMemory _ _ h.ring.wr h.mem hstep⟩
  obtain ⟨hspan, -, hsync⟩ := hring.body rfl rfl
  have hspan : (s.collided rest).partialSpan = 1 := hspan
  have hempty : s.partialSpan = 0 := h.ctrl.partialSpan_zero h.ring.toRingCursors (by simp [hq])
  have hpath := h.ring.path
  have hpath' := hring.path
  have hunread : (s.collided rest).unreadSpan = s.unreadSpan := rfl
  exact ⟨hgood, hspan, by omega, hsync⟩

@[simp] theorem State.collided_seq (s : State) (rest : List Event) :
    (s.collided rest).seq = .receiving .rxBody := rfl

/-- Settles O58: the collision starts a body, `run_frame` says how the rest of the frame is received, and neither the
result of the transmit nor its buffer is touched again. -/
theorem collisionLosesNeitherFrame : Obligations.CollisionLosesNeitherFrame := by
  intro s body rest frame h hq hbody hfits hi
  have hlen : frame.length = body.length + 3 := frameOf_length s.cfg body
  let u := s.collided (transfers s.lsbFirst (frameTail s.cfg body) ++ .den false :: rest)
  have hstep : step s = .next u := step_collision h.ctrl hq (by omega) hi
  obtain ⟨hu, hspan, hocc, hsync⟩ := h.collided hq hstep
  have hroom : u.occ + (body.length + 2) ≤ s.cfg.rxbufSize - 1 := by rw [hocc]; omega
  obtain ⟨t, hrun, htin, -, -, -, htframe, -, -, -, hte⟩ :=
    run_frame (s := u) hu.ctrl.legal hu.ring.toRingCursors rfl rfl (hu.ctrl.lines_driven (by simp)) (hu.ctrl.den rfl) rfl
      rfl hspan hsync hbody (frameOf_eq_cons s.cfg body) hroom rfl
  have htxb : t.txb = s.txb := (congrArg State.txb hte :)
  have hepoch : t.epoch = s.epoch := (congrArg State.epoch hte :)
  rw [← hlen] at htframe hrun
  exact ⟨t, (run_succ hstep).trans hrun, (congrArg State.seq hte :), htin, (congrArg State.rxunread hte :), htframe,
    (congrArg State.txres hte :), (congrArg State.txreq hte :), (congrArg State.txlen hte :),
    State.txbByte_congr htxb hepoch, (congrArg State.flags hte :), (congrArg State.lasterr hte :),
    (congrArg State.cnt hte :)⟩

end Sys2Proof.Machine

/-! PROOFS. The protocol state machine (spec/43_protocol_tick.md R260 to R271): what TICK, PARK and a DEN event outside
a transfer do, what starts a transfer, and that only RESET leaves NO_RESPONSE. -/

namespace Sys2Proof.Machine

variable {s t : State} {i : Instr}

/-! ## What two updates leave of the control -/

@[simp] theorem State.abortReturn_seq (s : State) : s.abortReturn.seq = .idle := (rfl)

@[simp] theorem State.abortReturn_txreq (s : State) : s.abortReturn.txreq = s.txreq := (rfl)

@[simp] theorem State.buildFrame_seq (len : Nat) (s : State) : (s.buildFrame len).seq = s.seq := (rfl)

@[simp] theorem State.buildFrame_txreq (len : Nat) (s : State) : (s.buildFrame len).txreq = s.txreq := (rfl)

/-! ## TICK -/

/-- TICK in IDLE while DEN is high starts a reception, whatever TXREQ is (R261). -/
theorem exec_tick_startRx (hq : s.seq = .idle) (hden : s.den = true) : exec .tick s = .next s.startRx := by
  simp [exec, execTick, hq, hden]

/-- TICK in IDLE while DEN is low starts the submitted transmit (R262). -/
theorem exec_tick_startTx (hq : s.seq = .idle) (hden : s.den = false) (hreq : s.txreq = true) :
    exec .tick s = .next s.startTx := by
  simp [exec, execTick, hq, hden, hreq]

/-- TICK in IDLE with nothing to start (R260). -/
theorem exec_tick_waits (hq : s.seq = .idle) (hden : s.den = false) (hreq : s.txreq = false) :
    exec .tick s = .next s := by
  simp [exec, execTick, hq, hden, hreq]

/-- TICK in ABORTING is the return from the abort (R264). -/
theorem exec_tick_abortReturn (hq : s.seq = .aborting) : exec .tick s = .next s.abortReturn := by
  simp [exec, execTick, hq]

/-- TICK has no effect while RECEIVING, while TRANSMITTING and in NO_RESPONSE (R263, R267). -/
theorem exec_tick_elsewhere (hidle : s.seq ≠ .idle) (haborting : s.seq ≠ .aborting) : exec .tick s = .next s := by
  cases hq : s.seq with
  | idle => exact absurd hq hidle
  | aborting => exact absurd hq haborting
  | receiving _ | transmitting _ | noResponse => simp [exec, execTick, hq]

/-- Settles O27: each row of R260 is one of the updates above, written out. -/
theorem tickRunsOneState : Obligations.TickRunsOneState := fun _ =>
  ⟨exec_tick_startRx, exec_tick_startTx, exec_tick_waits, exec_tick_abortReturn, exec_tick_elsewhere⟩

/-! ## PARK -/

/-- An open transmit is one submitted or running. -/
theorem TxRes.isOpen_eq (r : TxRes) : r.isOpen = decide (r = .pending ∨ r = .busy) := by
  cases r <;> rfl

/-- PARK while parked is refused (R266). -/
theorem exec_park_refused (hq : s.seq = .noResponse) : exec .park s = .next (s.setFlag .cmderr) := by
  simp [exec, execPark, hq]

/-- PARK in every other state (R266). -/
theorem exec_park_accepted (hq : s.seq ≠ .noResponse) :
    exec .park s = .next (((s.parkTransmit.parkReception.clearInFlight).floatLines).goto .noResponse) := by
  simp [exec, execPark, hq]

/-- Settles O33: HRDY is lowered on the state whose transfer has ended, which has the trace and the level of `s`. -/
theorem parkEntersNoResponse : Obligations.ParkEntersNoResponse := by
  refine fun s => ⟨fun hq => ?_, fun hq => ?_⟩
  · rw [exec_park_refused hq]
    simp [State.setFlag, State.setFlagIf, Flags.raiseIf]
  · intro busy
    have hopen : s.txres.isOpen = busy := s.txres.isOpen_eq
    rw [exec_park_accepted hq, State.clearInFlight, State.setHrdy_false, State.parkTransmit, hopen]
    rfl

/-! ## DEN outside a transfer -/

/-- A DEN event at the present level is no edge (R270). -/
theorem exec_den_same (s : State) : exec (.den s.den) s = .next s := by
  simp [exec, execDen]

/-- Outside RECEIVING and TRANSMITTING a DEN event sets the level (R267, R271). -/
theorem exec_den_quiet (hq : s.seq.quiet = true) (v : Bool) : exec (.den v) s = .next (s.setDen v) := by
  by_cases hv : v = s.den
  · subst hv
    exact exec_den_same s
  · cases hs : s.seq with
    | receiving _ | transmitting _ => simp [hs] at hq
    | idle | aborting | noResponse => cases v <;> simp [exec, execDen, hv, State.denRise, State.denFall, hs]

/-- Settles O38: the three states are those outside a transfer. -/
theorem denLevelOnly : Obligations.DenLevelOnly := by
  refine fun s => ⟨exec_den_same s, fun v hq => exec_den_quiet ?_ v⟩
  rcases hq with hq | hq | hq <;> rw [hq] <;> rfl

/-! ## What leaves NO_RESPONSE -/

/-- No instruction without a received byte leaves NO_RESPONSE, but RESET. -/
theorem Effect.stays_parked (he : Effect s i t) (hq : s.seq = .noResponse) (hreset : i ≠ .reset) :
    t.seq = .noResponse := by
  cases he with
  | reset => exact absurd rfl hreset
  | park hne | submit hne _ _ => exact absurd hq hne
  | startRx hs _ | startTx hs _ _ | abortReturn hs | denGrant _ hs | finishDrain _ hs | denLow _ hs =>
    simp [hq] at hs
  | accept _ hs _ | reject _ hs _ | linkDrop _ hs => simp [hq] at hs
  | countTb hs _ | rxTimeout hs _ | txTimeout hs _ => simp [hq] at hs
  | _ => simpa using hq

/-- Settles O16: a byte transfer while parked is ignored, and only a RESET event decodes to RESET. -/
theorem noResponseIsLeftOnlyByReset : Obligations.NoResponseIsLeftOnlyByReset := by
  intro s t hq hstep hleft
  rcases step_next_cases hstep with ⟨-, ⟨-, rfl⟩ | ⟨e, rest, i, hi, hd, hx⟩⟩
  · exact absurd hq hleft
  · by_cases hreset : i = .reset
    · subst hreset
      simp [hi, decode_eq_reset hd]
    · rcases exec_decoded_cases hd hx with he | ⟨b, hb⟩
      · exact absurd (he.stays_parked hq hreset) hleft
      · have hsame := exec_byteDone_parked (s := { s with inbox := rest }) b hq
        obtain rfl := Host.Outcome.next.inj (hsame.symm.trans hb)
        exact absurd hq hleft

/-! ## What starts a transfer -/

/-- Of the instructions without a received byte only TX_SUBMIT raises TXREQ (R265). -/
theorem Effect.raises_txreq (he : Effect s i t) (ht : t.txreq = true) : s.txreq = true ∨ i = .txSubmit := by
  cases he with
  | submit _ _ _ => exact .inr rfl
  | startTx _ _ hreq => exact .inl hreq
  | linkDrop _ _ | rxTimeout _ _ | txTimeout _ _ =>
    rw [State.abort_txreq, Bool.and_eq_true] at ht
    exact .inl ht.1
  | park _ => simp at ht
  | reset => simp [State.powerOn] at ht
  | _ => exact .inl (by simpa using ht)

/-- No row of a received byte raises TXREQ; three of them clear it. -/
theorem exec_byteClass_txreq {c : ByteClass} {x : Byte} (hx : exec (c.instr x) s = .next t) (ht : t.txreq = true) :
    s.txreq = true := by
  cases c with
  | txData =>
    obtain rfl := Host.Outcome.next.inj hx
    split at ht
    · simpa using ht
    · simp at ht
  | rxSync | rxUnexpected | rxBody | rxDrain | txGrant | stray | noresp =>
    obtain rfl := Host.Outcome.next.inj hx
    simpa using ht
  | txCollision | txUnexpected =>
    obtain rfl := Host.Outcome.next.inj hx
    simp at ht

theorem exec_byteDone_txreq {b : Byte} (hx : exec (.byteDone b) s = .next t) (ht : t.txreq = true) :
    s.txreq = true := by
  rcases byteDone_row hx with rfl | ⟨c, u, hu, hrow⟩
  · exact ht
  · have hreq := exec_byteClass_txreq hrow ht
    rcases hu with rfl | rfl <;> simpa using hreq

/-- Of the instructions without a received byte only TICK enters TRANSMITTING (42_transmit_collision.md R237). -/
theorem Effect.enters_transmitting (he : Effect s i t) (ht : t.seq.isTransmitting = true) :
    s.seq.isTransmitting = true ∨ i = .tick ∧ s.seq = .idle ∧ s.den = false ∧ s.txreq = true := by
  cases he with
  | startTx hq hden hreq => exact .inr ⟨rfl, hq, hden, hreq⟩
  | denGrant _ hq => exact .inl (by simp [hq])
  | startRx _ _ | abortReturn _ | accept _ _ _ | reject _ _ _ | finishDrain _ _ | denLow _ _ => simp at ht
  | linkDrop _ _ | rxTimeout _ _ | txTimeout _ _ | park _ => simp at ht
  | reset => simp [State.powerOn] at ht
  | _ => exact .inl (by simpa using ht)

/-- Of the instructions without a received byte only TICK enters RECEIVING (R261). -/
theorem Effect.enters_receiving (he : Effect s i t) (ht : t.seq.isReceiving = true) :
    s.seq.isReceiving = true ∨ i = .tick ∧ s.seq = .idle ∧ s.den = true := by
  cases he with
  | startRx hq hden => exact .inr ⟨rfl, hq, hden⟩
  | startTx _ _ _ | abortReturn _ | denGrant _ _ | accept _ _ _ | reject _ _ _ | finishDrain _ _ => simp at ht
  | denLow _ _ | linkDrop _ _ | rxTimeout _ _ | txTimeout _ _ | park _ => simp at ht
  | reset => simp [State.powerOn] at ht
  | _ => exact .inl (by simpa using ht)

/-- A byte transfer enters RECEIVING only in TX_WAIT_CTS (42_transmit_collision.md R227, R228), and never enters
TRANSMITTING. -/
theorem exec_byteDone_enters {b : Byte} (hx : exec (.byteDone b) s = .next t) :
    (t.seq.isTransmitting = true → s.seq.isTransmitting = true)
      ∧ (t.seq.isReceiving = true →
        s.seq.isReceiving = true ∨ s.seq = .transmitting .txWaitCts ∧ s.reqOut = true) := by
  rcases byteDone_cases hx with ⟨rfl, -⟩ | ⟨-, -, hx⟩ | ⟨-, hq, -, hx⟩ | ⟨-, hq, -, hx⟩ | ⟨-, hq, hx⟩ | ⟨-, hq, hx⟩ |
    ⟨hr, hq, -, hx⟩ | ⟨hr, hq, -, -, hx⟩ | ⟨hr, hq, -, -, hx⟩ | ⟨-, hq, hx⟩
  -- ignored
  · exact ⟨id, .inl⟩
  -- STRAY
  · obtain rfl := Host.Outcome.next.inj hx
    simpa using Or.inl
  -- the bytes of a reception
  iterate 4
    obtain rfl := Host.Outcome.next.inj hx
    simp [hq]
  -- TX_GRANT, TX_COLLISION, TX_UNEXPECTED
  iterate 3
    exact ⟨fun _ => by simp [hq], fun _ => .inr ⟨hq, hr⟩⟩
  -- TX_DATA_BYTE
  · obtain rfl := Host.Outcome.next.inj hx
    split <;> simp [hq]

/-- Settles O20: what is not a byte transfer starts a transfer by its own effect. -/
theorem whatStartsATransfer : Obligations.WhatStartsATransfer := by
  intro i s t hc hx
  rcases exec_cases hx with he | ⟨b, rfl⟩ | ⟨c, x, rfl⟩
  · refine ⟨fun hs ht => ?_, fun hs ht => ?_, fun hs ht => .inl ?_⟩
    · exact (he.raises_txreq ht).resolve_left (by simp [hs])
    · exact (he.enters_transmitting ht).resolve_left (by simp [hs])
    · exact (he.enters_receiving ht).resolve_left (by simp [hs])
  · obtain ⟨htx, hrx⟩ := exec_byteDone_enters hx
    refine ⟨fun hs ht => ?_, fun hs ht => ?_, fun hs ht => .inr ⟨b, rfl, ?_⟩⟩
    · exact absurd (exec_byteDone_txreq hx ht) (by simp [hs])
    · exact absurd (htx ht) (by simp [hs])
    · exact (hrx ht).resolve_left (by simp [hs])
  · cases c <;> simp [ByteClass.instr, byteContext] at hc

end Sys2Proof.Machine

/-! PROOFS. The host's commands and register writes (spec/44_host_commands.md R280 to R292): what is accepted, what is
refused with CMDERR, and what is ignored. -/

namespace Sys2Proof.Machine

variable {s : State}

/-! ## The refusal, and what is always refused or ignored -/

/-- The refusal of a command or write: CMDERR is set and nothing else changes (R292). -/
theorem State.setFlag_cmderr (s : State) :
    s.setFlag .cmderr = { s with flags := { s.flags with cmderr := true } } := by
  simp [State.setFlag, State.setFlagIf, Flags.raiseIf]

/-- Settles O25: the meaning of each of the three is the state it is given (R284; 20_memory.md R86;
43_protocol_tick.md R267). -/
theorem whatDoesNothing : Obligations.WhatDoesNothing := fun _ => ⟨rfl, fun _ _ => rfl, fun _ => rfl⟩

/-! ## Writes to TXLEN and CTRL -/

/-- A TXLEN write is refused during a transmit, and for a word beyond the buffer (R290). -/
theorem exec_wTxlen_refused {v : Word} (h : s.txreq = true ∨ s.cfg.txbufSize < v.toNat) :
    exec (.wTxlen v) s = .next (s.setFlag .cmderr) := by
  rcases h with h | h
  · simp [exec, execWTxlen, h]
  · simp [exec, execWTxlen, Nat.not_le.mpr h]

/-- Otherwise a TXLEN write stores the field `v[8:0]` (R290). -/
theorem exec_wTxlen_accepted {v : Word} (hreq : s.txreq = false) (hlen : v.toNat ≤ s.cfg.txbufSize) :
    exec (.wTxlen v) s = .next { s with txlen := lenField v } := by
  simp [exec, execWTxlen, hreq, hlen]

/-- A CTRL write outside IDLE is refused (R291). -/
theorem exec_wCtrl_refused (hq : s.seq ≠ .idle) (v : Word) :
    exec (.wCtrl v) s = .next (s.setFlag .cmderr) := by
  simp [exec, execWCtrl, hq]

/-- A CTRL write in IDLE sets the bit order (R291). -/
theorem exec_wCtrl_accepted (hq : s.seq = .idle) (v : Word) :
    exec (.wCtrl v) s = .next { s with lsbFirst := lsbField v } := by
  simp [exec, execWCtrl, hq]

/-- Settles O26: each item of R287 and R292 is the same refusal; those without a test are refused in every state. -/
theorem refusedWritesSetCmderr : Obligations.RefusedWritesSetCmderr := by
  intro s refused
  have hrefused : s.setFlag .cmderr = refused := s.setFlag_cmderr
  refine ⟨?reserved7, fun low => ?reservedHigh, fun r v => ?wReadonly, fun i v => ?wRxb,
    fun i v hreq => (txbWrites i v s).1 hreq, fun v h => ?wTxlen, fun v hq => ?wCtrl, fun _ _ => rfl⟩
  all_goals rw [← hrefused]
  case reserved7 | reservedHigh | wReadonly | wRxb => rfl
  case wTxlen => exact exec_wTxlen_refused h
  case wCtrl => exact exec_wCtrl_refused hq v

/-- Settles O34: each write by its test, the refusals as in R292. -/
theorem controlAndLengthWrites : Obligations.ControlAndLengthWrites := by
  intro v s refused
  have hrefused : s.setFlag .cmderr = refused := s.setFlag_cmderr
  rw [← hrefused]
  constructor
  · split
    · next h =>
      obtain ⟨hreq, hlen⟩ := h
      exact exec_wTxlen_accepted hreq hlen
    · next h => exact exec_wTxlen_refused ((not_and_or.mp h).imp Bool.eq_true_of_not_eq_false Nat.lt_of_not_le)
  · split
    · next hq => exact exec_wCtrl_accepted hq v
    · next hq => exact exec_wCtrl_refused hq v

/-! ## TX_SUBMIT -/

/-- TX_SUBMIT is refused when parked, during a transmit, and for a length no frame has (R280). -/
theorem exec_txSubmit_refused (h : s.seq = .noResponse ∨ s.txreq = true ∨ s.txlen.toNat < 3) :
    exec .txSubmit s = .next (s.setFlag .cmderr) := by
  rcases h with h | h | h <;> simp [exec, execTxSubmit, h]

/-- Otherwise TX_SUBMIT makes the transmit pending (R280). -/
theorem exec_txSubmit_accepted (hq : s.seq ≠ .noResponse) (hreq : s.txreq = false) (hlen : 3 ≤ s.txlen.toNat) :
    exec .txSubmit s = .next
      { s with txreq := true, txres := .pending, flags := { s.flags with txdone := false } } := by
  simp [exec, execTxSubmit, hq, hreq, Nat.not_lt.mpr hlen]

/-- Settles O30: the refusals of R280, or the transmit is pending. -/
theorem txSubmitAcceptsOrRefuses : Obligations.TxSubmitAcceptsOrRefuses := by
  intro s
  rw [← State.setFlag_cmderr]
  split
  · next h => exact exec_txSubmit_refused h
  · next h =>
    obtain ⟨hq, hreq, hlen⟩ := not_or.mp h |>.imp_right not_or.mp
    exact exec_txSubmit_accepted hq (Bool.eq_false_of_not_eq_true hreq) (Nat.le_of_not_lt hlen)

/-! ## RX_RELEASE -/

/-- RX_RELEASE with no unread frame is refused (R282). -/
theorem exec_rxRelease_refused (hun : s.rxunread = 0#10) : exec .rxRelease s = .next (s.setFlag .cmderr) := by
  simp [exec, execRxRelease, hun]

/-- Otherwise RX_RELEASE moves RXRD over the oldest frame (R282). -/
theorem exec_rxRelease_accepted (hun : s.rxunread ≠ 0#10) :
    exec .rxRelease s = .next { s with rxrd := s.advance s.rxrd s.releaseStep, rxunread := s.rxunread - 1#10 } := by
  simp [exec, execRxRelease, hun]

/-- Settles O31: the release step, written out, is the size the frame at RXRD states in its LENGTH byte. -/
theorem rxReleaseFreesTheOldestFrame : Obligations.RxReleaseFreesTheOldestFrame := by
  intro s n rd
  have hstep : s.advance s.rxrd s.releaseStep
      = BitVec.ofNat 10 ((rd + ((s.rxbByte ((rd + 1) % n)).toNat + 3)) % n) := rfl
  rw [← State.setFlag_cmderr, ← hstep]
  split
  · next hun => exact exec_rxRelease_refused hun
  · next hun => exact exec_rxRelease_accepted hun

/-! ## CLR_FLAGS -/

/-- CLR_FLAGS clears the transient flags and LASTERR (R285). -/
theorem exec_clrFlags (s : State) : exec .clrFlags s = .next { s with flags := Flags.clear, lasterr := .none } := rfl

/-- Settles O32: with the two fields put back the state is `s`, so nothing else has changed. -/
theorem clrFlagsClearsFlagsAndLasterr : Obligations.ClrFlagsClearsFlagsAndLasterr := fun s =>
  ⟨{ s with flags := Flags.clear, lasterr := .none }, exec_clrFlags s, Flags.test_clear, rfl, rfl⟩

end Sys2Proof.Machine

/-! PROOFS. The bound of every wait (spec/60_exceptions.md R335): what a TB does, by the state it comes in, and that the
TBs left and one TICK lead to IDLE. -/

namespace Sys2Proof.Machine

variable {s : State}

/-! ## The abort of a timeout -/

/-- The cause of the abort that a timeout takes in a wait (R335). -/
def State.timeoutCause (s : State) : Cause := if s.seq.isReceiving then .rxTimeout else .txTimeout

@[simp] theorem State.timeoutCause_flag (s : State) : s.timeoutCause.flag = .tmo := by
  unfold State.timeoutCause
  split <;> rfl

@[simp] theorem State.timeoutCause_errCode (s : State) :
    s.timeoutCause.errCode = if s.seq.isReceiving then .rxTimeout else .txTimeout := by
  unfold State.timeoutCause
  split <;> rfl

@[simp] theorem State.timeoutCause_txResult (s : State) :
    s.timeoutCause.txResult = if s.seq.isReceiving then .error else .timeout := by
  unfold State.timeoutCause
  split <;> rfl

@[simp] theorem State.timeoutCause_count (s : State) (n : Counters) :
    s.timeoutCause.count n =
      { n with timeout := n.timeout + 1#32, rxFail := if s.seq.isReceiving then n.rxFail + 1#32 else n.rxFail } := by
  unfold State.timeoutCause
  split <;> rfl

/-- No abort leaves a transmit in progress (R320). -/
theorem State.abort_txres_ne_busy (c : Cause) (s : State) : (s.abort c).txres ≠ .busy := by
  rw [State.abort_txres]
  split
  · cases c <;> simp [Cause.txResult]
  · assumption

/-! ## TB -/

/-- Outside a wait a TB is ignored. -/
theorem exec_tb_quiet (hq : s.seq.quiet = true) : exec .tb s = .next s := by
  cases hs : s.seq with
  | receiving _ | transmitting _ => simp [hs] at hq
  | idle | aborting | noResponse => simp [exec, execTb, hs]

/-- In a wait a TB is counted, and the count that reaches T_WAIT takes the abort. -/
theorem exec_tb_waiting (hq : s.seq.quiet = false) :
    exec .tb s =
      .next (if (s.tocnt + 1#16).toNat = s.cfg.tWait then s.countTb.abort s.timeoutCause else s.countTb) := by
  cases hs : s.seq with
  | idle | aborting | noResponse => simp [hs] at hq
  | receiving _ | transmitting _ => simp [exec, execTb, hs, State.timeoutCause]

/-- Settles O44: the abort on the counted state, written out; the count itself is cleared again. -/
theorem tbCountsOrAborts : Obligations.TbCountsOrAborts := by
  refine fun s => ⟨exec_tb_quiet, fun hq hto => ?_, fun hq hto => ?_⟩
  · rw [exec_tb_waiting hq, if_neg hto]
    rfl
  · intro busy rx
    rw [exec_tb_waiting hq, if_pos hto, State.abort_eq, State.timeoutCause_flag, State.timeoutCause_errCode,
      State.timeoutCause_txResult, State.timeoutCause_count]
    simp only [Flags.raiseIf, Bool.or_true]
    rfl

/-! ## A wait to its end -/

/-- TBs that do not reach the bound are only counted. -/
theorem run_countTb {k : Nat} {tail : List Event} (h : CtrlInv s) (hq : s.seq.quiet = false)
    (hlt : s.tocnt.toNat + k < s.cfg.tWait) (hi : s.inbox = List.replicate k .tb ++ tail) :
    Host.Core.run Sys2Proof.core k s = .next { s with tocnt := s.tocnt + BitVec.ofNat 16 k, inbox := tail } := by
  induction k generalizing s with
  | zero => simp [run_zero, ← show s.inbox = tail by simpa using hi]
  | succ k ih =>
    let u : State := { s with inbox := List.replicate k .tb ++ tail }
    have hu : CtrlInv u := { h with }
    have hsucc : u.countTb.tocnt.toNat = s.tocnt.toNat + 1 := h.tocnt_succ
    have hto : (u.tocnt + 1#16).toNat ≠ u.cfg.tWait := by
      rw [hu.tocnt_succ]
      simp only [u]
      omega
    have hx : exec .tb u = .next u.countTb := by rw [exec_tb_waiting (s := u) hq, if_neg hto]
    have hsum : s.tocnt + BitVec.ofNat 16 (k + 1) = s.tocnt + 1#16 + BitVec.ofNat 16 k := by
      rw [Nat.add_comm k, BitVec.ofNat_add, BitVec.add_assoc]
    have hlt' : u.countTb.tocnt.toNat + k < u.countTb.cfg.tWait := by
      rw [hsucc]
      simp only [u, State.countTb_cfg]
      omega
    rw [run_event h.legal hi rfl hx, ih (hu.countTb hq hto) hq hlt' rfl, hsum]
    rfl

/-- The TBs left of a wait end in the abort of its timeout. -/
theorem run_timeout {tail : List Event} (h : CtrlInv s) (hq : s.seq.quiet = false)
    (hi : s.inbox = List.replicate (s.cfg.tWait - s.tocnt.toNat) .tb ++ tail) :
    Host.Core.run Sys2Proof.core (s.cfg.tWait - s.tocnt.toNat) s =
      .next (State.abort s.timeoutCause { s with inbox := tail }) := by
  have hlt := h.tocnt
  obtain ⟨k, hk⟩ : ∃ k, s.cfg.tWait - s.tocnt.toNat = k + 1 := ⟨s.cfg.tWait - s.tocnt.toNat - 1, by omega⟩
  rw [hk, List.replicate_succ', List.append_assoc] at hi
  let u : State := { s with tocnt := s.tocnt + BitVec.ofNat 16 k, inbox := tail }
  have hto : (u.tocnt + 1#16).toNat = u.cfg.tWait := by
    have := Params.legal_bounds h.legal
    simp only [u, BitVec.toNat_add, BitVec.toNat_ofNat]
    omega
  have hx : exec .tb u = .next (u.countTb.abort u.timeoutCause) := by
    rw [exec_tb_waiting (s := u) hq, if_pos hto]
  rw [hk, run_add (run_countTb h hq (by omega) hi)]
  exact run_event (k := 0) h.legal rfl rfl hx

/-- Settles O60: the wait ends in an abort with the cursors equal and nothing in flight, and TICK returns from it. -/
theorem everyWaitIsBounded : Obligations.EveryWaitIsBounded := by
  intro s rest left h hq hi
  let aborted : State := State.abort s.timeoutCause { s with inbox := rest }
  have htick : decode s.cfg (.hostWrite .word 0x004#13 1#32) = .ok .tick := decode_write_cmd s.cfg 1#32
  have hreturn : exec .tick aborted = .next aborted.abortReturn := exec_tick_abortReturn rfl
  have hrun : Host.Core.run Sys2Proof.core (left + 1) s = .next aborted.abortReturn :=
    (run_add (run_timeout h hq hi)).trans (run_event (k := 0) h.legal rfl htick hreturn)
  have hflags : aborted.flags.test .tmo = true := by simp [aborted]
  have hcnt : aborted.cnt.timeout = s.cnt.timeout + 1#32 := by simp [aborted]
  have hcode : aborted.lasterr = if s.seq.isReceiving then .rxTimeout else .txTimeout := by simp [aborted]
  exact ⟨aborted.abortReturn, hrun, rfl, rfl, rfl, rfl, rfl, rfl, rfl, rfl, hflags, hcnt, hcode,
    State.abort_txres_ne_busy _ _⟩

end Sys2Proof.Machine

/-! PROOFS. What the exceptions write and when (spec/60_exceptions.md R310 to R336): what moves CNT_TIMEOUT, TMO and
CNT_RESYNC, what leaves ABORTING, and what writes LASTERR. -/

namespace Sys2Proof

/-- RECEIVING and TRANSMITTING are the states in which a wait is in progress. -/
theorem SeqState.quiet_eq_false_iff {q : SeqState} :
    q.quiet = false ↔ q.isReceiving = true ∨ q.isTransmitting = true := by
  cases q <;> simp

/-- Only a DEN event decodes to DEN. -/
theorem decode_eq_den {p : Params} {e : Event} {v : Bool} (h : decode p e = .ok (.den v)) : e = .den v := by
  cases e with
  | den w => simpa [decode] using h
  | hostWrite w off v' =>
    simp only [decode] at h
    split at h
    · simp at h
    · have hw : decodeWrite p off v' = .den v := Decoded.ok.inj h
      unfold decodeWrite at hw
      split at hw
      · unfold decodeCommand at hw
        split at hw <;> simp at hw
      all_goals simp at hw
  | hostRead w off =>
    simp only [decode] at h
    split at h <;> simp at h
  | byteDone _ | tb | reset => simp [decode] at h

namespace Machine

variable {s t : State} {i : Instr}

/-! ## Timeouts -/

/-- The step from `s` to `t` is the TB that brings a wait to its bound (R335). -/
structure TimesOut (s : State) (i : Instr) (t : State) : Prop where
  instr : i = .tb
  waiting : s.seq.isReceiving = true ∨ s.seq.isTransmitting = true
  bound : (s.tocnt + 1#16).toNat = s.cfg.tWait
  seq : t.seq = .aborting
  count : t.cnt.timeout = s.cnt.timeout + 1#32

/-- Of the instructions without a received byte none but TB and RESET moves CNT_TIMEOUT or sets TMO. -/
theorem Effect.timeout (he : Effect s i t) (hreset : i ≠ .reset) :
    (t.cnt.timeout = s.cnt.timeout ∧ (t.flags.test .tmo = true → s.flags.test .tmo = true)) ∨ TimesOut s i t := by
  cases he with
  | reset => exact absurd rfl hreset
  | rxTimeout hq hto => exact .inr ⟨rfl, .inl hq, hto, by simp, by simp [Cause.count]⟩
  | txTimeout hq hto => exact .inr ⟨rfl, .inr hq, hto, by simp, by simp [Cause.count]⟩
  | linkDrop _ _ => left; simp [Cause.count, Cause.flag]
  | submit _ _ _ => exact .inl ⟨rfl, id⟩
  | abortReturn _ | buildFrame _ _ => exact .inl ⟨rfl, id⟩
  | _ => left; simp

/-- No row of a received byte takes an abort or runs RESYNC (41_receive.md R181 to R187; 42_transmit_collision.md R225
to R231). -/
theorem exec_byteClass_recovery {c : ByteClass} {x : Byte} (hx : exec (c.instr x) s = .next t) :
    t.cnt.timeout = s.cnt.timeout ∧ t.cnt.resync = s.cnt.resync ∧ t.flags.test .tmo = s.flags.test .tmo := by
  cases c with
  | txData =>
    obtain rfl := Host.Outcome.next.inj hx
    split <;> simp
  | rxSync | rxUnexpected | rxBody | rxDrain | txGrant | txCollision | txUnexpected | stray | noresp =>
    obtain rfl := Host.Outcome.next.inj hx
    simp

theorem exec_byteDone_recovery {b : Byte} (hx : exec (.byteDone b) s = .next t) :
    t.cnt.timeout = s.cnt.timeout ∧ t.cnt.resync = s.cnt.resync ∧ t.flags.test .tmo = s.flags.test .tmo := by
  rcases byteDone_row hx with rfl | ⟨c, u, hu, hrow⟩
  · exact ⟨rfl, rfl, rfl⟩
  · have hkept := exec_byteClass_recovery hrow
    rcases hu with rfl | rfl <;> simpa using hkept

/-- An instruction but RESET leaves CNT_TIMEOUT and sets no TMO, or it is a timeout. -/
theorem exec_timeout (hx : exec i s = .next t) (hreset : i ≠ .reset) :
    (t.cnt.timeout = s.cnt.timeout ∧ (t.flags.test .tmo = true → s.flags.test .tmo = true)) ∨ TimesOut s i t := by
  rcases exec_cases hx with he | ⟨b, rfl⟩ | ⟨c, x, rfl⟩
  · exact he.timeout hreset
  · obtain ⟨hcnt, -, htmo⟩ := exec_byteDone_recovery hx
    exact .inl ⟨hcnt, htmo.symm.trans⟩
  · obtain ⟨hcnt, -, htmo⟩ := exec_byteClass_recovery hx
    exact .inl ⟨hcnt, htmo.symm.trans⟩

/-- Settles O18: what is no timeout does neither. -/
theorem onlyATimeoutSetsTmo : Obligations.OnlyATimeoutSetsTmo := by
  intro i s t hx hreset hmoved
  rcases exec_timeout hx hreset with ⟨hcnt, htmo⟩ | h
  · rcases hmoved with ⟨hclear, hset⟩ | hne
    · exact absurd (htmo hset) (by simp [Flags.test, hclear])
    · exact absurd hcnt hne
  · exact ⟨h.instr, h.waiting, h.bound, h.seq, h.count⟩

/-! ## RESYNC -/

/-- What a RESYNC leaves, at the end of a reception or in an abort (R322, R323). -/
structure Resynced (s t : State) : Prop where
  parse : t.rxparse = t.rxwr
  rd : t.rxrd = t.rxwr
  unread : t.rxunread = 0#10
  wr : t.rxwr = s.rxwr
  count : t.cnt.resync = s.cnt.resync + 1#32
  seq : t.seq = .idle ∨ t.seq = .aborting

/-- Every abort resynchronises, whatever the cause (R320). -/
theorem Resynced.abort (c : Cause) (hwr : t.rxwr = s.rxwr) (hcnt : t.cnt = s.cnt) : Resynced s (t.abort c) where
  parse := by simp
  rd := by simp
  unread := by simp
  wr := by simpa using hwr
  count := by cases c <;> simp [Cause.count, hcnt]
  seq := .inr (by simp)

/-- A RESYNC is run in a wait: at the end of a reception that is not accepted, or in an abort. -/
theorem Effect.resync (he : Effect s i t) (hreset : i ≠ .reset) :
    t.cnt.resync = s.cnt.resync ∨ s.seq.quiet = false ∧ Resynced s t := by
  cases he with
  | reset => exact absurd rfl hreset
  | reject _ hq _ =>
    have hwait : s.seq.quiet = false := by rcases hq with hq | hq <;> simp [hq]
    exact .inr ⟨hwait, by simp, by simp, by simp, by simp, by simp, .inl (by simp)⟩
  | finishDrain _ hq => exact .inr ⟨by simp [hq], by simp, by simp, by simp, by simp, by simp, .inl (by simp)⟩
  | linkDrop _ hq =>
    have hwait : s.seq.quiet = false := by rcases hq with hq | hq <;> simp [hq]
    exact .inr ⟨hwait, .abort _ (by simp) (by simp)⟩
  | rxTimeout hq _ => exact .inr ⟨SeqState.quiet_eq_false_iff.2 (.inl hq), .abort _ (by simp) (by simp)⟩
  | txTimeout hq _ => exact .inr ⟨SeqState.quiet_eq_false_iff.2 (.inr hq), .abort _ (by simp) (by simp)⟩
  | abortReturn _ | buildFrame _ _ => exact .inl rfl
  | _ => left; simp

/-- An instruction but RESET leaves CNT_RESYNC, or it runs a RESYNC in a wait. -/
theorem exec_resync (hx : exec i s = .next t) (hreset : i ≠ .reset) :
    t.cnt.resync = s.cnt.resync ∨ s.seq.quiet = false ∧ Resynced s t := by
  rcases exec_cases hx with he | ⟨b, rfl⟩ | ⟨c, x, rfl⟩
  · exact he.resync hreset
  · obtain ⟨-, hcnt, -⟩ := exec_byteDone_recovery hx
    exact .inl hcnt
  · obtain ⟨-, hcnt, -⟩ := exec_byteClass_recovery hx
    exact .inl hcnt

/-- Settles O23: what moves CNT_RESYNC runs a RESYNC. -/
theorem resyncMakesTheCursorsEqual : Obligations.ResyncMakesTheCursorsEqual := by
  intro i s t _ hreset hx hmoved
  obtain ⟨-, h⟩ := (exec_resync hx hreset).resolve_left hmoved
  exact ⟨h.parse, h.rd, h.unread, h.wr, h.count, h.seq⟩

/-! ## ABORTING -/

/-- Of the instructions without a received byte only TICK, PARK and RESET leave ABORTING (R324). -/
theorem Effect.leaves_aborting (he : Effect s i t) (hq : s.seq = .aborting) (hleft : t.seq ≠ .aborting) :
    (i = .tick ∧ t.seq = .idle) ∨ i = .park ∨ i = .reset := by
  cases he with
  | abortReturn _ => exact .inl ⟨rfl, rfl⟩
  | park _ => exact .inr (.inl rfl)
  | reset => exact .inr (.inr rfl)
  -- taken in another state
  | startRx hs _ | startTx hs _ _ | denGrant _ hs | finishDrain _ hs | denLow _ hs => simp [hq] at hs
  | accept _ hs _ | reject _ hs _ | linkDrop _ hs => simp [hq] at hs
  | rxTimeout _ _ | txTimeout _ _ => simp at hleft
  -- the state stays
  | buildFrame _ _ => exact absurd hq hleft
  | _ => exact absurd (by simpa using hq) hleft

/-- A byte transfer in ABORTING is a stray or ignored (41_receive.md R180). -/
theorem exec_byteDone_aborting {b : Byte} (hx : exec (.byteDone b) s = .next t) (hq : s.seq = .aborting) :
    t.seq = .aborting := by
  cases hr : s.reqOut with
  | false =>
    rw [exec_byteDone_stray b (by simp [hq]) hr] at hx
    obtain rfl := Host.Outcome.next.inj hx
    simpa using hq
  | true =>
    rw [exec_byteDone_unreachable b hr (by simp [hq])] at hx
    obtain rfl := Host.Outcome.next.inj hx
    exact hq

/-- Settles O24: ABORTING is no wait, so no timeout and no RESYNC is taken in it (R325). -/
theorem abortingIsLeftOnlyByTickParkOrReset : Obligations.AbortingIsLeftOnlyByTickParkOrReset := by
  intro i s t hc hx hq
  refine ⟨fun hleft => ?_, fun hreset => ⟨?_, ?_⟩⟩
  · rcases exec_cases hx with he | ⟨b, rfl⟩ | ⟨c, x, rfl⟩
    · exact he.leaves_aborting hq hleft
    · exact absurd (exec_byteDone_aborting hx hq) hleft
    · cases c <;> simp [ByteClass.instr, byteContext] at hc
  · exact (exec_resync hx hreset).resolve_right fun h => by simp [hq] at h
  · rcases exec_timeout hx hreset with ⟨hcnt, -⟩ | h
    · exact hcnt
    · exact absurd h.waiting (by simp [hq])

/-! ## LASTERR -/

/-- No error is announced by TXDONE, the one flag that TX_SUBMIT clears (R310). -/
theorem ErrCode.stickyFlag_ne_txdone (e : ErrCode) : e.stickyFlag ≠ some .txdone := by
  cases e <;> simp [ErrCode.stickyFlag]

/-- VALIDATE answers overflow for a reception with its overflow mark set, and for no other (40_codec.md R152). -/
theorem State.validate_errOverflow_iff {k n : Nat} {ovf : Bool} :
    (s.validate k n ovf).verdict = .errOverflow ↔ ovf = true := by
  rw [State.validate_verdict]
  cases ovf with
  | true => simp
  | false =>
    simp only [Bool.false_eq_true, if_false, iff_false]
    split
    · simp
    · split <;> simp

/-- How an instruction can treat LASTERR: it leaves the code and is neither CLR_FLAGS nor RESET, it clears the code, it
writes a code whose flag is then set, or it writes RX_OVERFLOW at the end of a reception (R310, R312). -/
inductive LasterrChange (s : State) (i : Instr) (t : State) : Prop
  | kept (hcode : t.lasterr = s.lasterr) (hclr : i ≠ .clrFlags) (hreset : i ≠ .reset)
  | cleared (hcode : t.lasterr = .none)
  | recorded {f : Flag} (hcode : t.lasterr.stickyFlag = some f) (hflag : t.flags.test f = true)
  | overflow (hi : i = .den false) (hq : s.seq.isReceiving = true) (hden : s.den = true) (hovf : s.ovfCur = true)
      (hcode : t.lasterr = .rxOverflow) (hseq : t.seq = .idle)

/-- REJECT_FRAME writes the code of the verdict with the flag that VALIDATE gives for it (41_receive.md R191). -/
theorem LasterrChange.reject (hden : s.den = true) (hq : s.seq = .receiving .rxFirst ∨ s.seq = .receiving .rxBody)
    (hv : s.judge.verdict ≠ .ok) (hcode : t.lasterr = s.judge.verdict.errCode)
    (hflags : t.flags = (s.flags.raiseIf s.judge.lenBad .lenerr).raiseIf s.judge.ckBad .ckerr) (hseq : t.seq = .idle) :
    LasterrChange s (.den false) t := by
  obtain ⟨hlen, hck⟩ := State.validate_flags (s := s) (k := s.rxparse.toNat) (n := s.rxcnt.toNat) s.ovfCur
  cases hj : s.judge.verdict with
  | ok => exact absurd hj hv
  | errOverflow =>
    have hrecv : s.seq.isReceiving = true := by rcases hq with hq | hq <;> simp [hq]
    exact .overflow rfl hrecv hden (State.validate_errOverflow_iff.1 hj) (by rw [hcode, hj]; rfl) hseq
  | errLength =>
    have hbad : s.judge.lenBad = true := hlen hj
    exact .recorded (f := .lenerr) (by rw [hcode, hj]; rfl) (by simp [hflags, hbad])
  | errChecksum =>
    have hbad : s.judge.ckBad = true := hck hj
    exact .recorded (f := .ckerr) (by rw [hcode, hj]; rfl) (by simp [hflags, hbad])

/-- ABORT writes the code of its cause and sets the cause's flag (R321). -/
theorem LasterrChange.abort (c : Cause) : LasterrChange s i (t.abort c) :=
  .recorded (f := c.flag) (by cases c <;> rfl) (by simp)

theorem Effect.lasterr (he : Effect s i t) (hclr : i ≠ .clrFlags) (hreset : i ≠ .reset) : LasterrChange s i t := by
  cases he with
  | clrFlags => exact absurd rfl hclr
  | reset => exact absurd rfl hreset
  | reject hden hq hv => exact .reject hden hq hv (by simp) (by simp) (by simp)
  | linkDrop _ _ | rxTimeout _ _ | txTimeout _ _ => exact .abort _
  | abortReturn _ | buildFrame _ _ => exact .kept rfl hclr hreset
  | _ => exact .kept (by simp) hclr hreset

/-- The row of a received byte leaves LASTERR, or the byte is unexpected and UNEXP is set with the code (41_receive.md
R184; 42_transmit_collision.md R228). -/
theorem exec_byteClass_lasterr {c : ByteClass} {x : Byte} (hx : exec (c.instr x) s = .next t) :
    t.lasterr = s.lasterr ∨ t.lasterr.stickyFlag = some .unexp ∧ t.flags.test .unexp = true := by
  cases c with
  | rxUnexpected | txUnexpected =>
    obtain rfl := Host.Outcome.next.inj hx
    exact .inr ⟨rfl, by simp⟩
  | txData =>
    obtain rfl := Host.Outcome.next.inj hx
    left
    split <;> simp
  | rxSync | rxBody | rxDrain | txGrant | txCollision | stray | noresp =>
    obtain rfl := Host.Outcome.next.inj hx
    left
    simp

theorem exec_byteDone_lasterr {b : Byte} (hx : exec (.byteDone b) s = .next t) :
    t.lasterr = s.lasterr ∨ t.lasterr.stickyFlag = some .unexp ∧ t.flags.test .unexp = true := by
  rcases byteDone_row hx with rfl | ⟨c, u, hu, hrow⟩
  · exact .inl rfl
  · have hcode := exec_byteClass_lasterr hrow
    rcases hu with rfl | rfl <;> simpa using hcode

theorem exec_lasterr (hc : byteContext i = none) (hx : exec i s = .next t) : LasterrChange s i t := by
  by_cases hclr : i = .clrFlags
  · subst hclr
    obtain rfl := Host.Outcome.next.inj hx
    exact .cleared rfl
  by_cases hreset : i = .reset
  · subst hreset
    obtain rfl := Host.Outcome.next.inj hx
    exact .cleared rfl
  rcases exec_cases hx with he | ⟨b, rfl⟩ | ⟨c, x, rfl⟩
  · exact he.lasterr hclr hreset
  · rcases exec_byteDone_lasterr hx with hcode | ⟨hcode, hflag⟩
    · exact .kept hcode hclr hreset
    · exact .recorded hcode hflag
  · cases c <;> simp [ByteClass.instr, byteContext] at hc

/-- A code that stays keeps its flag (O15), and a code that is written comes with it. -/
theorem ErrorFlagInv.of_exec (h : ErrorFlagInv s) (hc : byteContext i = none) (hx : exec i s = .next t) :
    ErrorFlagInv t := by
  intro f hf
  cases exec_lasterr hc hx with
  | kept hcode hclr hreset =>
    rw [hcode] at hf
    refine transientFlagsAreSticky i s t f hx (h f hf) hclr hreset ?_
    rintro rfl
    exact absurd hf s.lasterr.stickyFlag_ne_txdone
  | cleared hcode => simp [hcode, ErrCode.stickyFlag] at hf
  | recorded hcode hflag =>
    obtain rfl := Option.some.inj (hcode.symm.trans hf)
    exact hflag
  | overflow _ _ _ _ hcode _ => simp [hcode, ErrCode.stickyFlag] at hf

/-- Settles O14: both clauses are read off what writes LASTERR. -/
theorem stepKeepsErrorFlag : Obligations.StepKeepsErrorFlag := by
  refine ⟨fun s t h hstep => ?_, fun s t hstep ht hs => ?_⟩
  · rcases step_next_cases hstep with ⟨-, ⟨-, rfl⟩ | ⟨e, rest, i, -, hd, hx⟩⟩
    · exact h
    · exact ErrorFlagInv.of_exec (s := { s with inbox := rest }) h (decode_no_byteContext hd) hx
  · rcases step_next_cases hstep with ⟨-, ⟨-, rfl⟩ | ⟨e, rest, i, hi, hd, hx⟩⟩
    · exact absurd ht hs
    · cases exec_lasterr (decode_no_byteContext hd) hx with
      | kept hcode _ _ => exact absurd (hcode.symm.trans ht) hs
      | cleared hcode => simp [hcode] at ht
      | recorded hcode _ => simp [ht, ErrCode.stickyFlag] at hcode
      | overflow hden hq hhigh hovf _ hseq =>
        subst hden
        exact ⟨by rw [hi, decode_eq_den hd]; rfl, hq, hhigh, hovf, hseq⟩

end Machine
end Sys2Proof

/-! PROOFS. Reset (spec/70_reset_and_hazards.md R350 to R353): the invariants hold after power-on, and RESET is power-on
with the parameters, the level of DEN and the record of the run kept. -/

namespace Sys2Proof.Machine

variable {s : State}

/-! ## The invariants after power-on -/

/-- Power-on is a state with every cursor 0 (R350). -/
theorem RingInv.powerOn {p : Params} (hl : p.legal = true) (denInit : Bool) : RingInv (State.powerOn p denInit) :=
  RingInv.cursorsZero hl rfl rfl rfl rfl rfl

/-- No byte of a buffer is listed before it is written (R352). -/
theorem MemInv.powerOn (p : Params) (denInit : Bool) : MemInv (State.powerOn p denInit) where
  txb := Memory.wf_nil
  rxb := Memory.wf_nil
  txbSize := fun i _ => Memory.get_nil i
  rxbSize := fun i _ => Memory.get_nil i

theorem Good.powerOn {p : Params} (hl : p.legal = true) (denInit : Bool) : Good (State.powerOn p denInit) where
  ctrl := CtrlInv.powerOn hl denInit
  ring := RingInv.powerOn hl denInit
  mem := MemInv.powerOn p denInit

/-- Without an error recorded there is no flag that must be set (R310). -/
theorem ErrorFlagInv.of_no_error (h : s.lasterr = .none) : ErrorFlagInv s := by
  intro f hf
  simp [h, ErrCode.stickyFlag] at hf

/-- Settles O10: the reset state is power-on in the test configuration, which is legal (R9). -/
theorem resetIsGood : Obligations.ResetIsGood :=
  have hgood (p : Params) (denInit : Bool) (hl : p.legal = true) :
      Good (State.powerOn p denInit) ∧ ErrorFlagInv (State.powerOn p denInit) :=
    ⟨Good.powerOn hl denInit, ErrorFlagInv.of_no_error rfl⟩
  ⟨hgood, hgood Config.tc false (by decide)⟩

/-! ## RESET -/

/-- A byte of TXB that was not written since the last RESET is the free value of that RESET (R352). -/
theorem State.txbByte_of_unwritten (h : s.txb = []) (k : Nat) : s.txbByte k = Config.txbUnspecified s.epoch k := by
  simp [State.txbByte, h]

/-- A byte of RXB that was not written since the last RESET is the free value of that RESET (R352). -/
theorem State.rxbByte_of_unwritten (h : s.rxb = []) (k : Nat) : s.rxbByte k = Config.rxbUnspecified s.epoch k := by
  simp [State.rxbByte, h]

/-- RESET is power-on with the parameters and the level of DEN of the state it comes in (R350, R351). -/
theorem exec_reset (s : State) :
    exec .reset s = .next
      { State.powerOn s.cfg s.den with
        trace := s.trace, inbox := s.inbox, rdata := s.rdata, epoch := s.epoch + 1 } := rfl

/-- Settles O45: every register is read off power-on, no flag is set in the cleared word, and the emptied buffers show
free values. -/
theorem resetReturnsToTheInitialState : Obligations.ResetReturnsToTheInitialState := by
  intro s
  refine ⟨_, exec_reset s, rfl, Flags.test_clear, rfl,
    -- the control: SEQ, REQ_OUT, the lines, OVF_CUR
    rfl, rfl, rfl, rfl, rfl,
    -- the transmit
    rfl, rfl, rfl, rfl, rfl,
    -- the cursors and the counts
    rfl, rfl, rfl, rfl, rfl, rfl, rfl,
    -- what stays
    rfl, rfl, rfl, rfl, rfl, ?_, ?_⟩
  · exact State.txbByte_of_unwritten rfl
  · exact State.rxbByte_of_unwritten rfl

end Sys2Proof.Machine
